-- ==== Sys2Proof/Word.lean ====
section
/-! DEFINITION. The word types of `i2c_bitbang_master`: their widths, and nothing else.
All quantities of the block are unsigned bit vectors (spec rules R8, R10). -/

namespace Sys2Proof

/-- One command word: 64 bits, one length, no other form (R90). -/
abbrev CmdWord := BitVec 64

/-- One byte, of `BUF`, of the wire, or of the command word's `b` field. -/
abbrev Byte := BitVec 8

/-- A 16-bit quantity: a `BUF` address, a length, a count, a register address, a half period (R8). -/
abbrev Half := BitVec 16

/-- One entry of the message table `MSGT`: 42 bits, every value legal (R61). -/
abbrev MsgWord := BitVec 42

/-- An index into `MSGT`: 8 bits (R8, R60). -/
abbrev MsgIndex := BitVec 8

/-- A pin level: `true` is high (1), `false` is low (0) (R11, the source's `bool high`). -/
abbrev Level := Bool

end Sys2Proof
end

