-- ==== Sys2Proof/Syntax.lean ====
section
/-! DEFINITION. The commands of the block, one constructor per row of spec/opcode_table.json (R94), with the
operands each one uses (R92, R93), already narrowed to the bits that command reads. -/

namespace Sys2Proof

/-- Direction of a message leg and low bit of an address byte: `WR = 0`, `RD = 1` (R11). -/
inductive MsgDir where
  | wr
  | rd
  deriving DecidableEq, Repr

/-- Direction of the SDA pad: `IN = 0`, `OUT = 1` (R11). -/
inductive PadDir where
  | inp
  | out
  deriving DecidableEq, Repr

/-- A command with its operands. A field its format does not use is ignored (R98) and is no operand here. -/
inductive Instr where
  /-- INIT, `op = 0x0`, format N (R211). -/
  | init
  /-- START, `op = 0x1`, format N (R122). -/
  | start
  /-- STOP, `op = 0x2`, format N (R124). -/
  | stop
  /-- WRITE_BYTE, `op = 0x3`, format B: the byte to send (R143). -/
  | writeByte (b : Byte)
  /-- READ_BYTE, `op = 0x4`, format B: `ack = b[0]`, `true` to acknowledge the byte (R146). -/
  | readByte (ack : Bool)
  /-- XFER, `op = 0x5`, format X: `mbase = ptr[7:0]`, `count = len` (R170). -/
  | xfer (mbase : MsgIndex) (count : Half)
  /-- WREG8, `op = 0x6`, format R: device-address operand, `reg[7:0]`, buffer address, length (R191). -/
  | wreg8 (dev : Byte) (reg : Byte) (ptr : Half) (len : Half)
  /-- WREG16, `op = 0x7`, format R: device-address operand, `reg[15:0]`, buffer address, length (R192). -/
  | wreg16 (dev : Byte) (reg : Half) (ptr : Half) (len : Half)
  /-- RREG8, `op = 0x8`, format R: device-address operand, `reg[7:0]`, buffer address, length (R193). -/
  | rreg8 (dev : Byte) (reg : Byte) (ptr : Half) (len : Half)
  /-- RREG16, `op = 0x9`, format R: device-address operand, `reg[15:0]`, buffer address, length (R194). -/
  | rreg16 (dev : Byte) (reg : Half) (ptr : Half) (len : Half)
  /-- SETCFG, `op = 0xA`, format C: the new half period (R213). -/
  | setcfg (halfPeriod : Half)
  deriving DecidableEq, Repr

/-- The value of the `op` field that selects a command (R94). -/
def Instr.opcode : Instr → BitVec 4
  | .init => 0x0#4
  | .start => 0x1#4
  | .stop => 0x2#4
  | .writeByte _ => 0x3#4
  | .readByte _ => 0x4#4
  | .xfer _ _ => 0x5#4
  | .wreg8 _ _ _ _ => 0x6#4
  | .wreg16 _ _ _ _ => 0x7#4
  | .rreg8 _ _ _ _ => 0x8#4
  | .rreg16 _ _ _ _ => 0x9#4
  | .setcfg _ => 0xA#4

end Sys2Proof
end

