-- ==== Sys2Proof/Config.lean ====
section
/-! DEFINITION. What an implementation fixes (R7) and the values the spec leaves open: build parameters, the bus agent's
answers, and the contents of memories nobody has written. Every constant below is opaque: no proof can see its value,
so a theorem holds for every value of it. -/

namespace Sys2Proof

/-- `ADDR_ALIGN` (R7, R66): how the 8-bit device-address operand maps to the address byte. -/
inductive AddrAlign where
  /-- The 7-bit address is operand bits 7:1 (the default). -/
  | left
  /-- The 7-bit address is operand bits 6:0. -/
  | right
  deriving DecidableEq, Repr, Inhabited

/-- The parameters fixed when one block is built and changeable by no command (R7, R44). `State` carries them so that
a statement about every state is a statement about every build. `TICK` is timing only (R262) and `PAD_TYPE` lies outside
the block (R7): neither is a parameter of behaviour. -/
structure Params where
  /-- `ACK_POLL_BUDGET` less one: the budget `PB` ranges over 1 to 65535 (R7), which this type is exactly. -/
  budgetLessOne : Fin 65535
  /-- `ADDR_ALIGN`. -/
  addrAlign : AddrAlign
  /-- `HP_RESET`, the reset value of `HALF_PERIOD`. -/
  hpReset : Half
  deriving DecidableEq, Repr

/-- `PB`, the number of SDA samples after which the acknowledge wait reports timeout; `1 ≤ PB ≤ 65535` (R7, R44). -/
def Params.pb (p : Params) : Nat := p.budgetLessOne.val + 1

/-- The build's `ACK_POLL_BUDGET`, less one: OPEN in the spec (R7, U4). Assumption log 1. -/
opaque Config.budgetLessOne : Fin 65535

/-- The build's `ADDR_ALIGN`: OPEN in the spec, LEFT by default (R7, R66, U16). Assumption log 1. -/
opaque Config.addrAlign : AddrAlign

/-- The build's `HP_RESET`: OPEN in the spec (R7, R43). Assumption log 1. -/
opaque Config.hpReset : Half

/-- The level the bus agent answers to the `n`-th sample of a run, where `State.bus` lists no answer: an unconstrained
draw (R15, U8). Assumption log 2. -/
opaque Config.smpDraw : Nat → Level

/-- The byte at an address of `BUF` that nothing has written: any value (R53, U13). Assumption log 3. -/
opaque Config.bufUnwritten : Half → Byte

/-- The entry at an index of `MSGT` that nothing has written: any value (R53, U13). Assumption log 3. -/
opaque Config.msgtUnwritten : MsgIndex → MsgWord

/-- The build this machine is: the three open parameters together. -/
def Config.params : Params :=
  { budgetLessOne := Config.budgetLessOne, addrAlign := Config.addrAlign, hpReset := Config.hpReset }

end Sys2Proof
end

