-- ==== Sys2Proof/WellFormed.lean ====
section
/-! DEFINITION. Which command words are well formed (R95 to R98). An `Instr` needs no check of its own: each operand's
type is exactly the width the command reads (R93), so every value of `Instr` is a legal command. What can be ill formed
is a WORD: its `z` field may be non-zero (R97), or its opcode may be one of the reserved five (R96). A word in which,
beside that, every ignored field is zero is called canonical: it is what the assembler writes (R98). -/

namespace Sys2Proof

/-- The opcode is one of the eleven of R94; 0xB to 0xF are reserved (R96). -/
def opcodeDefined (w : CmdWord) : Bool :=
  decide (w.extractLsb' 60 4 ≤ 0xA#4)

/-- The `z` field, bits 59:56, is zero; any other value makes the word reserved, whatever its opcode (R97). -/
def zFieldClear (w : CmdWord) : Bool :=
  decide (w.extractLsb' 56 4 = 0#4)

/-- A word the block gives a meaning to: neither R96 nor R97 reserves it. -/
def wordWellFormed (w : CmdWord) : Bool :=
  zFieldClear w && opcodeDefined w

/-- The bits of the command word that a command of this opcode ignores (R92, R93, R98): the `-` positions of the
opcode table's `encoding` string. -/
def ignoredBits (op : BitVec 4) : CmdWord :=
  match op.toNat with
  | 0 | 1 | 2 => 0x00FFFFFFFFFFFFFF#64
  | 3 => 0x0000FFFFFFFFFFFF#64
  | 4 => 0x00FEFFFFFFFFFFFF#64
  | 5 => 0x00FFFFFFFF000000#64
  | 6 | 8 => 0x0000FF0000000000#64
  | 10 => 0x00FFFFFFFFFF0000#64
  | _ => 0#64

/-- A well-formed word whose ignored bits are all zero: the form the assembler writes (R98, R100). -/
def wordCanonical (w : CmdWord) : Bool :=
  wordWellFormed w && decide (w &&& ignoredBits (w.extractLsb' 60 4) = 0#64)

end Sys2Proof
end

