-- ==== Sys2Proof/Decode.lean ====
section
/-! DEFINITION. Decoding a command word, total on all 64-bit words and rejecting by name (R91 to R98), the encoder that
writes the same table the other way (R100), and the layout of a message table entry (R61). -/

namespace Sys2Proof

/-! ## Fields of the command word (R91) -/

/-- `op`, bits 63:60. -/
def fieldOp (w : CmdWord) : BitVec 4 := w.extractLsb' 60 4
/-- `z`, bits 59:56. -/
def fieldZ (w : CmdWord) : BitVec 4 := w.extractLsb' 56 4
/-- `b`, bits 55:48. -/
def fieldB (w : CmdWord) : Byte := w.extractLsb' 48 8
/-- `reg`, bits 47:32. -/
def fieldReg (w : CmdWord) : Half := w.extractLsb' 32 16
/-- `ptr`, bits 31:16. -/
def fieldPtr (w : CmdWord) : Half := w.extractLsb' 16 16
/-- `len`, bits 15:0. -/
def fieldLen (w : CmdWord) : Half := w.extractLsb' 0 16

/-! ## Operand assembly (R93): the narrowings -/

/-- `ack = b[0]` (READ_BYTE; `b[7:1]` ignored). -/
def operandAck (w : CmdWord) : Bool := (fieldB w).getLsbD 0
/-- `mbase = ptr[7:0]` (XFER; `ptr[15:8]` ignored). -/
def operandMbase (w : CmdWord) : MsgIndex := (fieldPtr w).extractLsb' 0 8
/-- `reg8 = reg[7:0]` (WREG8, RREG8; `reg[15:8]` ignored). -/
def operandReg8 (w : CmdWord) : Byte := (fieldReg w).extractLsb' 0 8

/-! ## Decode (R95) -/

/-- Why a word is not a command. -/
inductive DecodeError where
  /-- `z` (bits 59:56) is not zero (R97). -/
  | reservedField (z : BitVec 4)
  /-- The opcode is one of 0xB to 0xF (R96). -/
  | reservedOpcode (op : BitVec 4)
  deriving DecidableEq, Repr

/-- Decode a command word. The `z` test comes first, so a word with `z ≠ 0` is reserved whatever its opcode
(R95, R97, R227 f). It reads nothing but the word. -/
def decode (w : CmdWord) : Except DecodeError Instr :=
  if fieldZ w ≠ 0#4 then .error (.reservedField (fieldZ w))
  else
    match (fieldOp w).toNat with
    | 0 => .ok .init
    | 1 => .ok .start
    | 2 => .ok .stop
    | 3 => .ok (.writeByte (fieldB w))
    | 4 => .ok (.readByte (operandAck w))
    | 5 => .ok (.xfer (operandMbase w) (fieldLen w))
    | 6 => .ok (.wreg8 (fieldB w) (operandReg8 w) (fieldPtr w) (fieldLen w))
    | 7 => .ok (.wreg16 (fieldB w) (fieldReg w) (fieldPtr w) (fieldLen w))
    | 8 => .ok (.rreg8 (fieldB w) (operandReg8 w) (fieldPtr w) (fieldLen w))
    | 9 => .ok (.rreg16 (fieldB w) (fieldReg w) (fieldPtr w) (fieldLen w))
    | 10 => .ok (.setcfg (fieldLen w))
    | _ => .error (.reservedOpcode (fieldOp w))

/-! ## Encode (R91, R94, R100) -/

/-- A command word from its fields, each at its position: `op` at 60, `b` at 48, `reg` at 32, `ptr` at 16, `len` at 0,
and `z` (bits 59:56) zero (R91). -/
def assemble (op : BitVec 4) (b : Byte) (reg ptr len : Half) : CmdWord :=
  (op.setWidth 64 <<< 60) ||| (b.setWidth 64 <<< 48) ||| (reg.setWidth 64 <<< 32) ||| (ptr.setWidth 64 <<< 16) |||
    len.setWidth 64

/-- The word the assembler writes for a command: its fields, zeros in the fields its format ignores (R98, R100). -/
def encode : Instr → CmdWord
  | .init => assemble 0x0#4 0 0 0 0
  | .start => assemble 0x1#4 0 0 0 0
  | .stop => assemble 0x2#4 0 0 0 0
  | .writeByte b => assemble 0x3#4 b 0 0 0
  | .readByte ack => assemble 0x4#4 (if ack then 1 else 0) 0 0 0
  | .xfer mbase count => assemble 0x5#4 0 0 (mbase.setWidth 16) count
  | .wreg8 dev reg ptr len => assemble 0x6#4 dev (reg.setWidth 16) ptr len
  | .wreg16 dev reg ptr len => assemble 0x7#4 dev reg ptr len
  | .rreg8 dev reg ptr len => assemble 0x8#4 dev (reg.setWidth 16) ptr len
  | .rreg16 dev reg ptr len => assemble 0x9#4 dev reg ptr len
  | .setcfg halfPeriod => assemble 0xA#4 0 0 0 halfPeriod

/-! ## The opcode table as masks and patterns (R94) -/

/-- The mask of every row of the opcode table. -/
def opcodeMask : CmdWord := 0xFF00000000000000#64

/-- The `match` column of the opcode table, in the order of its rows. -/
def opcodeMatches : List CmdWord :=
  [0x0000000000000000#64, 0x1000000000000000#64, 0x2000000000000000#64, 0x3000000000000000#64,
   0x4000000000000000#64, 0x5000000000000000#64, 0x6000000000000000#64, 0x7000000000000000#64,
   0x8000000000000000#64, 0x9000000000000000#64, 0xA000000000000000#64]

/-! ## A message table entry (R61) -/

/-- `addr`, bits 41:34: the device-address operand. -/
def msgAddr (m : MsgWord) : Byte := m.extractLsb' 34 8
/-- `dir`, bit 33: `WR = 0`, `RD = 1`. -/
def msgDir (m : MsgWord) : MsgDir := if m.getLsbD 33 then .rd else .wr
/-- `nostart`, bit 32: this leg continues the previous one without a fresh START and address phase. -/
def msgNostart (m : MsgWord) : Bool := m.getLsbD 32
/-- `len`, bits 31:16: number of buffer bytes. -/
def msgLen (m : MsgWord) : Half := m.extractLsb' 16 16
/-- `ptr`, bits 15:0: byte address in `BUF` of the first buffer byte. -/
def msgPtr (m : MsgWord) : Half := m.extractLsb' 0 16

/-- The 42-bit entry `addr ++ dir ++ nostart ++ len ++ ptr`: what `.msg` stores (R61, R102). -/
def packMsg (addr : Byte) (dir : MsgDir) (nostart : Bool) (len ptr : Half) : MsgWord :=
  (addr.setWidth 42 <<< 34) ||| ((BitVec.ofBool (decide (dir = .rd))).setWidth 42 <<< 33) |||
    ((BitVec.ofBool nostart).setWidth 42 <<< 32) ||| (len.setWidth 42 <<< 16) ||| ptr.setWidth 42

/-! ## The host's view of an opcode-table word -/

/-- The command word whose low `nbits` bits are those of `w` and whose other bits are zero. A command is one 64-bit word,
latched whole from the port (R33, R90), so there is no byte order to lay out. -/
def tableWord (nbits w : Nat) : CmdWord := BitVec.ofNat 64 (w % 2 ^ nbits)

/-- What the decoder reads from an opcode-table word, `none` where it refuses. -/
def decodeTableWord (nbits w : Nat) : Option Instr :=
  match decode (tableWord nbits w) with
  | .ok i => some i
  | .error _ => none

end Sys2Proof
end

