-- ==== Sys2Proof/Machine/State.lean ====
section
/-! DEFINITION. The state of one block and of what it meets at its ports, as plain data, and the state after reset
(R20 to R53, R250). -/

namespace Sys2Proof.Machine

/-- The outcome of an acknowledge wait and the one flag of the block: `OK = 0`, `TMO = 1` (R11, R36). -/
inductive Status where
  | ok
  | tmo
  deriving DecidableEq, Repr

/-- One event of the trace: what one micro-operation appends (R12). -/
inductive Event where
  /-- `sda v`: micro-operation `SDA(v)`. -/
  | sda (v : Level)
  /-- `scl v`: micro-operation `SCL(v)`. -/
  | scl (v : Level)
  /-- `dir d`: micro-operation `DIR(d)`. -/
  | dir (d : PadDir)
  /-- `dly`: micro-operation `DLY`. -/
  | dly
  /-- `smp b`: micro-operation `SMP`, which returned `b`. -/
  | smp (b : Level)
  /-- `rd a v`: `MemRead` of `BUF` address `a`, which returned `v`. -/
  | rd (a : Half) (v : Byte)
  /-- `wr a v`: `MemWrite` of `v` at `BUF` address `a`. -/
  | wr (a : Half) (v : Byte)
  deriving DecidableEq, Repr

/-- The sequencer position `SEQ` (R30), as far as it is architectural: idle, or inside the pseudocode of the command
whose opcode is given. The order of micro-operations inside a command, the one architectural fact beyond this, is in
`State.trace`. -/
inductive Seq where
  | idle
  | running (op : BitVec 4)
  deriving DecidableEq, Repr

/-- One action of the host agent at the ports (R15, R102, R250). -/
inductive HostAct where
  /-- Present a command word: `cmd_valid = 1` with this `cmd_word`, held until accepted (R33). -/
  | command (w : CmdWord)
  /-- Write an entry of the message table (R15, `.msg` of R102). -/
  | writeMsg (k : MsgIndex) (e : MsgWord)
  /-- Write a byte of the buffer memory (R15, `.buf` of R102). -/
  | writeBuf (a : Half) (v : Byte)
  /-- Assert `rst_n = 0` between two commands or in the cycle in which one completes, and release it (R250). -/
  | reset
  /-- Present a command word and assert `rst_n = 0` after the command's first `n` events (R251). -/
  | commandThenReset (w : CmdWord) (n : Nat)
  deriving DecidableEq, Repr

/-- The state of one block, its two memories, and its surroundings at the ports. -/
@[ext]
structure State where
  /-- The parameters this block was built with (R7, R44); no step changes them. -/
  params : Params
  /-- `SCL_OUT` (R41), port `scl_o`. -/
  sclOut : Level
  /-- `SDA_OUT` (R40), port `sda_o`. -/
  sdaOut : Level
  /-- `SDA_DIR` (R42), port `sda_oe`. -/
  sdaDir : PadDir
  /-- `HALF_PERIOD` (R43). -/
  halfPeriod : Half
  /-- `STATUS` (R36), port `rsp_status`. -/
  status : Status
  /-- `BUSY` (R37), port `busy`. -/
  busy : Bool
  /-- `SEQ` (R30). -/
  seq : Seq
  /-- `rsp_valid` (R20, R32): the response pulse. -/
  rspValid : Bool
  /-- `buf_we` (R20, R250): the write strobe of the buffer memory. -/
  bufWe : Bool
  /-- `CMD` (R22): the accepted command word. -/
  cmd : CmdWord
  /-- `SHIFT` (R22). -/
  shift : Byte
  /-- `BITCNT` (R22): bits of the current byte already clocked, 0 to 8. -/
  bitcnt : BitVec 4
  /-- `POLLCNT` (R22): high samples of the current acknowledge wait. -/
  pollcnt : Half
  /-- `I` (R22): index of the current message of a transfer. -/
  regI : Half
  /-- `J` (R22): index of the current byte of the current message or register operation. -/
  regJ : Half
  /-- `M` (R22): the current message table entry. -/
  regM : MsgWord
  /-- `RDATA` (R22), port `rsp_data`. -/
  rdata : Byte
  /-- `DLYCNT` (R22, R229): remaining ticks of the current `DLY`. -/
  dlycnt : Half
  /-- `MSGT` (R60, R61): the entries written so far, by index, in the canonical form of `Memory.wf`. -/
  msgt : List (Nat × MsgWord)
  /-- `BUF` (R60, R63): the bytes written so far, by address, in the canonical form of `Memory.wf`. -/
  buf : List Host.Cell
  /-- The full trace of the run, oldest event first (R12, R14): what the block did at its pins and its buffer. -/
  trace : List Event
  /-- The bus agent's next answers to `SMP`, first answer first (R15, `.bus` of R102). -/
  bus : List Level
  /-- The model's own field: how many samples the run has taken; it selects the free answer where `bus` lists none. -/
  samples : Nat
  /-- The host agent's next actions, first action first (R15). -/
  host : List HostAct
  deriving DecidableEq, Repr

/-- The block takes no trap and raises no exception, and no access faults (R69, R220): there is NO way for a step to
fault, so this type has no constructor. Safe: a step never stops with a fault where the block goes on. -/
inductive Fault where
  deriving DecidableEq, Repr

/-- Why a step gives no meaning to what it is asked to do. -/
inductive Refusal where
  /-- Raised by `exec` for a command that has no meaning yet (none: every arm has one). Safe: nothing follows from it. -/
  | notModelled (mnemonic : String)
  /-- Raised by the step that is given a word with a reserved opcode, 0xB to 0xF: "A model must refuse such a word" (R96).
  Safe: the model stops where the hardware fallback of R96 goes on. -/
  | reservedOpcode (op : BitVec 4)
  /-- Raised by the step that is given a word whose `z` field is not zero, treated as R96 says (R97).
  Safe: the model stops where the hardware fallback of R96 goes on. -/
  | reservedField (z : BitVec 4)
  deriving DecidableEq, Repr

/-- The machine right after reset (R53, R250): pins idle, SDA driven, `HALF_PERIOD = HP_RESET`, `STATUS = OK`, not busy,
no response, no write strobe. The working registers are unspecified by the spec and are zero here (assumption log 4); no
byte of `BUF` and no entry of `MSGT` has been written; no host action and no bus answer is waiting. -/
def State.reset : State where
  params := Config.params
  sclOut := true
  sdaOut := true
  sdaDir := .out
  halfPeriod := Config.hpReset
  status := .ok
  busy := false
  seq := .idle
  rspValid := false
  bufWe := false
  cmd := 0
  shift := 0
  bitcnt := 0
  pollcnt := 0
  regI := 0
  regJ := 0
  regM := 0
  rdata := 0
  dlycnt := 0
  msgt := []
  buf := []
  trace := []
  bus := []
  samples := 0
  host := []

end Sys2Proof.Machine
end

