-- ==== Sys2Proof/Machine/Ops.lean ====
section
/-! DEFINITION. The named operations over the state: the two memories, the six micro-operations (R12), the working
registers, acceptance and completion of a command, and reset. The block has no trap to take and none to return from
(R220): the one failure, acknowledge timeout, is the sequence `ackTimeout` of AckDetect.lean (R224). -/

namespace Sys2Proof.Machine

/-- What a step, or a command, answers. -/
abbrev Result := Host.Outcome State Fault Refusal

/-! ## Memories (R60 to R63): lists of (address, value) pairs, addresses strictly rising, listing what has been written -/

/-- The value last written at `a`, or `none`: no value, where nothing has written it. -/
def Memory.read {α : Type} : List (Nat × α) → Nat → Option α
  | [], _ => none
  | (k, v) :: rest, a => if a = k then some v else Memory.read rest a

/-- Write `v` at `a`, keeping the addresses strictly rising. -/
def Memory.write {α : Type} (a : Nat) (v : α) : List (Nat × α) → List (Nat × α)
  | [] => [(a, v)]
  | (k, u) :: rest =>
    if a < k then (a, v) :: (k, u) :: rest
    else if a = k then (a, v) :: rest
    else (k, u) :: Memory.write a v rest

/-- The canonical form: addresses strictly rising, all inside the memory's `size`. (An unlisted address holds no value, so
no entry can equal what it holds.) -/
abbrev Memory.wf {α : Type} (size : Nat) (m : List (Nat × α)) : Prop :=
  (m.map Prod.fst).Pairwise (· < ·) ∧ ∀ c ∈ m, c.1 < size

/-- The size of `BUF` in bytes (R8, R60). -/
def bufSize : Nat := 65536

/-- The number of entries of `MSGT` (R8, R60). -/
def msgtSize : Nat := 256

/-- `BUF[a]`: the byte last written there, else the unknown byte the memory came up with (R53, U13). -/
def bufByte (s : State) (a : Half) : Byte := (Memory.read s.buf a.toNat).getD (Config.bufUnwritten a)

/-- `MSGT[k]`: the entry last written there, else the unknown entry the memory came up with (R53, U13). -/
def msgEntry (s : State) (k : MsgIndex) : MsgWord := (Memory.read s.msgt k.toNat).getD (Config.msgtUnwritten k)

/-- Set `BUF[a]`. -/
def setBuf (a : Half) (v : Byte) (s : State) : State := { s with buf := Memory.write a.toNat v s.buf }

/-- Set `MSGT[k]`: the host's only, the table is read-only to the block (R60). -/
def setMsg (k : MsgIndex) (e : MsgWord) (s : State) : State := { s with msgt := Memory.write k.toNat e s.msgt }

/-! ## The six micro-operations (R12) -/

/-- `SDA(v)`: set `SDA_OUT`; the event is appended even where the level does not change. -/
def sda (v : Level) (s : State) : State := { s with sdaOut := v, trace := s.trace ++ [.sda v] }

/-- `SCL(v)`: set `SCL_OUT`. -/
def scl (v : Level) (s : State) : State := { s with sclOut := v, trace := s.trace ++ [.scl v] }

/-- `DIR(d)`: set `SDA_DIR`. -/
def dir (d : PadDir) (s : State) : State := { s with sdaDir := d, trace := s.trace ++ [.dir d] }

/-- Load the delay counter with `HALF_PERIOD` (R229). -/
def loadDelay (s : State) : State := { s with dlycnt := s.halfPeriod }

/-- The delay counter once it has counted down to zero, one per tick (R229); the ticks themselves are timing (R262). -/
def runDownDelay (s : State) : State := { s with dlycnt := 0 }

/-- `DLY`: wait `HALF_PERIOD` ticks. No effect on architectural state; the event is appended whatever the tick count. -/
def dly (s : State) : State :=
  let t := runDownDelay (loadDelay s)
  { t with trace := t.trace ++ [.dly] }

/-- The level the bus agent answers to the next `SMP`: the first of the answers it lists, else a free draw (R15). -/
def nextSample (s : State) : Level := s.bus.head?.getD (Config.smpDraw s.samples)

/-- `SMP`: return the level of `sda_i` at this moment. It changes nothing of the block (R71); the bus agent's answer is
used up. -/
def smp (s : State) : Level × State :=
  (nextSample s,
   { s with bus := s.bus.tail, samples := s.samples + 1, trace := s.trace ++ [.smp (nextSample s)] })

/-- `MemRead(a, 1)`: return `BUF[a]` and append `rd a v` (R63). -/
def memRead (a : Half) (s : State) : Byte × State :=
  (bufByte s a, { s with trace := s.trace ++ [.rd a (bufByte s a)] })

/-- `MemWrite(a, 1, v)`: set `BUF[a]` and append `wr a v` (R63). The strobe `buf_we` is up for this access only (R20). -/
def memWrite (a : Half) (v : Byte) (s : State) : State :=
  let t := setBuf a v { s with bufWe := true }
  { t with bufWe := false, trace := t.trace ++ [.wr a v] }

/-! ## Working registers (R22) -/

/-- `SHIFT <- v`. -/
def setShift (v : Byte) (s : State) : State := { s with shift := v }

/-- `SHIFT <- (SHIFT << 1)[7:0]`: the old bit 7 is lost, bit 0 becomes 0 (R149). -/
def shiftOut (s : State) : State := { s with shift := s.shift <<< 1 }

/-- `SHIFT <- SHIFT[6:0] ++ b` (R149). -/
def shiftIn (b : Level) (s : State) : State := { s with shift := s.shift.extractLsb' 0 7 ++ BitVec.ofBool b }

/-- `BITCNT <- n`. -/
def setBitcnt (n : BitVec 4) (s : State) : State := { s with bitcnt := n }

/-- One more bit clocked. -/
def countBit (s : State) : State := { s with bitcnt := s.bitcnt + 1 }

/-- `POLLCNT <- n`. -/
def setPollcnt (n : Half) (s : State) : State := { s with pollcnt := n }

/-- `POLLCNT <- POLLCNT + 1`. -/
def countPoll (s : State) : State := { s with pollcnt := s.pollcnt + 1 }

/-- `I <- n`. -/
def setI (n : Half) (s : State) : State := { s with regI := n }

/-- `J <- n`. -/
def setJ (n : Half) (s : State) : State := { s with regJ := n }

/-- `M <- e`. -/
def setM (e : MsgWord) (s : State) : State := { s with regM := e }

/-- `RDATA <- v`. -/
def setRdata (v : Byte) (s : State) : State := { s with rdata := v }

/-- `HALF_PERIOD <- n`. -/
def setHalfPeriod (n : Half) (s : State) : State := { s with halfPeriod := n }

/-! ## Acceptance and completion of a command (R32, R33) -/

/-- Latch the presented word: `CMD <- cmd_word` (R33, R76). -/
def latchCmd (w : CmdWord) (s : State) : State := { s with cmd := w }

/-- The rest of acceptance, for the command of opcode `op`: `STATUS <- OK`, `RDATA <- 0x00`, `BUSY <- 1`, `SEQ` at the
command's first position, and no response yet (R33). -/
def accept (op : BitVec 4) (s : State) : State :=
  { s with status := .ok, rdata := 0, busy := true, seq := .running op, rspValid := false }

/-- A command enters the cycle in which it completes: `rsp_valid` is up (R20, R32). `BUSY` is still 1 in that cycle, so that
`cmd_ready = not BUSY` is 0 in it (R227 c). -/
def finish (s : State) : State := { s with rspValid := true }

/-- The end of the cycle in which a command completes: `BUSY <- 0`, `SEQ <- IDLE`, the response pulse is over (R20, R32). -/
def endCompletion (s : State) : State := { s with rspValid := false, busy := false, seq := .idle }

/-- Every command ends in its completion; none faults (R220). -/
def complete (s : State) : Result := .next (finish s)

/-- A cycle in which nothing is taken from the host: a command that is completing completes; an idle engine holds every
register (R31). -/
def engineCycle (s : State) : State := if s.busy then endCompletion s else s

/-- The host's queue after its next action has been taken. -/
def nextHostAct (s : State) : State := { s with host := s.host.tail }

/-- The fallback R96 gives an implementer for a reserved word: accepted, no micro-operation, no memory access, `STATUS`
and `RDATA` cleared, no response pulse, idle again. The model's step REFUSES such a word, as R96 says a model must; this
states the other half of the rule. -/
def dropReserved (w : CmdWord) (s : State) : State :=
  endCompletion (accept (w.extractLsb' 60 4) (latchCmd w s))

/-! ## Reset (R250, R251) -/

/-- The state reset leaves: pins idle, `HALF_PERIOD = HP_RESET`, `STATUS = OK`, idle, no response, no strobe. The working
registers are unspecified by the spec and take the values of `State.reset` (assumption log 4). `MSGT` and `BUF` are not
touched; what the surroundings hold, and what has happened, stays. -/
def resetBlock (s : State) : State :=
  { State.reset with
    params := s.params
    halfPeriod := s.params.hpReset
    msgt := s.msgt
    buf := s.buf
    trace := s.trace
    bus := s.bus
    samples := s.samples
    host := s.host }

end Sys2Proof.Machine
end

