-- ==== Sys2Proof/Machine/Flags.lean ====
section
/-! DEFINITION. The two flags, `STATUS` and `BUSY` (R36 to R38; there are no others), and what the ports show of the
state (R20, R45). -/

namespace Sys2Proof.Machine

/-- `STATUS <- r` (R36): the only writer beside acceptance. -/
def setStatus (r : Status) (s : State) : State := { s with status := r }

/-- The numeric code of a status: `OK = 0`, `TMO = 1` (R11, R221). -/
def Status.code : Status → BitVec 1
  | .ok => 0#1
  | .tmo => 1#1

/-- The numeric code of a pad direction: `IN = 0`, `OUT = 1` (R11). -/
def padCode : PadDir → BitVec 1
  | .inp => 0#1
  | .out => 1#1

/-- Port `cmd_ready = not BUSY`. -/
def cmdReady (s : State) : Bool := !s.busy

/-- Port `busy`. -/
def portBusy (s : State) : Bool := s.busy

/-- Port `rsp_status = STATUS`, valid while `rsp_valid` is up. -/
def rspStatus (s : State) : BitVec 1 := Status.code s.status

/-- Port `rsp_data = RDATA`, valid while `rsp_valid` is up. -/
def rspData (s : State) : Byte := s.rdata

/-- Port `scl_o`: SCL is always an output. -/
def sclO (s : State) : Level := s.sclOut

/-- Port `sda_o`. -/
def sdaO (s : State) : Level := s.sdaOut

/-- Port `sda_oe`: 1 where the pad drives `sda_o`. -/
def sdaOe (s : State) : BitVec 1 := padCode s.sdaDir

end Sys2Proof.Machine
end

