-- ==== Sys2Proof/Machine/Signal.lean ====
section
/-! DEFINITION. Unit `start_stop_gen`: procedures Start and Stop, commands START and STOP (R120 to R126). -/

namespace Sys2Proof.Machine

/-- Procedure `Start()` (R120): `SDA(1), SCL(1), DLY, SDA(0), DLY, SCL(0)`. A repeated START is the same (R121). It
checks no precondition and executes no `DIR`. -/
def startProc (s : State) : State :=
  scl false (dly (sda false (dly (scl true (sda true s)))))

/-- Procedure `Stop()` (R123): `SCL(0), SDA(0), DLY, SCL(1), DLY, SDA(1)`. -/
def stopProc (s : State) : State :=
  sda true (dly (scl true (dly (sda false (scl false s)))))

/-- Command START (R122). -/
def execStart (s : State) : Result :=
  complete (startProc (accept 0x1#4 s))

/-- Command STOP (R124). -/
def execStop (s : State) : Result :=
  complete (stopProc (accept 0x2#4 s))

end Sys2Proof.Machine
end

