-- ==== Sys2Proof/Machine/AckDetect.lean ====
section
/-! DEFINITION. Unit `ack_detector`: procedure AckWait, the ninth clock and the bounded poll of SDA (R160 to R167), and
the one failure of the block, acknowledge timeout (R220 to R225, R233). -/

namespace Sys2Proof.Machine

/-- What AckWait does when a sample is low (R161, R163): end the clock pulse, then drive SDA high again. -/
def ackSuccess (s : State) : Status × State :=
  (.ok, dir .out (sda true (scl false s)))

/-- What AckWait does when the poll budget is exhausted (R161, R164, R224): SDA high, output, STOP. The one shared
operation of the block's one failure; it saves nothing (R222) and returns like any other. -/
def ackTimeout (s : State) : Status × State :=
  (.tmo, stopProc (dir .out (sda true s)))

/-- The poll loop of AckWait (R161), with `left` samples of the budget not yet taken. `left = 0` is the test
`POLLCNT = PB`: it is reached after a high sample only, since `PB ≥ 1`. A sample is tested before it is counted, so a
low level on the last sample of the budget is a success (R227 d). -/
def ackPoll : Nat → State → Status × State
  | 0, s => ackTimeout s
  | left + 1, s =>
    match smp s with
    | (false, t) => ackSuccess t
    | (true, t) => ackPoll left (countPoll t)

/-- The part of AckWait before the first sample (R161): `DIR(IN), SCL(0), DLY, SCL(1), DLY, POLLCNT <- 0`. -/
def ackClock (s : State) : State :=
  setPollcnt 0 (dly (scl true (dly (scl false (dir .inp s)))))

/-- Procedure `AckWait()` (R161). -/
def ackWait (s : State) : Status × State :=
  ackPoll s.params.pb (ackClock s)

end Sys2Proof.Machine
end

