-- ==== Sys2Proof/Machine/ByteXfer.lean ====
section
/-! DEFINITION. Unit `byte_xfer_unit`: procedures SendByte, ReadByte and MasterAck, commands WRITE_BYTE and READ_BYTE
(R140 to R149). -/

namespace Sys2Proof.Machine

/-- One bit of a sent byte (R141): `SCL(0), DLY, SDA(SHIFT[7]), SCL(1), DLY, SHIFT <- SHIFT << 1`; one more bit clocked. -/
def sendBit (s : State) : State :=
  let t := dly (scl false s)
  countBit (shiftOut (dly (scl true (sda t.shift.msb t))))

/-- The bit loop of SendByte for the `n` bits not yet clocked (R141). -/
def sendBits : Nat → State → State
  | 0, s => s
  | n + 1, s => sendBits n (sendBit s)

/-- Procedure `SendByte(v)` (R141): eight bits, most significant first, then AckWait, whose result it returns. It
executes no `DIR` before its bits (R142). -/
def sendByte (v : Byte) (s : State) : Status × State :=
  ackWait (sendBits 8 (setBitcnt 0 (setShift v s)))

/-- `STATUS <- call SendByte(v)` (R36). -/
def sendKeepStatus (v : Byte) (s : State) : State :=
  setStatus (sendByte v s).1 (sendByte v s).2

/-- `call SendByte(v)`, result discarded (R196). -/
def sendDropStatus (v : Byte) (s : State) : State :=
  (sendByte v s).2

/-- Procedure `MasterAck(level)` (R148): `SCL(0), SDA(level), DIR(OUT), DLY, SCL(1), DLY, SCL(0)`. -/
def masterAck (level : Level) (s : State) : State :=
  scl false (dly (scl true (dly (dir .out (sda level (scl false s))))))

/-- One bit of a received byte (R145): `SCL(0), DLY, SCL(1), SMP, SHIFT <- SHIFT[6:0] ++ s, DLY`; one more bit clocked. -/
def readBit (s : State) : State :=
  let r := smp (scl true (dly (scl false s)))
  countBit (dly (shiftIn r.1 r.2))

/-- The bit loop of ReadByte for the `n` bits not yet clocked (R145). -/
def readBits : Nat → State → State
  | 0, s => s
  | n + 1, s => readBits n (readBit s)

/-- Procedure `ReadByte(ack)` (R145): eight samples, most significant first, then Ack (SDA low) or Nack (SDA high). It
returns the byte and no status. -/
def readByte (ack : Bool) (s : State) : Byte × State :=
  let t := masterAck (!ack) (readBits 8 (setBitcnt 0 (setShift 0 (dir .inp s))))
  (t.shift, t)

/-- Command WRITE_BYTE (R143). -/
def execWriteByte (b : Byte) (s : State) : Result :=
  complete (sendKeepStatus b (accept 0x3#4 s))

/-- Command READ_BYTE (R146): the byte goes to the response. -/
def execReadByte (ack : Bool) (s : State) : Result :=
  let r := readByte ack (accept 0x4#4 s)
  complete (setRdata r.1 r.2)

end Sys2Proof.Machine
end

