-- ==== Sys2Proof/Machine/Operands.lean ====
section
/-! DEFINITION. Every operand form of the spec: the address byte (R66), the indexing of the message table (R62) and of a
buffer (R63), and the bytes a register operation sends (R68). -/

namespace Sys2Proof.Machine

/-- The direction bit as the low bit of a byte: `WR = 0`, `RD = 1` (R11, R66). -/
def dirBit : MsgDir → Byte
  | .wr => 0x00#8
  | .rd => 0x01#8

/-- `AddrByte(a, d)` (R66): `(a & 0xFE) | d` for `LEFT`, `((a << 1) & 0xFE) | d` for `RIGHT`. -/
def addrByte (align : AddrAlign) (a : Byte) (d : MsgDir) : Byte :=
  match align with
  | .left => (a &&& 0xFE#8) ||| dirBit d
  | .right => ((a <<< 1) &&& 0xFE#8) ||| dirBit d

/-- `AddrByte` under this block's `ADDR_ALIGN`. -/
def addrByteOf (s : State) (a : Byte) (d : MsgDir) : Byte := addrByte s.params.addrAlign a d

/-- The index in `MSGT` of message `i`: `(mbase + i) mod 256` (R62). -/
def msgIndex (mbase : MsgIndex) (i : Half) : MsgIndex := mbase + i.setWidth 8

/-- The address in `BUF` of byte `j` of the buffer at `ptr`: `(ptr + j) mod 65536` (R63). -/
def bufAddr (ptr j : Half) : Half := ptr + j

/-- The high byte of a 16-bit register address, sent first (R68). -/
def regHigh (reg : Half) : Byte := reg.extractLsb' 8 8

/-- The low byte of a 16-bit register address, sent last; the whole of an 8-bit one (R68). -/
def regLow (reg : Half) : Byte := reg.extractLsb' 0 8

/-- An 8-bit register address as the `reg` field holds it; its high byte is ignored by the 8-bit forms (R68, R93). -/
def regOfByte (reg : Byte) : Half := reg.setWidth 16

end Sys2Proof.Machine
end

