-- ==== Sys2Proof/Machine/Transfer.lean ====
section
/-! DEFINITION. The message transfer loop, command XFER (R170 to R184), and the two byte loops it shares with the register
operations. -/

namespace Sys2Proof.Machine

/-- The body of a write loop for the `n` bytes not yet sent (R177, R179, R195): read a byte of the buffer, send it,
keep its status. There is no test in this loop: every byte is sent and the last status stays. `J` ends at the length. -/
def sendLoop : Nat → Half → State → State
  | 0, _, s => s
  | n + 1, ptr, s =>
    let r := memRead (bufAddr ptr s.regJ) s
    let t := sendKeepStatus r.1 r.2
    sendLoop n ptr (setJ (t.regJ + 1) t)

/-- The body of a read loop for the `n` bytes not yet read (R178, R196): read a byte, acknowledging every one but the
last (`J = len-1`, that is, none left after it), then write it to the buffer. `J` ends at the length. -/
def readLoop : Nat → Half → State → State
  | 0, _, s => s
  | n + 1, ptr, s =>
    let r := readByte (decide (n ≠ 0)) s
    let t := memWrite (bufAddr ptr r.2.regJ) r.1 r.2
    readLoop n ptr (setJ (t.regJ + 1) t)

/-- `for J in 0 .. len-1`, sending (R177, R195). -/
def sendBuffer (ptr len : Half) (s : State) : State := sendLoop len.toNat ptr (setJ 0 s)

/-- `for J in 0 .. len-1`, reading (R178, R196). -/
def readBuffer (ptr len : Half) (s : State) : State := readLoop len.toNat ptr (setJ 0 s)

/-- `M <- MSGT[(mbase + I) mod 256]` (R62, R172); no event. -/
def loadMsg (mbase : MsgIndex) (s : State) : State := setM (msgEntry s (msgIndex mbase s.regI)) s

/-- The Start rule, tied to the index (R173, R176): a Start for message 0, a repeated START for message 1, none for a
message of index 2 or more. -/
def legStart (s : State) : State :=
  if s.regI = 0 then startProc s
  else if s.regI = 1 then startProc s
  else s

/-- The Start and address phase of a message whose `nostart` is 0 (R173, R174): the address byte is sent whether or not
a START was. -/
def legHead (s : State) : State :=
  let t := legStart s
  sendKeepStatus (addrByteOf t (msgAddr t.regM) (msgDir t.regM)) t

/-- The data of a message: a write leg (R177) or a read leg (R178). -/
def legBody (s : State) : State :=
  match msgDir s.regM with
  | .wr => sendBuffer (msgPtr s.regM) (msgLen s.regM) s
  | .rd => readBuffer (msgPtr s.regM) (msgLen s.regM) s

/-- One iteration of the message loop, with the outcome `true` where it leaves the loop: after an address byte that timed
out, its body skipped (R175), or after a body that leaves `STATUS = TMO` (R180). -/
def leg (mbase : MsgIndex) (s : State) : Bool × State :=
  let t := loadMsg mbase s
  if msgNostart t.regM then
    let u := legBody t
    (decide (u.status = .tmo), u)
  else
    let h := legHead t
    if h.status = .tmo then (true, h)
    else
      let u := legBody h
      (decide (u.status = .tmo), u)

/-- The message loop for the `n` messages not yet begun (R171, R172): in order, until a leg leaves the loop. `I` ends at
the count, or at the index of the message that left the loop. -/
def messageLoop : Nat → MsgIndex → State → State
  | 0, _, s => s
  | n + 1, mbase, s =>
    match leg mbase s with
    | (true, t) => t
    | (false, t) => messageLoop n mbase (setI (t.regI + 1) t)

/-- The whole of XFER's pseudocode (R171): the message loop, then one Stop whatever happened (R181). -/
def transfer (mbase : MsgIndex) (count : Half) (s : State) : State :=
  stopProc (messageLoop count.toNat mbase (setI 0 s))

/-- Command XFER (R170, R171). -/
def execXfer (mbase : MsgIndex) (count : Half) (s : State) : Result :=
  complete (transfer mbase count (accept 0x5#4 s))

end Sys2Proof.Machine
end

