-- ==== Sys2Proof/Machine/RegOps.lean ====
section
/-! DEFINITION. The register convenience operations: procedures RegWrite and RegRead, commands WREG8, WREG16, RREG8 and
RREG16 (R190 to R200). They do not read `MSGT`. -/

namespace Sys2Proof.Machine

/-- Procedure `RegWrite(wide)` (R195): START, write-address byte, register address high byte first where `wide`, each
data byte, STOP. No status is tested; every send writes `STATUS`, so the last one stays (R197, R198). -/
def regWrite (wide : Bool) (dev : Byte) (reg ptr len : Half) (s : State) : State :=
  let a := startProc s
  let b := sendKeepStatus (addrByteOf a dev .wr) a
  let c := if wide then sendKeepStatus (regHigh reg) b else b
  let d := sendKeepStatus (regLow reg) c
  stopProc (sendBuffer ptr len d)

/-- Procedure `RegRead(wide)` (R196): START, write-address byte, register address, repeated START, read-address byte,
each data byte acknowledged but the last, STOP. Every send's result is discarded; `STATUS` is not written (R199). -/
def regRead (wide : Bool) (dev : Byte) (reg ptr len : Half) (s : State) : State :=
  let a := startProc s
  let b := sendDropStatus (addrByteOf a dev .wr) a
  let c := if wide then sendDropStatus (regHigh reg) b else b
  let d := sendDropStatus (regLow reg) c
  let e := startProc d
  let f := sendDropStatus (addrByteOf e dev .rd) e
  stopProc (readBuffer ptr len f)

/-- Command WREG8 (R191): `reg[15:8]` is ignored. -/
def execWreg8 (dev : Byte) (reg : Byte) (ptr len : Half) (s : State) : Result :=
  complete (regWrite false dev (regOfByte reg) ptr len (accept 0x6#4 s))

/-- Command WREG16 (R192). -/
def execWreg16 (dev : Byte) (reg : Half) (ptr len : Half) (s : State) : Result :=
  complete (regWrite true dev reg ptr len (accept 0x7#4 s))

/-- Command RREG8 (R193): `reg[15:8]` is ignored. -/
def execRreg8 (dev : Byte) (reg : Byte) (ptr len : Half) (s : State) : Result :=
  complete (regRead false dev (regOfByte reg) ptr len (accept 0x8#4 s))

/-- Command RREG16 (R194). -/
def execRreg16 (dev : Byte) (reg : Half) (ptr len : Half) (s : State) : Result :=
  complete (regRead true dev reg ptr len (accept 0x9#4 s))

end Sys2Proof.Machine
end

