-- ==== Sys2Proof/Machine/System.lean ====
section
/-! DEFINITION. The system operations: procedure Init, commands INIT and SETCFG (R210 to R214). -/

namespace Sys2Proof.Machine

/-- Procedure `Init()` (R210): `SCL(1), SDA(1), DIR(OUT)`. The source's registry half of init is no part of the block
(R212). -/
def initProc (s : State) : State :=
  dir .out (sda true (scl true s))

/-- Command INIT (R211). -/
def execInit (s : State) : Result :=
  complete (initProc (accept 0x0#4 s))

/-- Command SETCFG (R213): `HALF_PERIOD <- len`; no micro-operation, no event. -/
def execSetcfg (halfPeriod : Half) (s : State) : Result :=
  complete (setHalfPeriod halfPeriod (accept 0xA#4 s))

end Sys2Proof.Machine
end

