-- ==== Sys2Proof/Machine/Dispatch.lean ====
section
/-! DEFINITION. One arm per command (R94, R95): the meaning each has. -/

namespace Sys2Proof.Machine

def exec (i : Instr) (s : State) : Host.Outcome State Fault Refusal :=
  match i with
  | .init => Sys2Proof.Machine.execInit s
  | .start => Sys2Proof.Machine.execStart s
  | .stop => Sys2Proof.Machine.execStop s
  | .writeByte b => Sys2Proof.Machine.execWriteByte b s
  | .readByte ack => Sys2Proof.Machine.execReadByte ack s
  | .xfer mbase count => Sys2Proof.Machine.execXfer mbase count s
  | .wreg8 dev reg ptr len => Sys2Proof.Machine.execWreg8 dev reg ptr len s
  | .wreg16 dev reg ptr len => Sys2Proof.Machine.execWreg16 dev reg ptr len s
  | .rreg8 dev reg ptr len => Sys2Proof.Machine.execRreg8 dev reg ptr len s
  | .rreg16 dev reg ptr len => Sys2Proof.Machine.execRreg16 dev reg ptr len s
  | .setcfg halfPeriod => Sys2Proof.Machine.execSetcfg halfPeriod s

end Sys2Proof.Machine
end

