-- ==== Sys2Proof/Machine/Trace.lean ====
section
/-! DEFINITION. What the trace of a command says (R14): the events of each procedure as the spec lists them, the pin
trace, the byte trace, the START and STOP patterns on the wire (R126), the cycles of R262, and replaying a trace. Nothing
here is used by a command's meaning, but for `replay`, which a reset during a command uses (R251). -/

namespace Sys2Proof.Machine

/-! ## The events of the procedures, as lists -/

/-- The full trace of `Start()` (R120). -/
def startEvents : List Event := [.sda true, .scl true, .dly, .sda false, .dly, .scl false]

/-- The full trace of `Stop()` (R123). -/
def stopEvents : List Event := [.scl false, .sda false, .dly, .scl true, .dly, .sda true]

/-- The full trace of `Init()` (R210). -/
def initEvents : List Event := [.scl true, .sda true, .dir .out]

/-- The full trace of one sent bit `b` (R141): no `dly` between the `sda` and the `scl` that follows it. -/
def bitEvents (b : Level) : List Event := [.scl false, .dly, .sda b, .scl true, .dly]

/-- The bits of a byte, most significant first (R67). -/
def bitsOf (v : Byte) : List Level :=
  [v.getLsbD 7, v.getLsbD 6, v.getLsbD 5, v.getLsbD 4, v.getLsbD 3, v.getLsbD 2, v.getLsbD 1, v.getLsbD 0]

/-- A byte from its bits, most significant first: the inverse of `bitsOf` on lists of eight. -/
def byteOf (bits : List Level) : Byte :=
  bits.foldl (fun acc b => (acc <<< 1) ||| (if b then 1#8 else 0#8)) 0#8

/-- The full trace of AckWait before the first sample (R161). -/
def ackHeadEvents : List Event := [.dir .inp, .scl false, .dly, .scl true, .dly]

/-- The full trace of an AckWait whose samples are `highs` high ones, then a low one where the budget `pb` allows it
(R162 to R164, R167). -/
def ackEvents (pb highs : Nat) : List Event :=
  ackHeadEvents ++ List.replicate highs (.smp true) ++
    (if highs < pb then [.smp false, .scl false, .sda true, .dir .out]
     else [.sda true, .dir .out] ++ stopEvents)

/-- The full trace of `SendByte(v)` (R141), its AckWait taking `highs` high samples. -/
def sendEvents (pb : Nat) (v : Byte) (highs : Nat) : List Event :=
  (bitsOf v).flatMap bitEvents ++ ackEvents pb highs

/-- The status `SendByte` returns after `highs` high samples (R162). -/
def ackStatus (pb highs : Nat) : Status := if highs < pb then .ok else .tmo

/-- The full trace of one received bit, sampled as `b` (R145). -/
def sampleEvents (b : Level) : List Event := [.scl false, .dly, .scl true, .smp b, .dly]

/-- The full trace of `MasterAck(level)` (R148). -/
def masterAckEvents (level : Level) : List Event :=
  [.scl false, .sda level, .dir .out, .dly, .scl true, .dly, .scl false]

/-- The full trace of `ReadByte(ack)` that receives `v` (R145). -/
def readEvents (ack : Bool) (v : Byte) : List Event :=
  [.dir .inp] ++ (bitsOf v).flatMap sampleEvents ++ masterAckEvents (!ack)

/-! ## The bus agent's next answers -/

/-- The answer the bus agent gives to the `k`-th next sample, `k` from 0 (R15): the one it lists, else a free draw. -/
def sampleAt (s : State) (k : Nat) : Level := (s.bus[k]?).getD (Config.smpDraw (s.samples + k))

/-- The next `k` answers of the bus agent, first first. -/
def samplesOf (s : State) (k : Nat) : List Level := (List.range k).map (sampleAt s)

/-- How many high answers come before the first low one, counting no further than `pb`: the high samples one AckWait
with that budget takes of these answers (R162). -/
def highsOf (pb : Nat) (answers : Nat → Level) : Nat :=
  (((List.range pb).map answers).takeWhile (· == true)).length

/-- The same, of the answers the bus agent gives from this state on. -/
def highsWithin (pb : Nat) (s : State) : Nat := highsOf pb (sampleAt s)

/-- How many high samples the next AckWait takes, under this block's poll budget (R162). -/
def highs (s : State) : Nat := highsWithin s.params.pb s

/-- How many samples an AckWait takes: the high ones, and the low one that ends them where the budget allows one (R162). -/
def samplesTaken (pb highs : Nat) : Nat := min (highs + 1) pb

/-- The high samples that `n` bytes sent one after another take, first byte first, of these answers (R233: each AckWait
is independent). -/
def ackCounts (pb : Nat) (answers : Nat → Level) : Nat → List Nat
  | 0 => []
  | n + 1 =>
    let k := highsOf pb answers
    k :: ackCounts pb (fun i => answers (i + samplesTaken pb k)) n

/-- How many samples bytes sent with these counts of high samples take together. -/
def samplesForCounts (pb : Nat) (counts : List Nat) : Nat := (counts.map (samplesTaken pb)).sum

/-- The byte that eight answers make, the first of them the one numbered `n`, as bit 7 (R145). -/
def byteAt (answers : Nat → Level) (n : Nat) : Byte := byteOf ((List.range 8).map fun i => answers (n + i))

/-- The full trace of sending `bytes` one after another, with their counts of high samples. -/
def sendsEvents (pb : Nat) (bytes : List Byte) (counts : List Nat) : List Event :=
  (bytes.zip counts).flatMap fun p => sendEvents pb p.1 p.2

/-- The full trace of sending the bytes at these buffer addresses, each read just before it is sent (R75, R177, R195). -/
def sendBufferEvents (pb : Nat) (cells : List (Half × Byte)) (counts : List Nat) : List Event :=
  (cells.zip counts).flatMap fun p => .rd p.1.1 p.1.2 :: sendEvents pb p.1.2 p.2

/-- The full trace of receiving these bytes into these buffer addresses, each written just after its Ack or Nack pulse and
every one acknowledged but the last (R75, R178, R196). -/
def readBufferEvents : List (Half × Byte) → List Event
  | [] => []
  | (a, v) :: rest => readEvents (decide (rest ≠ [])) v ++ [.wr a v] ++ readBufferEvents rest

/-- The addresses in `BUF` of a buffer of `n` bytes at `ptr`, first first (R63). -/
def bufAddrs (ptr : Half) (n : Nat) : List Half := (List.range n).map fun j => ptr + BitVec.ofNat 16 j

/-! ## Abstractions of a trace -/

/-- The pin trace: the full trace with every `dly` removed (R14). -/
def pinTrace (evs : List Event) : List Event := evs.filter (fun e => decide (e ≠ .dly))

/-- The symbols of the byte trace (95_test_vectors.md section 1). -/
inductive ByteSym where
  /-- `S`: a Start. -/
  | S
  /-- `W(v,A)` where `acked`, else `W(v,N)`: a byte sent. -/
  | W (v : Byte) (acked : Bool)
  /-- `R(v,A)` where `acked`, else `R(v,N)`: a byte received. -/
  | R (v : Byte) (acked : Bool)
  /-- `P`: a Stop. -/
  | P
  deriving DecidableEq, Repr

/-- The rest of a trace after a given beginning, if it begins so. -/
def afterPrefix : List Event → List Event → Option (List Event)
  | [], evs => some evs
  | _ :: _, [] => none
  | p :: ps, e :: evs => if p = e then afterPrefix ps evs else none

/-- Read `n` sent bits from the head of a trace: the byte they extend `acc` to, and the rest. -/
def parseSent : Nat → Byte → List Event → Option (Byte × List Event)
  | 0, acc, evs => some (acc, evs)
  | n + 1, acc, .scl false :: .dly :: .sda b :: .scl true :: .dly :: evs =>
    parseSent n ((acc <<< 1) ||| (if b then 1#8 else 0#8)) evs
  | _ + 1, _, _ => none

/-- Read `n` received bits from the head of a trace. -/
def parseReceived : Nat → Byte → List Event → Option (Byte × List Event)
  | 0, acc, evs => some (acc, evs)
  | n + 1, acc, .scl false :: .dly :: .scl true :: .smp b :: .dly :: evs =>
    parseReceived n ((acc <<< 1) ||| (if b then 1#8 else 0#8)) evs
  | _ + 1, _, _ => none

/-- Read the head of a trace as one symbol of the byte trace and the rest, where it is one. A byte that timed out is
`W(v,N)`, and the Stop inside its AckWait then reads as the next symbol. -/
def parseSym (evs : List Event) : Option (ByteSym × List Event) :=
  match afterPrefix startEvents evs with
  | some rest => some (.S, rest)
  | none =>
    match afterPrefix stopEvents evs with
    | some rest => some (.P, rest)
    | none =>
      match parseSent 8 0 evs with
      | some (v, rest) =>
        match afterPrefix ackHeadEvents rest with
        | some tail =>
          match tail.dropWhile (fun e => decide (e = .smp true)) with
          | .smp false :: .scl false :: .sda true :: .dir .out :: rest' => some (.W v true, rest')
          | .sda true :: .dir .out :: rest' => some (.W v false, rest')
          | _ => none
        | none => none
      | none =>
        match evs with
        | .dir .inp :: tail =>
          match parseReceived 8 0 tail with
          | some (v, rest) =>
            match afterPrefix (masterAckEvents false) rest, afterPrefix (masterAckEvents true) rest with
            | some rest', _ => some (.R v true, rest')
            | none, some rest' => some (.R v false, rest')
            | none, none => none
          | none => none
        | _ => none

/-- The byte trace of the first `fuel` symbols and other events of a trace. -/
def byteTraceFuel : Nat → List Event → List ByteSym
  | 0, _ => []
  | fuel + 1, evs =>
    match parseSym evs with
    | some (sym, rest) => sym :: byteTraceFuel fuel rest
    | none =>
      match evs with
      | [] => []
      | _ :: rest => byteTraceFuel fuel rest

/-- The byte trace of a full trace (R14, 95_test_vectors.md section 1): events that belong to no symbol (`rd`, `wr`, those
of INIT) are passed over. -/
def byteTrace (evs : List Event) : List ByteSym := byteTraceFuel evs.length evs

/-- A pattern on the wire (R126). -/
inductive Pattern where
  /-- SDA falls while SCL is high. -/
  | start
  /-- SDA rises while SCL is high. -/
  | stop
  deriving DecidableEq, Repr

/-- The pattern an event shows, from the pin registers before it (R126): an `sda` event, executed while `SDA_DIR = OUT`,
that changes `SDA_OUT` while `SCL_OUT = 1`. -/
def patternOf (sclL sdaL : Level) (d : PadDir) : Event → Option Pattern
  | .sda v =>
    if d = .out ∧ sclL = true ∧ v ≠ sdaL then some (if v then .stop else .start) else none
  | _ => none

/-- The patterns a trace shows, in order, from the pin registers before it (R126). -/
def patterns : Level → Level → PadDir → List Event → List Pattern
  | _, _, _, [] => []
  | sclL, sdaL, d, e :: evs =>
    let later :=
      match e with
      | .sda v => patterns sclL v d evs
      | .scl v => patterns v sdaL d evs
      | .dir d' => patterns sclL sdaL d' evs
      | _ => patterns sclL sdaL d evs
    match patternOf sclL sdaL d e with
    | some p => p :: later
    | none => later

/-! ## Timing only (R262, R263): no value, status or order depends on it -/

/-- The cycles of one event: one for each pin, sample and buffer micro-operation, `HALF_PERIOD` ticks of `tick` cycles for
a `DLY` (R262). -/
def eventCycles (half : Half) (tick : Nat) : Event → Nat
  | .dly => half.toNat * tick
  | _ => 1

/-- The cycles of a trace (R262), acceptance, completion and `MSGT` reads not counted. -/
def traceCycles (half : Half) (tick : Nat) (evs : List Event) : Nat := (evs.map (eventCycles half tick)).sum

/-! ## Replaying a trace -/

/-- The effect of the micro-operation that appended an event. -/
def replayEvent : Event → State → State
  | .sda v, s => sda v s
  | .scl v, s => scl v s
  | .dir d, s => dir d s
  | .dly, s => dly s
  | .smp _, s => (smp s).2
  | .rd a _, s => (memRead a s).2
  | .wr a v, s => memWrite a v s

/-- The effects of a trace's micro-operations, in order. -/
def replay (evs : List Event) (s : State) : State := evs.foldl (fun t e => replayEvent e t) s

/-- The events a run appended between two of its states. -/
def eventsSince (s t : State) : List Event := t.trace.drop s.trace.length

end Sys2Proof.Machine
end

