-- ==== Sys2Proof/Machine/Port.lean ====
section
/-! DEFINITION. The ports: what one host action does (R15, R20, R33, R250, R251), and where a command word comes from. -/

namespace Sys2Proof.Machine

/-- A presented word, latched into `CMD` and run if it decodes (R33, R95); a reserved word is refused by name (R96, R97). -/
def runWord (w : CmdWord) (s : State) : Result :=
  let t := latchCmd w s
  match decode t.cmd with
  | .ok i => exec i t
  | .error (.reservedOpcode op) => .refused (.reservedOpcode op)
  | .error (.reservedField z) => .refused (.reservedField z)

/-- Reset after the first `n` events of a command that would otherwise have taken `s` to `t` (R251): no further event, no
response; what those events did to `BUF` and what they used up of the bus agent's answers stays; the block is at reset. -/
def abandonAfter (n : Nat) (s t : State) : State :=
  resetBlock (replay ((eventsSince s t).take n) s)

/-- A presented word whose command is abandoned by reset after its first `n` events (R251). -/
def runWordThenReset (w : CmdWord) (n : Nat) (s : State) : Result :=
  match runWord w s with
  | .next t => .next (abandonAfter n s t)
  | .fault r => .fault r
  | .refused r => .refused r

/-- What waits for `BUSY = 0`: with `BUSY = 1` (the cycle in which a command completes) the host's action has no effect and
stays at the head of the queue, and the running command is unaffected: it completes (R33, R227 b, c). -/
def whenIdle (s : State) (r : Result) : Result :=
  if s.busy then .next (engineCycle s) else r

/-- The effect of the host's next action, which stands at the head of the queue. Reset goes over everything (R227 a); a word
is accepted with `BUSY = 0` only (R33), and the host writes a memory only after it has seen the response (R76, R255). -/
def hostStep (act : HostAct) (s : State) : Result :=
  match act with
  | .reset => .next (resetBlock (nextHostAct s))
  | .command w => whenIdle s (runWord w (nextHostAct s))
  | .commandThenReset w n => whenIdle s (runWordThenReset w n (nextHostAct s))
  | .writeMsg k e => whenIdle s (.next (setMsg k e (nextHostAct s)))
  | .writeBuf a v => whenIdle s (.next (setBuf a v (nextHostAct s)))

/-- The state in which the engine is idle, any response over, and the host presents this word next. -/
def presentWord (w : CmdWord) (s : State) : State :=
  { endCompletion s with host := .command w :: s.host }

end Sys2Proof.Machine
end

