-- ==== Sys2Proof/Machine/Step.lean ====
section
/-! DEFINITION. One step: the host's next action, or a cycle of the engine where it has none (R31, R33). A command runs whole
in one step, which ends in the cycle in which it completes; the step after that ends this cycle (R32, R227 c). What a
command does on the way is in the trace (R73). -/

namespace Sys2Proof.Machine

/-- One step of the machine. -/
def step (s : State) : Host.Outcome State Fault Refusal :=
  match s.host with
  | [] => .next (engineCycle s)
  | act :: _ => hostStep act s

/-- `s` with the word presented on the idle command port as the host's next action: there is no instruction memory, the
next command is whatever word the host presents next (R32, R60). -/
def State.withFetchWord (s : State) (nbits w : Nat) : State :=
  presentWord (tableWord nbits w) s

end Sys2Proof.Machine
end

