-- ==== Sys2Proof/Machine/View.lean ====
section
/-! DEFINITION. The message level of XFER (R171 to R182): what a transfer does, leg by leg and byte by byte, told over the
events, the status, the buffer's contents and the count of samples used, with no working register and no pin. The meaning
`execXfer` does not use it; the claim that the two agree is a statement of its own. -/

namespace Sys2Proof.Machine

/-- How far a transfer has come. -/
structure TransferView where
  /-- The events so far. -/
  events : List Event
  /-- The status of the last byte sent, `OK` if none was (R181, R182). -/
  status : Status
  /-- The contents of `BUF`. -/
  mem : Half → Byte
  /-- How many of the bus agent's answers have been used. -/
  used : Nat

/-- Send one byte: its events, its status, its samples. -/
def TransferView.send (pb : Nat) (answers : Nat → Level) (v : Byte) (x : TransferView) : TransferView :=
  let k := highsOf pb fun i => answers (x.used + i)
  { x with
    events := x.events ++ sendEvents pb v k
    status := ackStatus pb k
    used := x.used + samplesTaken pb k }

/-- A write leg: every byte is read, then sent; only the last status stays (R177, R179). -/
def TransferView.write (pb : Nat) (answers : Nat → Level) : List Half → TransferView → TransferView
  | [], x => x
  | a :: rest, x =>
    TransferView.write pb answers rest
      (TransferView.send pb answers (x.mem a) { x with events := x.events ++ [.rd a (x.mem a)] })

/-- A read leg: every byte is received, acknowledged but for the last, then written; the status stays (R178). -/
def TransferView.read (answers : Nat → Level) : List Half → TransferView → TransferView
  | [], x => x
  | a :: rest, x =>
    let v := byteAt answers x.used
    TransferView.read answers rest
      { x with
        events := x.events ++ readEvents (decide (rest ≠ [])) v ++ [.wr a v]
        mem := fun b => if b = a then v else x.mem b
        used := x.used + 8 }

/-- The data of a message. -/
def TransferView.body (pb : Nat) (answers : Nat → Level) (m : MsgWord) (x : TransferView) : TransferView :=
  match msgDir m with
  | .wr => TransferView.write pb answers (bufAddrs (msgPtr m) (msgLen m).toNat) x
  | .rd => TransferView.read answers (bufAddrs (msgPtr m) (msgLen m).toNat) x

/-- The messages from index `i` on: Start for index 0 and 1 only (R173, R176), the address byte whether or not there was
one (R174), out of the loop when an address byte (R175) or a whole leg (R180) ends in `TMO`. -/
def TransferView.legs (pb : Nat) (align : AddrAlign) (answers : Nat → Level) : Nat → List MsgWord → TransferView → TransferView
  | _, [], x => x
  | i, m :: rest, x =>
    if msgNostart m then
      let y := TransferView.body pb answers m x
      if y.status = .tmo then y else TransferView.legs pb align answers (i + 1) rest y
    else
      let s := { x with events := x.events ++ (if i ≤ 1 then startEvents else []) }
      let h := TransferView.send pb answers (addrByte align (msgAddr m) (msgDir m)) s
      if h.status = .tmo then h
      else
        let y := TransferView.body pb answers m h
        if y.status = .tmo then y else TransferView.legs pb align answers (i + 1) rest y

/-- The messages an XFER names, in order (R62, R170). -/
def messagesOf (s : State) (mbase : MsgIndex) (count : Half) : List MsgWord :=
  (List.range count.toNat).map fun i => msgEntry s (msgIndex mbase (BitVec.ofNat 16 i))

/-- The message level of a whole XFER before its final Stop. -/
def transferView (s : State) (mbase : MsgIndex) (count : Half) : TransferView :=
  TransferView.legs s.params.pb s.params.addrAlign (sampleAt s) 0 (messagesOf s mbase count)
    { events := [], status := .ok, mem := bufByte s, used := 0 }

end Sys2Proof.Machine
end

