-- ==== Sys2Proof/Safety.lean ====
section
/-! DEFINITION. What counts as a good state of the block, in the terms the claims use. -/

namespace Sys2Proof.Machine

/-- The bus is idle at the block's pins: both lines high, SDA driven (R16, R51). -/
abbrev State.pinsIdle (s : State) : Prop := s.sclOut = true ∧ s.sdaOut = true ∧ s.sdaDir = .out

/-- Between two steps the engine is idle, or in the cycle in which the accepted command completes: `SEQ = IDLE` exactly with
`BUSY = 0`, else `SEQ` is in the accepted command (R30, R37); the response is up exactly with `BUSY = 1` (R32, R227 c); the
write strobe is down. The model's: whole commands in one step (assumption log 5), the strobe within one access (log 11), the
completing cycle as a state (log 13). -/
abbrev State.engineAtBoundary (s : State) : Prop :=
  s.seq = (if s.busy then .running (fieldOp s.cmd) else .idle) ∧ s.rspValid = s.busy ∧ s.bufWe = false

/-- Both memories are in canonical form. -/
abbrev State.memoriesWf (s : State) : Prop := Memory.wf bufSize s.buf ∧ Memory.wf msgtSize s.msgt

/-- What holds between two steps: the engine is idle or completing, SDA is driven (R50), the pins are not at SCL high with SDA
low (R126, R265), and the memories are in canonical form. -/
abbrev State.Inv (s : State) : Prop :=
  s.engineAtBoundary ∧ s.sdaDir = .out ∧ ¬ (s.sclOut = true ∧ s.sdaOut = false) ∧ s.memoriesWf

/-- The command of this opcode is in the cycle in which it completes: its response is up, and `BUSY` is 1, so `cmd_ready` is
0, until that cycle ends (R20, R227 c; the model's reading of R32, assumption log 13). -/
abbrev State.completing (s : State) (op : BitVec 4) : Prop := s.rspValid = true ∧ s.busy = true ∧ s.seq = .running op

/-- Two states agree in what no bus command writes: the build, `HALF_PERIOD`, the accepted word, the message table and
what the host has still to do (R43, R44, R60). -/
abbrev State.sameSettings (s t : State) : Prop :=
  t.params = s.params ∧ t.halfPeriod = s.halfPeriod ∧ t.cmd = s.cmd ∧ t.msgt = s.msgt ∧ t.host = s.host

/-- Two states agree in everything that persists from one command to the next: the build, the pins, the control register,
the strobe, the memories, the trace and the surroundings (R23; the spec's reading of "never stores additional state"). -/
abbrev State.samePersistent (s t : State) : Prop :=
  s.params = t.params ∧ s.sclOut = t.sclOut ∧ s.sdaOut = t.sdaOut ∧ s.sdaDir = t.sdaDir ∧
  s.halfPeriod = t.halfPeriod ∧ s.bufWe = t.bufWe ∧ s.msgt = t.msgt ∧ s.buf = t.buf ∧
  s.trace = t.trace ∧ s.bus = t.bus ∧ s.samples = t.samples ∧ s.host = t.host

/-- Two states agree in all the host or the bus can observe: what persists, and the response with its flags. Only the
other working registers of R22 may differ. -/
abbrev State.sameObservable (s t : State) : Prop :=
  s.samePersistent t ∧ s.status = t.status ∧ s.busy = t.busy ∧ s.seq = t.seq ∧
  s.rspValid = t.rspValid ∧ s.rdata = t.rdata

/-- What a WREG does (R195, R197, R198), as the whole state it leaves: START, the address byte and the register bytes of
`head`, each buffer byte read and sent, STOP; every byte is sent whatever the acknowledges; `STATUS` is that of the last byte
sent; the bus is idle. Of the working registers `SHIFT`, `BITCNT`, `POLLCNT`, `J` and `DLYCNT` have their last values
(assumption log 9); `BUF` and everything else are as they were. `BUSY` and `SEQ` are those of the completing cycle (log 13). -/
def WritesRegister (i : Instr) (head : List Byte) (ptr len : Half) (s : State) : Prop :=
  let pb := s.params.pb
  let counts := ackCounts pb (sampleAt s) (head.length + len.toNat)
  exec i s = .next
    { s with
      sclOut := true, sdaOut := true, sdaDir := .out
      trace := s.trace ++ startEvents ++ sendsEvents pb head (counts.take head.length) ++
        sendBufferEvents pb ((bufAddrs ptr len.toNat).map fun a => (a, bufByte s a)) (counts.drop head.length) ++
        stopEvents
      status := ackStatus pb (counts.getLast?.getD 0), rdata := 0
      busy := true, seq := .running i.opcode, rspValid := true
      bus := s.bus.drop (samplesForCounts pb counts), samples := s.samples + samplesForCounts pb counts
      shift := 0, bitcnt := 8, pollcnt := BitVec.ofNat 16 (counts.getLast?.getD 0), regJ := len, dlycnt := 0 }

/-- The buffer cells an RREG of `len` bytes fills, with the bytes the answers from number `first` on make (R63, R145). -/
def receivedCells (s : State) (first : Nat) (ptr len : Half) : List (Half × Byte) :=
  (List.range len.toNat).map fun j => (ptr + BitVec.ofNat 16 j, byteAt (sampleAt s) (first + 8 * j))

/-- What an RREG does (R196, R197, R199), as the whole state it leaves: START, the address byte and the register bytes of
`head`, repeated START, the read-address byte, each byte received (acknowledged but for the last) and written to the buffer,
STOP; no status is reported; the bus is idle. `BUF` holds the received bytes at the computed addresses and is as it was
elsewhere; the strobe is down if a byte was written (log 11). Of the working registers `SHIFT`, `BITCNT`, `POLLCNT`, `J` and
`DLYCNT` have their last values (assumption log 9); everything else is as it was. `BUSY` and `SEQ` are those of the completing cycle
(log 13). -/
def ReadsRegister (i : Instr) (head : List Byte) (dev : Byte) (ptr len : Half) (s : State) : Prop :=
  let pb := s.params.pb
  let counts := ackCounts pb (sampleAt s) (head.length + 1)
  let cells := receivedCells s (samplesForCounts pb counts) ptr len
  ∃ t, exec i s = .next t ∧
    (∀ c ∈ cells, bufByte t c.1 = c.2) ∧ (∀ a, (∀ c ∈ cells, c.1 ≠ a) → bufByte t a = bufByte s a) ∧
    t = { s with
          sclOut := true, sdaOut := true, sdaDir := .out
          trace := s.trace ++ startEvents ++ sendsEvents pb head (counts.take head.length) ++ startEvents ++
            sendsEvents pb [addrByte s.params.addrAlign dev .rd] (counts.drop head.length) ++
            readBufferEvents cells ++ stopEvents
          buf := t.buf, bufWe := s.bufWe && decide (len = 0)
          status := .ok, rdata := 0
          busy := true, seq := .running i.opcode, rspValid := true
          bus := s.bus.drop (samplesForCounts pb counts + 8 * len.toNat)
          samples := s.samples + samplesForCounts pb counts + 8 * len.toNat
          shift := (cells.getLast?.map Prod.snd).getD 0, bitcnt := 8
          pollcnt := BitVec.ofNat 16 (counts.getLast?.getD 0), regJ := len, dlycnt := 0 }

end Sys2Proof.Machine
end

