-- ==== Sys2Proof/Certificates/Slice0/Obligations.lean ====
section
/-! DEFINITION. The statements for the provers. Each one's docstring names the rules of the spec it formalises. Results are
told through the lists of events of Machine/Trace.lean, the bus agent's answers from a state on (`sampleAt s`) and the
poll budget of the build (`s.params.pb`), so each holds for every build and every sequence of answers. -/

open Sys2Proof Sys2Proof.Machine

/-! ## Encoding -/

/-- R91, R93, R94, R95: decoding the word the encoder writes gives the command back, every operand at every value. -/
def Obligations.DecodeOfEncodeIsTheCommand : Prop :=
  ∀ i : Instr, decode (encode i) = .ok i

/-- R91, R94, R98, R100: a canonical word (every ignored field zero, as the assembler writes it) is the word the encoder
writes for the command it decodes to. -/
def Obligations.EncodeOfDecodeIsTheCanonicalWord : Prop :=
  ∀ (w : CmdWord) (i : Instr), decode w = .ok i → wordCanonical w = true → encode i = w

/-- R94: a word is the command of a row exactly when `(w & mask) = match` for that row. -/
def Obligations.DecodeFollowsTheOpcodeTable : Prop :=
  ∀ w : CmdWord,
    (∀ i, decode w = .ok i → opcodeMatches[i.opcode.toNat]? = some (w &&& opcodeMask)) ∧
    (∀ (r : Nat) (m : CmdWord), opcodeMatches[r]? = some m → w &&& opcodeMask = m →
      ∃ i, decode w = .ok i ∧ i.opcode.toNat = r)

/-- R98: two words that differ only in bits their command ignores are the same command, and the encoder writes zeros in
those bits. -/
def Obligations.IgnoredFieldsHaveNoEffect : Prop :=
  (∀ w w' : CmdWord, wordWellFormed w = true →
    w &&& ~~~ ignoredBits (fieldOp w) = w' &&& ~~~ ignoredBits (fieldOp w) → decode w' = decode w) ∧
  (∀ i : Instr, encode i &&& ignoredBits i.opcode = 0#64)

/-- R96, R97, R227 f: a reserved word presented to the idle engine is refused by name, the `z` test first; and the
hardware fallback of R96 clears `STATUS` and `RDATA`, gives no response, appends no event and touches nothing else. -/
def Obligations.ReservedWordsAreRefused : Prop :=
  (∀ (s : State) (w : CmdWord) (rest : List HostAct), s.busy = false → s.host = .command w :: rest →
    (fieldZ w ≠ 0#4 → step s = .refused (.reservedField (fieldZ w))) ∧
    (fieldZ w = 0#4 → 0xB ≤ (fieldOp w).toNat → step s = .refused (.reservedOpcode (fieldOp w)))) ∧
  (∀ (s : State) (w : CmdWord),
    dropReserved w s =
      { s with cmd := w, status := .ok, rdata := 0, rspValid := false, busy := false, seq := .idle })

/-- R91 to R98: a few words written out from the spec's encoding decode to the commands they stand for (a sanity
statement). -/
def Obligations.WordsOfTheSpecDecode : Prop :=
  decode 0x0000000000000000#64 = .ok .init ∧
  decode 0x10FFFFFFFFFFFFFF#64 = .ok .start ∧
  decode 0x30A5000000000000#64 = .ok (.writeByte 0xA5) ∧
  decode 0x40FE000000000000#64 = .ok (.readByte false) ∧
  decode 0x50000000AB030001#64 = .ok (.xfer 0x03 1) ∧
  decode 0x70A0123401000001#64 = .ok (.wreg16 0xA0 0x1234 0x0100 1) ∧
  decode 0x1100000000000000#64 = .error (.reservedField 1) ∧
  decode 0xB000000000000000#64 = .error (.reservedOpcode 0xB)

/-- R61: a message table entry is its five fields side by side, `addr` in bits 41:34, `dir` in bit 33 (`RD = 1`), `nostart`
in bit 32, `len` in bits 31:16, `ptr` in bits 15:0; they fill its 42 bits, so every value is an entry. -/
def Obligations.MessageEntryIsItsFiveFields : Prop :=
  (∀ (addr : Byte) (d : MsgDir) (ns : Bool) (len ptr : Half),
    packMsg addr d ns len ptr = addr ++ (if d = .rd then 1#1 else 0#1) ++ BitVec.ofBool ns ++ len ++ ptr ∧
    msgAddr (packMsg addr d ns len ptr) = addr ∧ msgDir (packMsg addr d ns len ptr) = d ∧
    msgNostart (packMsg addr d ns len ptr) = ns ∧ msgLen (packMsg addr d ns len ptr) = len ∧
    msgPtr (packMsg addr d ns len ptr) = ptr) ∧
  (∀ m : MsgWord, packMsg (msgAddr m) (msgDir m) (msgNostart m) (msgLen m) (msgPtr m) = m)

/-- R66: the address byte under either alignment, and its low bit is the direction whatever the operand. -/
def Obligations.AddressByteOfOperandAndDirection : Prop :=
  ∀ a : Byte,
    addrByte .left a .wr = a.extractLsb' 1 7 ++ 0#1 ∧ addrByte .left a .rd = a.extractLsb' 1 7 ++ 1#1 ∧
    addrByte .right a .wr = a.extractLsb' 0 7 ++ 0#1 ∧ addrByte .right a .rd = a.extractLsb' 0 7 ++ 1#1

/-- R62, R63: message indexes wrap modulo 256, buffer addresses modulo 65536. -/
def Obligations.IndexesAndAddressesWrap : Prop :=
  (∀ (mbase : MsgIndex) (i : Half), (msgIndex mbase i).toNat = (mbase.toNat + i.toNat) % 256) ∧
  (∀ ptr j : Half, (bufAddr ptr j).toNat = (ptr.toNat + j.toNat) % 65536)

/-! ## The step -/

/-- R33, R95: a step at an idle engine whose host presents a word that decodes latches the word, takes it from the host's
queue, and is `exec` of the command. That a step is a whole command, and the host a queue, are the model's choices
(assumption log 5 and 6). -/
def Obligations.StepRunsTheDecodedCommand : Prop :=
  ∀ (s : State) (w : CmdWord) (rest : List HostAct) (i : Instr), s.busy = false → s.host = .command w :: rest →
    decode w = .ok i → step s = exec i { s with host := rest, cmd := w }

/-- R33, R95: from every state, the next step runs exactly the command whose word is presented (the queue of words is the
model's choice, assumption log 6; a completing cycle as a state of its own, its reading, log 13). -/
def Obligations.PresentedWordRunsNext : Prop :=
  ∀ (s : State) (i : Instr),
    step (s.withFetchWord 64 (encode i).toNat) =
      exec i { s with busy := false, seq := .idle, rspValid := false, cmd := encode i }

/-- R20, R33, R227 b, c: of two words presented one after the other, the second is not accepted in the cycle in which the
first one's command completes, with `cmd_ready = 0` in it; it stays presented and unlatched until the response pulse is over,
the first command runs as it would without it, and the step after that accepts it. (That a step is a whole command, and the
host a queue, are the model's choices, assumption log 5 and 6; the completing cycle is its reading of R32, log 13.) -/
def Obligations.SecondWordWaitsForTheResponse : Prop :=
  ∀ (s : State) (w w' : CmdWord) (rest : List HostAct) (i : Instr), s.busy = false →
    s.host = .command w :: .command w' :: rest → decode w = .ok i →
    ∃ t u, step s = .next t ∧ t.completing i.opcode ∧ cmdReady t = false ∧ t.cmd = w ∧
      t.host = .command w' :: rest ∧
      step { s with host := [.command w] } = .next { t with host := [] } ∧
      step t = .next u ∧ u = { t with busy := false, seq := .idle, rspValid := false } ∧ cmdReady u = true ∧
      ∀ i', decode w' = .ok i' → step u = exec i' { u with host := rest, cmd := w' }

/-- R20, R32, R227 a, c: where no reset is asserted, the cycle in which a command completes lasts one step: `BUSY` falls, `SEQ`
is idle, the response pulse is over, and everything else holds, the host's waiting actions included. (That this cycle is a step
of its own, and the host a queue, are the model's choices, assumption log 5 and 6; that `BUSY` falls at its end is its reading of R32, log 13.) -/
def Obligations.CompletingCycleLastsOneStep : Prop :=
  ∀ s : State, s.busy = true → (∀ rest, s.host ≠ .reset :: rest) →
    step s = .next { s with busy := false, seq := .idle, rspValid := false }

/-- R31: with `BUSY = 0` and no host action waiting, a step changes nothing. -/
def Obligations.IdleEngineHoldsEverything : Prop :=
  ∀ s : State, s.busy = false → s.host = [] → step s = .next s

/-- R15, R61, R63, R102: a host write, with `BUSY = 0`, sets one cell of one memory and nothing else of the block. (The queue
of actions, and that a write waits for the response, are the model's choices, assumption log 6.) -/
def Obligations.HostWriteSetsOneCell : Prop :=
  ∀ (s t : State) (rest : List HostAct), s.memoriesWf → s.busy = false → step s = .next t →
    (∀ (a : Half) (v : Byte), s.host = .writeBuf a v :: rest →
      (∀ b, bufByte t b = if b = a then v else bufByte s b) ∧ t = { s with buf := t.buf, host := rest }) ∧
    (∀ (k : MsgIndex) (e : MsgWord), s.host = .writeMsg k e :: rest →
      (∀ j, msgEntry t j = if j = k then e else msgEntry s j) ∧ t = { s with msgt := t.msgt, host := rest })

/-! ## Reset -/

/-- R53, R250: the values the spec gives for the state after reset, and memories in which nothing has been written (how the
model says "not reset", assumption log 3). -/
def Obligations.ResetValuesOfTheSpec : Prop :=
  State.reset.sdaOut = true ∧ State.reset.sclOut = true ∧ State.reset.sdaDir = .out ∧
  State.reset.halfPeriod = State.reset.params.hpReset ∧ State.reset.status = .ok ∧ State.reset.busy = false ∧
  State.reset.seq = .idle ∧ State.reset.rspValid = false ∧ State.reset.bufWe = false ∧
  State.reset.msgt = [] ∧ State.reset.buf = []

/-- R250: asserting reset puts the pins, `HALF_PERIOD`, the flags and the sequencer at their reset values and touches
neither `MSGT` nor `BUF`, from whatever state. That the trace, the build and the host's queue stay is the model's choice
(assumption log 12, 1 and 6). -/
def Obligations.ResetActionResetsTheBlock : Prop :=
  ∀ (s : State) (rest : List HostAct), s.host = .reset :: rest →
    ∃ t, step s = .next t ∧ t.sdaOut = true ∧ t.sclOut = true ∧ t.sdaDir = .out ∧
      t.halfPeriod = s.params.hpReset ∧ t.status = .ok ∧ t.busy = false ∧ t.seq = .idle ∧ t.rspValid = false ∧
      t.bufWe = false ∧ t.msgt = s.msgt ∧ t.buf = s.buf ∧ t.trace = s.trace ∧ t.params = s.params ∧ t.host = rest

/-- R251: reset during a command, after its first `n` events: just those events are emitted, the pins jump to idle, there
is no response, and `BUF` holds what the `wr` events among them wrote. That a reset falls between two events is the model's
choice (assumption log 7). -/
def Obligations.ResetDuringACommandAbandonsIt : Prop :=
  ∀ (s u : State) (w : CmdWord) (n : Nat) (rest : List HostAct) (i : Instr), s.busy = false →
    s.host = .commandThenReset w n :: rest → decode w = .ok i → exec i { s with host := rest, cmd := w } = .next u →
    ∃ t, step s = .next t ∧ t.trace = s.trace ++ (eventsSince s u).take n ∧ t.pinsIdle ∧ t.rspValid = false ∧
      t.busy = false ∧ t.seq = .idle ∧ t.status = .ok ∧ t.halfPeriod = s.params.hpReset ∧ t.msgt = s.msgt ∧
      t.host = rest ∧
      t.buf = ((eventsSince s u).take n).foldl
        (fun m e => match e with | .wr a v => Memory.write a.toNat v m | _ => m) s.buf

/-! ## Invariants and whole-machine rules -/

/-- R30, R50, R53: the state after reset meets the boundary invariant. -/
def Obligations.ResetMeetsTheBoundaryInvariant : Prop := State.reset.Inv

/-- R20, R30, R50, R126, R227, R265: every step keeps the boundary invariant: the engine idle with `SEQ = IDLE`, or, with
`BUSY = 1`, `SEQ` in the accepted command and the response up; the strobe down; SDA driven; the pins not at SCL high with SDA
low; both memories in canonical form. That `BUSY` is 1 between steps in the completing cycle only, with the response up, is the
model's: a command runs whole in one step (its choice, assumption log 5) into its completing cycle (its reading of R20, R32 and
R227 c, log 13); and so is the strobe, back down after each access (log 11). -/
def Obligations.EveryStepKeepsTheBoundaryInvariant : Prop :=
  ∀ s t : State, s.Inv → step s = .next t → t.Inv

/-- R50: if `SDA_DIR = OUT` when a command is accepted, it is `OUT` when it completes, for every command and every
sequence of answers. -/
def Obligations.DirectionIsRestored : Prop :=
  ∀ (i : Instr) (s t : State), s.sdaDir = .out → exec i s = .next t → t.sdaDir = .out

/-- R51: the commands whose pseudocode ends with a Stop complete with the bus idle, whatever the answers were. -/
def Obligations.BusIsIdleAfterEveryStop : Prop :=
  ∀ (i : Instr) (s t : State), i.opcode ∈ [0x2#4, 0x5#4, 0x6#4, 0x7#4, 0x8#4, 0x9#4] → s.sdaDir = .out →
    exec i s = .next t → t.pinsIdle

/-- R7, R44: no step changes a build parameter. -/
def Obligations.NoStepChangesABuildParameter : Prop :=
  ∀ s t : State, step s = .next t → t.params = s.params

/-- R43, R213: `HALF_PERIOD` is written by SETCFG and by no other command. -/
def Obligations.OnlySetcfgWritesHalfPeriod : Prop :=
  ∀ (i : Instr) (s t : State), exec i s = .next t →
    t.halfPeriod = (match i with | .setcfg n => n | _ => s.halfPeriod)

/-- R12, R71, R73: a command only appends to the trace, and replaying the events it appended, one micro-operation each,
gives its pins, its buffer memory and its use of the bus agent's answers. -/
def Obligations.TraceTellsPinsAndBuffer : Prop :=
  ∀ (i : Instr) (s t : State), exec i s = .next t →
    ∃ evs, t.trace = s.trace ++ evs ∧
      (replay evs s).sclOut = t.sclOut ∧ (replay evs s).sdaOut = t.sdaOut ∧ (replay evs s).sdaDir = t.sdaDir ∧
      (replay evs s).buf = t.buf ∧ (replay evs s).bus = t.bus ∧ (replay evs s).trace = t.trace

/-- R145, R161 (93_implementation_defined.md U15): no command samples SDA while it drives it: at every `smp` event of every
command, the micro-operations before it leave `SDA_DIR = IN` and `SCL_OUT = 1`. -/
def Obligations.SamplesAreTakenWithSdaReleasedAndSclHigh : Prop :=
  ∀ (i : Instr) (s t : State), exec i s = .next t → ∀ (n : Nat) (b : Level), (eventsSince s t)[n]? = some (.smp b) →
    (replay ((eventsSince s t).take n) s).sdaDir = .inp ∧ (replay ((eventsSince s t).take n) s).sclOut = true

/-- R23: no working register carries information from one command to the next: two states that agree in what persists
(the flags, the response data and every other working register may differ) give observably equal states. -/
def Obligations.NoCommandReadsWhatAnotherLeft : Prop :=
  ∀ (i : Instr) (s s' t t' : State), s.samePersistent s' → exec i s = .next t → exec i s' = .next t' →
    t.sameObservable t'

/-- R23: no step lets what the host or the bus can observe depend on a working register other than `RDATA`: two states that
agree in all of it, and may differ in `CMD`, `SHIFT`, `BITCNT`, `POLLCNT`, `I`, `J`, `M` and `DLYCNT`, step alike, and agree
again after the step, whether it runs a command, ends one, writes a memory or resets. -/
def Obligations.EveryStepKeepsObservableAgreement : Prop :=
  ∀ s s' t : State, s.sameObservable s' → step s = .next t → ∃ t', step s' = .next t' ∧ t.sameObservable t'

/-- R36, R223: only WRITE_BYTE, XFER, WREG8 and WREG16 can report `TMO`, and each of the four can. -/
def Obligations.OnlyFourCommandsReportTimeout : Prop :=
  (∀ (i : Instr) (s t : State), exec i s = .next t → t.status = .tmo →
    i.opcode ∈ [0x3#4, 0x5#4, 0x6#4, 0x7#4]) ∧
  (∀ op ∈ [0x3#4, 0x5#4, 0x6#4, 0x7#4], ∃ (i : Instr) (s t : State),
    i.opcode = op ∧ exec i s = .next t ∧ t.status = .tmo)

/-- R20, R69, R220, R227: every command completes from every state: no fault, no refusal; it ends in the cycle of its response, and
leaves the build, the accepted word, the message table and the host's queue alone. `BUSY` and `SEQ` in that cycle are the model's
reading (R20 with R227 c, assumption log 13). -/
def Obligations.EveryCommandCompletes : Prop :=
  ∀ (i : Instr) (s : State), ∃ t, exec i s = .next t ∧ t.completing i.opcode ∧ t.params = s.params ∧ t.cmd = s.cmd ∧
    t.msgt = s.msgt ∧ t.host = s.host

/-! ## System operations and signal primitives: whole results, and so whole frames -/

/-- R210, R211: INIT. `BUSY` and `SEQ` in the completing cycle are the model's reading (R20 with R227 c, assumption log 13). -/
def Obligations.InitIdlesTheBus : Prop :=
  ∀ s : State, exec .init s = .next
    { s with sclOut := true, sdaOut := true, sdaDir := .out, trace := s.trace ++ [.scl true, .sda true, .dir .out],
             status := .ok, rdata := 0, busy := true, seq := .running 0x0#4, rspValid := true }

/-- R120, R122: START, from any state: it checks nothing and leaves `SDA_DIR` alone. `BUSY` and `SEQ` in the completing
cycle are the model's reading (R20 with R227 c, assumption log 13). -/
def Obligations.StartRunsTheSixMicroOperations : Prop :=
  ∀ s : State, exec .start s = .next
    { s with sclOut := false, sdaOut := false, dlycnt := 0,
             trace := s.trace ++ [.sda true, .scl true, .dly, .sda false, .dly, .scl false],
             status := .ok, rdata := 0, busy := true, seq := .running 0x1#4, rspValid := true }

/-- R123, R124: STOP, from any state. `BUSY` and `SEQ` in the completing cycle are the model's reading (R20 with R227 c,
assumption log 13). -/
def Obligations.StopRunsTheSixMicroOperations : Prop :=
  ∀ s : State, exec .stop s = .next
    { s with sclOut := true, sdaOut := true, dlycnt := 0,
             trace := s.trace ++ [.scl false, .sda false, .dly, .scl true, .dly, .sda true],
             status := .ok, rdata := 0, busy := true, seq := .running 0x2#4, rspValid := true }

/-- R213: SETCFG writes `HALF_PERIOD` and executes no micro-operation. `BUSY` and `SEQ` in the completing cycle are the model's
reading (R20 with R227 c, assumption log 13). -/
def Obligations.SetcfgWritesHalfPeriodOnly : Prop :=
  ∀ (n : Half) (s : State), exec (.setcfg n) s = .next
    { s with halfPeriod := n, status := .ok, rdata := 0, busy := true, seq := .running 0xA#4, rspValid := true }

/-- R125: START then STOP with no bytes, from idle: the pin trace, one START and one STOP pattern, the bus idle. -/
def Obligations.StartThenStopIsAMinimalTransaction : Prop :=
  ∀ s t u : State, s.pinsIdle → exec .start s = .next t → exec .stop t = .next u →
    pinTrace (eventsSince s u) = [.sda true, .scl true, .sda false, .scl false, .scl false, .sda false, .scl true, .sda true] ∧
    patterns s.sclOut s.sdaOut s.sdaDir (eventsSince s u) = [.start, .stop] ∧ u.pinsIdle

/-- R126: what the wire sees of the commands START and STOP from each prior state of the pins, with SDA driven: START shows
one START pattern, preceded by a STOP pattern exactly from SCL high with SDA low; STOP shows one STOP pattern. -/
def Obligations.WirePatternsOfStartAndStop : Prop :=
  ∀ s t : State, s.sdaDir = .out →
    (exec .start s = .next t → patterns s.sclOut s.sdaOut s.sdaDir (eventsSince s t) =
      if s.sclOut = true ∧ s.sdaOut = false then [.stop, .start] else [.start]) ∧
    (exec .stop s = .next t → patterns s.sclOut s.sdaOut s.sdaDir (eventsSince s t) = [.stop])

/-! ## Bytes -/

/-- R141, R143, R161, R163, R164: WRITE_BYTE, whole: eight bits and one acknowledge wait; `k` is how many high answers come
before a low one within the poll budget; `OK` with SCL low, or `TMO` with the bus idle. `BITCNT`'s last value 8 is the
model's reading (assumption log 9); `samples` is the model's own counter (log 2); `BUSY` and `SEQ` in the completing
cycle are its reading (R20 with R227 c, log 13). -/
def Obligations.WriteByteSendsOneByte : Prop :=
  ∀ (b : Byte) (s : State),
    let pb := s.params.pb
    let k := highsOf pb (sampleAt s)
    exec (.writeByte b) s = .next
      { s with sclOut := decide (k = pb), sdaOut := true, sdaDir := .out, dlycnt := 0, shift := 0, bitcnt := 8,
               pollcnt := BitVec.ofNat 16 k, bus := s.bus.drop (samplesTaken pb k),
               samples := s.samples + samplesTaken pb k, trace := s.trace ++ sendEvents pb b k,
               status := ackStatus pb k, rdata := 0, busy := true, seq := .running 0x3#4, rspValid := true }

/-- R144: for every byte, the `k`-th rise of SCL in the eight data bits is immediately preceded by the event that drives bit
`7-k` on SDA, and the data bits have exactly those eight rises; the ninth pulse, which follows, is the acknowledge wait's. -/
def Obligations.EightDataBitsMostSignificantFirst : Prop :=
  ∀ (b : Byte) (s t : State), exec (.writeByte b) s = .next t →
    (∀ k < 8, (eventsSince s t)[5 * k + 2]? = some (.sda (b.getLsbD (7 - k))) ∧
      (eventsSince s t)[5 * k + 3]? = some (.scl true)) ∧
    ((eventsSince s t).take 40).count (.scl true) = 8 ∧
    ∃ rest, (eventsSince s t).drop 40 = ackHeadEvents ++ rest

/-- R162: the poll of every acknowledge wait is exact. A low answer at place `k` within the budget, all before it high, ends
the wait with `OK` after `k + 1` samples; a budget of high answers ends it with `TMO` after exactly `PB`; never more than
`PB` are taken; `POLLCNT` counts the high ones and does not wrap. -/
def Obligations.AckPollIsExact : Prop :=
  ∀ s : State,
    (∀ k < s.params.pb, sampleAt s k = false → (∀ j < k, sampleAt s j = true) →
      (ackWait s).1 = .ok ∧ (ackWait s).2.samples = s.samples + (k + 1) ∧ (ackWait s).2.pollcnt.toNat = k ∧
      (ackWait s).2.trace = s.trace ++ ackHeadEvents ++ List.replicate k (.smp true) ++
        [.smp false, .scl false, .sda true, .dir .out]) ∧
    ((∀ j < s.params.pb, sampleAt s j = true) →
      (ackWait s).1 = .tmo ∧ (ackWait s).2.samples = s.samples + s.params.pb ∧
      (ackWait s).2.pollcnt.toNat = s.params.pb ∧
      (ackWait s).2.trace = s.trace ++ ackHeadEvents ++ List.replicate s.params.pb (.smp true) ++
        [.sda true, .dir .out] ++ stopEvents) ∧
    (ackWait s).2.samples ≤ s.samples + s.params.pb

/-- R163: where SDA is low at some sample within the poll budget, the wait returns `OK`, the events after the deciding sample
are `scl 0, sda 1, dir 1` (no `dly`), and SDA is left output-high with SCL low. -/
def Obligations.AcknowledgedWaitEndsWithSclLow : Prop :=
  ∀ (s : State) (k : Nat), k < s.params.pb → sampleAt s k = false →
    (ackWait s).1 = .ok ∧ (ackWait s).2.sclOut = false ∧ (ackWait s).2.sdaOut = true ∧ (ackWait s).2.sdaDir = .out ∧
    ∃ evs, (ackWait s).2.trace = s.trace ++ evs ++ [.smp false, .scl false, .sda true, .dir .out]

/-- R164, R224, R225: a timed-out WRITE_BYTE ends, after its last high sample, with SDA high, output, and the six events of
Stop; the bus is idle and the command reports `TMO`. -/
def Obligations.TimedOutByteEndsWithStop : Prop :=
  ∀ (b : Byte) (s : State), (∀ k < s.params.pb, sampleAt s k = true) →
    ∃ t, exec (.writeByte b) s = .next t ∧ t.status = .tmo ∧ t.pinsIdle ∧ ∃ evs,
      t.trace = s.trace ++ evs ++ [.smp true, .sda true, .dir .out, .scl false, .sda false, .dly, .scl true, .dly, .sda true]

/-- R145, R146, R148: READ_BYTE, whole: eight samples make the byte, the first as bit 7; then the master's Ack (SDA low) or
Nack (SDA high); the byte goes to the response, and no status is written. `BITCNT`'s last value 8 is the model's reading
(assumption log 9); `samples` is the model's own counter (log 2); `BUSY` and `SEQ` in the completing
cycle are its reading (R20 with R227 c, log 13). -/
def Obligations.ReadByteReceivesOneByte : Prop :=
  ∀ (ack : Bool) (s : State),
    let v := byteAt (sampleAt s) 0
    exec (.readByte ack) s = .next
      { s with sclOut := false, sdaOut := !ack, sdaDir := .out, dlycnt := 0, shift := v, bitcnt := 8,
               bus := s.bus.drop 8, samples := s.samples + 8, trace := s.trace ++ readEvents ack v,
               status := .ok, rdata := v, busy := true, seq := .running 0x4#4, rspValid := true }

/-- R67, R145: the byte received has the answers as its bits, the first as bit 7. -/
def Obligations.ReceivedByteHasTheSampledBits : Prop :=
  ∀ (ack : Bool) (s t : State), exec (.readByte ack) s = .next t → ∀ k < 8, t.rdata.getLsbD (7 - k) = sampleAt s k

/-! ## Register operations -/

/-- R191, R192, R195, R197, R198: WREG8 and WREG16, as the whole state they leave. The last values of `SHIFT`, `BITCNT`,
`POLLCNT`, `J` and `DLYCNT` are the model's reading (assumption log 9); `samples` is the model's own counter (log 2);
`BUSY` and `SEQ` in the completing cycle are its reading (R20 with R227 c, log 13). -/
def Obligations.RegisterWriteSendsEveryByte : Prop :=
  ∀ (s : State) (dev : Byte) (ptr len : Half),
    (∀ reg : Byte, WritesRegister (.wreg8 dev reg ptr len) [addrByte s.params.addrAlign dev .wr, reg] ptr len s) ∧
    (∀ reg : Half, WritesRegister (.wreg16 dev reg ptr len)
      [addrByte s.params.addrAlign dev .wr, reg.extractLsb' 8 8, reg.extractLsb' 0 8] ptr len s)

/-- R193, R194, R196, R197, R199: RREG8 and RREG16, as the whole state they leave. The last values of `SHIFT`, `BITCNT`,
`POLLCNT`, `J` and `DLYCNT` are the model's reading (assumption log 9), and so are the strobe's (log 11) and those of `BUSY` and
`SEQ` in the completing cycle (R20 with R227 c, log 13); `samples` is the model's own counter (log 2). -/
def Obligations.RegisterReadFillsTheBuffer : Prop :=
  ∀ (s : State) (dev : Byte) (ptr len : Half), s.memoriesWf →
    (∀ reg : Byte, ReadsRegister (.rreg8 dev reg ptr len) [addrByte s.params.addrAlign dev .wr, reg] dev ptr len s) ∧
    (∀ reg : Half, ReadsRegister (.rreg16 dev reg ptr len)
      [addrByte s.params.addrAlign dev .wr, reg.extractLsb' 8 8, reg.extractLsb' 0 8] dev ptr len s)

/-! ## The message transfer loop -/

/-- R171 to R182: XFER does what its message level says: the same events and then one Stop, the same status, the same
buffer, the same use of the bus agent's answers; the bus is idle at the end. `DLYCNT` ends at 0 and the strobe down; the last
values of `SHIFT`, `BITCNT`, `POLLCNT`, `I`, `J` and `M` are not stated; everything else is as it was. `samples` is the
model's own counter (assumption log 2); the strobe's value (log 11) and those of `BUSY` and `SEQ` in the completing cycle (R20
with R227 c, log 13) are the model's reading. -/
def Obligations.TransferIsItsMessageLevel : Prop :=
  ∀ (s : State) (mbase : MsgIndex) (count : Half), s.memoriesWf → s.sdaDir = .out → s.bufWe = false →
    let x := transferView s mbase count
    ∃ t, exec (.xfer mbase count) s = .next t ∧ (∀ a, bufByte t a = x.mem a) ∧
      t = { s with
            sclOut := true, sdaOut := true, trace := s.trace ++ x.events ++ stopEvents, status := x.status, rdata := 0
            buf := t.buf, bus := s.bus.drop x.used, samples := s.samples + x.used, dlycnt := 0
            busy := true, seq := .running 0x5#4, rspValid := true
            shift := t.shift, bitcnt := t.bitcnt, pollcnt := t.pollcnt, regI := t.regI, regJ := t.regJ, regM := t.regM }

/-- R63, R65, R177, R178: a byte of `BUF` that lies in no read leg of the messages an XFER names reads as before. -/
def Obligations.TransferWritesOnlyItsReadLegs : Prop :=
  ∀ (s t : State) (mbase : MsgIndex) (count : Half) (a : Half), s.memoriesWf → exec (.xfer mbase count) s = .next t →
    (∀ m ∈ messagesOf s mbase count, msgDir m = .rd → a ∉ bufAddrs (msgPtr m) (msgLen m).toNat) →
    bufByte t a = bufByte s a

/-- R182: an XFER of no message executes Stop alone and reports `OK`. `I`'s last value 0 is the model's reading
(assumption log 9), and so are `BUSY` and `SEQ` in the completing cycle (R20 with R227 c, log 13). -/
def Obligations.EmptyTransferIsOneStop : Prop :=
  ∀ (s : State) (mbase : MsgIndex), exec (.xfer mbase 0) s = .next
    { s with sclOut := true, sdaOut := true, dlycnt := 0, regI := 0, trace := s.trace ++ stopEvents,
             status := .ok, rdata := 0, busy := true, seq := .running 0x5#4, rspValid := true }

/-- R175, R181: an address byte that times out leaves the message loop: START, the address byte, and the final Stop after
the one inside its acknowledge wait; no body, no later message; `TMO`. -/
def Obligations.AddressTimeoutEndsTheTransfer : Prop :=
  ∀ (s : State) (mbase : MsgIndex) (count : Half), count ≠ 0 → msgNostart (msgEntry s mbase) = false →
    (∀ k < s.params.pb, sampleAt s k = true) →
    ∃ t, exec (.xfer mbase count) s = .next t ∧ t.status = .tmo ∧ t.buf = s.buf ∧
      t.trace = s.trace ++ startEvents ++
        sendEvents s.params.pb (addrByte s.params.addrAlign (msgAddr (msgEntry s mbase)) (msgDir (msgEntry s mbase)))
          s.params.pb ++ stopEvents

/-- R177, R179: a write leg that continues (`nostart`) sends every byte, whatever the acknowledges, and reports the status of
the last one alone. -/
def Obligations.WriteLegKeepsTheLastStatus : Prop :=
  ∀ (s : State) (mbase : MsgIndex), msgNostart (msgEntry s mbase) = true → msgDir (msgEntry s mbase) = .wr →
    let m := msgEntry s mbase
    let pb := s.params.pb
    let counts := ackCounts pb (sampleAt s) (msgLen m).toNat
    ∃ t, exec (.xfer mbase 1) s = .next t ∧
      t.trace = s.trace ++
        sendBufferEvents pb ((bufAddrs (msgPtr m) (msgLen m).toNat).map fun a => (a, bufByte s a)) counts ++ stopEvents ∧
      t.status = ackStatus pb (counts.getLast?.getD 0) ∧ t.buf = s.buf

/-- R173, R174, R176: of messages that carry no data and are all acknowledged, the first two get a START and every one, START
or not, its address byte. -/
def Obligations.OnlyTheFirstTwoMessagesGetAStart : Prop :=
  ∀ (s : State) (mbase : MsgIndex) (count : Half),
    (∀ m ∈ messagesOf s mbase count, msgNostart m = false ∧ msgLen m = 0) → (∀ k < count.toNat, sampleAt s k = false) →
    ∃ t, exec (.xfer mbase count) s = .next t ∧ t.status = .ok ∧
      t.trace = s.trace ++
        ((List.range count.toNat).flatMap fun i =>
          (if i ≤ 1 then startEvents else []) ++
            sendEvents s.params.pb
              (addrByte s.params.addrAlign (msgAddr (msgEntry s (msgIndex mbase (BitVec.ofNat 16 i))))
                (msgDir (msgEntry s (msgIndex mbase (BitVec.ofNat 16 i))))) 0) ++
        stopEvents

/-- R183: an XFER that reports `TMO` ends with the timeout of the last byte sent and then the final Stop: two STOP sequences
in a row. -/
def Obligations.TimedOutTransferEndsWithTwoStops : Prop :=
  ∀ (s t : State) (mbase : MsgIndex) (count : Half), exec (.xfer mbase count) s = .next t → t.status = .tmo →
    ∃ evs, t.trace = s.trace ++ evs ++ [.smp true, .sda true, .dir .out] ++ stopEvents ++ stopEvents

/-! ## Timing only -/

/-- R262, R263: the cycles of the events each procedure of the block appends, one tick being one cycle, from every state; `k`
is how many high samples the acknowledge wait takes, so it is acknowledged on sample `k + 1`. -/
def Obligations.CyclesOfTheProcedures : Prop :=
  ∀ s : State,
    let cycles := fun t => traceCycles s.halfPeriod 1 (eventsSince s t)
    let h := s.halfPeriod.toNat
    let pb := s.params.pb
    let k := highsOf pb (sampleAt s)
    cycles (startProc s) = 4 + 2 * h ∧ cycles (stopProc s) = 4 + 2 * h ∧
    cycles (sendBit s) = 3 + 2 * h ∧ cycles (readBit s) = 3 + 2 * h ∧
    (∀ level, cycles (masterAck level s) = 5 + 2 * h) ∧
    cycles (ackWait s).2 = (if k < pb then 6 + (k + 1) + 2 * h else 9 + pb + 4 * h) ∧
    (∀ v, k < pb → cycles (sendByte v s).2 = 30 + (k + 1) + 18 * h) ∧
    (∀ ack, cycles (readByte ack s).2 = 30 + 18 * h) ∧ cycles (initProc s) = 3
end

