-- ==== Sys2Proof/Laws/State.lean ====
section
/-! SUPPORT. Each named update of the state, field by field: one lemma per field per update, true by rfl, so that no
later proof unfolds a record update. -/

namespace Sys2Proof.Machine

/-! ### setBuf -/

@[simp] theorem setBuf_params (a : Half) (v : Byte) (s : State) : (setBuf a v s).params = s.params := rfl
@[simp] theorem setBuf_sclOut (a : Half) (v : Byte) (s : State) : (setBuf a v s).sclOut = s.sclOut := rfl
@[simp] theorem setBuf_sdaOut (a : Half) (v : Byte) (s : State) : (setBuf a v s).sdaOut = s.sdaOut := rfl
@[simp] theorem setBuf_sdaDir (a : Half) (v : Byte) (s : State) : (setBuf a v s).sdaDir = s.sdaDir := rfl
@[simp] theorem setBuf_halfPeriod (a : Half) (v : Byte) (s : State) : (setBuf a v s).halfPeriod = s.halfPeriod := rfl
@[simp] theorem setBuf_status (a : Half) (v : Byte) (s : State) : (setBuf a v s).status = s.status := rfl
@[simp] theorem setBuf_busy (a : Half) (v : Byte) (s : State) : (setBuf a v s).busy = s.busy := rfl
@[simp] theorem setBuf_seq (a : Half) (v : Byte) (s : State) : (setBuf a v s).seq = s.seq := rfl
@[simp] theorem setBuf_rspValid (a : Half) (v : Byte) (s : State) : (setBuf a v s).rspValid = s.rspValid := rfl
@[simp] theorem setBuf_bufWe (a : Half) (v : Byte) (s : State) : (setBuf a v s).bufWe = s.bufWe := rfl
@[simp] theorem setBuf_cmd (a : Half) (v : Byte) (s : State) : (setBuf a v s).cmd = s.cmd := rfl
@[simp] theorem setBuf_shift (a : Half) (v : Byte) (s : State) : (setBuf a v s).shift = s.shift := rfl
@[simp] theorem setBuf_bitcnt (a : Half) (v : Byte) (s : State) : (setBuf a v s).bitcnt = s.bitcnt := rfl
@[simp] theorem setBuf_pollcnt (a : Half) (v : Byte) (s : State) : (setBuf a v s).pollcnt = s.pollcnt := rfl
@[simp] theorem setBuf_regI (a : Half) (v : Byte) (s : State) : (setBuf a v s).regI = s.regI := rfl
@[simp] theorem setBuf_regJ (a : Half) (v : Byte) (s : State) : (setBuf a v s).regJ = s.regJ := rfl
@[simp] theorem setBuf_regM (a : Half) (v : Byte) (s : State) : (setBuf a v s).regM = s.regM := rfl
@[simp] theorem setBuf_rdata (a : Half) (v : Byte) (s : State) : (setBuf a v s).rdata = s.rdata := rfl
@[simp] theorem setBuf_dlycnt (a : Half) (v : Byte) (s : State) : (setBuf a v s).dlycnt = s.dlycnt := rfl
@[simp] theorem setBuf_msgt (a : Half) (v : Byte) (s : State) : (setBuf a v s).msgt = s.msgt := rfl
@[simp] theorem setBuf_buf (a : Half) (v : Byte) (s : State) : (setBuf a v s).buf = Memory.write a.toNat v s.buf := rfl
@[simp] theorem setBuf_trace (a : Half) (v : Byte) (s : State) : (setBuf a v s).trace = s.trace := rfl
@[simp] theorem setBuf_bus (a : Half) (v : Byte) (s : State) : (setBuf a v s).bus = s.bus := rfl
@[simp] theorem setBuf_samples (a : Half) (v : Byte) (s : State) : (setBuf a v s).samples = s.samples := rfl
@[simp] theorem setBuf_host (a : Half) (v : Byte) (s : State) : (setBuf a v s).host = s.host := rfl

/-! ### setMsg -/

@[simp] theorem setMsg_params (k : MsgIndex) (e : MsgWord) (s : State) : (setMsg k e s).params = s.params := rfl
@[simp] theorem setMsg_sclOut (k : MsgIndex) (e : MsgWord) (s : State) : (setMsg k e s).sclOut = s.sclOut := rfl
@[simp] theorem setMsg_sdaOut (k : MsgIndex) (e : MsgWord) (s : State) : (setMsg k e s).sdaOut = s.sdaOut := rfl
@[simp] theorem setMsg_sdaDir (k : MsgIndex) (e : MsgWord) (s : State) : (setMsg k e s).sdaDir = s.sdaDir := rfl
@[simp] theorem setMsg_halfPeriod (k : MsgIndex) (e : MsgWord) (s : State) : (setMsg k e s).halfPeriod = s.halfPeriod := rfl
@[simp] theorem setMsg_status (k : MsgIndex) (e : MsgWord) (s : State) : (setMsg k e s).status = s.status := rfl
@[simp] theorem setMsg_busy (k : MsgIndex) (e : MsgWord) (s : State) : (setMsg k e s).busy = s.busy := rfl
@[simp] theorem setMsg_seq (k : MsgIndex) (e : MsgWord) (s : State) : (setMsg k e s).seq = s.seq := rfl
@[simp] theorem setMsg_rspValid (k : MsgIndex) (e : MsgWord) (s : State) : (setMsg k e s).rspValid = s.rspValid := rfl
@[simp] theorem setMsg_bufWe (k : MsgIndex) (e : MsgWord) (s : State) : (setMsg k e s).bufWe = s.bufWe := rfl
@[simp] theorem setMsg_cmd (k : MsgIndex) (e : MsgWord) (s : State) : (setMsg k e s).cmd = s.cmd := rfl
@[simp] theorem setMsg_shift (k : MsgIndex) (e : MsgWord) (s : State) : (setMsg k e s).shift = s.shift := rfl
@[simp] theorem setMsg_bitcnt (k : MsgIndex) (e : MsgWord) (s : State) : (setMsg k e s).bitcnt = s.bitcnt := rfl
@[simp] theorem setMsg_pollcnt (k : MsgIndex) (e : MsgWord) (s : State) : (setMsg k e s).pollcnt = s.pollcnt := rfl
@[simp] theorem setMsg_regI (k : MsgIndex) (e : MsgWord) (s : State) : (setMsg k e s).regI = s.regI := rfl
@[simp] theorem setMsg_regJ (k : MsgIndex) (e : MsgWord) (s : State) : (setMsg k e s).regJ = s.regJ := rfl
@[simp] theorem setMsg_regM (k : MsgIndex) (e : MsgWord) (s : State) : (setMsg k e s).regM = s.regM := rfl
@[simp] theorem setMsg_rdata (k : MsgIndex) (e : MsgWord) (s : State) : (setMsg k e s).rdata = s.rdata := rfl
@[simp] theorem setMsg_dlycnt (k : MsgIndex) (e : MsgWord) (s : State) : (setMsg k e s).dlycnt = s.dlycnt := rfl
@[simp] theorem setMsg_msgt (k : MsgIndex) (e : MsgWord) (s : State) : (setMsg k e s).msgt = Memory.write k.toNat e s.msgt := rfl
@[simp] theorem setMsg_buf (k : MsgIndex) (e : MsgWord) (s : State) : (setMsg k e s).buf = s.buf := rfl
@[simp] theorem setMsg_trace (k : MsgIndex) (e : MsgWord) (s : State) : (setMsg k e s).trace = s.trace := rfl
@[simp] theorem setMsg_bus (k : MsgIndex) (e : MsgWord) (s : State) : (setMsg k e s).bus = s.bus := rfl
@[simp] theorem setMsg_samples (k : MsgIndex) (e : MsgWord) (s : State) : (setMsg k e s).samples = s.samples := rfl
@[simp] theorem setMsg_host (k : MsgIndex) (e : MsgWord) (s : State) : (setMsg k e s).host = s.host := rfl

/-! ### sda -/

@[simp] theorem sda_params (v : Level) (s : State) : (sda v s).params = s.params := rfl
@[simp] theorem sda_sclOut (v : Level) (s : State) : (sda v s).sclOut = s.sclOut := rfl
@[simp] theorem sda_sdaOut (v : Level) (s : State) : (sda v s).sdaOut = v := rfl
@[simp] theorem sda_sdaDir (v : Level) (s : State) : (sda v s).sdaDir = s.sdaDir := rfl
@[simp] theorem sda_halfPeriod (v : Level) (s : State) : (sda v s).halfPeriod = s.halfPeriod := rfl
@[simp] theorem sda_status (v : Level) (s : State) : (sda v s).status = s.status := rfl
@[simp] theorem sda_busy (v : Level) (s : State) : (sda v s).busy = s.busy := rfl
@[simp] theorem sda_seq (v : Level) (s : State) : (sda v s).seq = s.seq := rfl
@[simp] theorem sda_rspValid (v : Level) (s : State) : (sda v s).rspValid = s.rspValid := rfl
@[simp] theorem sda_bufWe (v : Level) (s : State) : (sda v s).bufWe = s.bufWe := rfl
@[simp] theorem sda_cmd (v : Level) (s : State) : (sda v s).cmd = s.cmd := rfl
@[simp] theorem sda_shift (v : Level) (s : State) : (sda v s).shift = s.shift := rfl
@[simp] theorem sda_bitcnt (v : Level) (s : State) : (sda v s).bitcnt = s.bitcnt := rfl
@[simp] theorem sda_pollcnt (v : Level) (s : State) : (sda v s).pollcnt = s.pollcnt := rfl
@[simp] theorem sda_regI (v : Level) (s : State) : (sda v s).regI = s.regI := rfl
@[simp] theorem sda_regJ (v : Level) (s : State) : (sda v s).regJ = s.regJ := rfl
@[simp] theorem sda_regM (v : Level) (s : State) : (sda v s).regM = s.regM := rfl
@[simp] theorem sda_rdata (v : Level) (s : State) : (sda v s).rdata = s.rdata := rfl
@[simp] theorem sda_dlycnt (v : Level) (s : State) : (sda v s).dlycnt = s.dlycnt := rfl
@[simp] theorem sda_msgt (v : Level) (s : State) : (sda v s).msgt = s.msgt := rfl
@[simp] theorem sda_buf (v : Level) (s : State) : (sda v s).buf = s.buf := rfl
@[simp] theorem sda_trace (v : Level) (s : State) : (sda v s).trace = s.trace ++ [.sda v] := rfl
@[simp] theorem sda_bus (v : Level) (s : State) : (sda v s).bus = s.bus := rfl
@[simp] theorem sda_samples (v : Level) (s : State) : (sda v s).samples = s.samples := rfl
@[simp] theorem sda_host (v : Level) (s : State) : (sda v s).host = s.host := rfl

/-! ### scl -/

@[simp] theorem scl_params (v : Level) (s : State) : (scl v s).params = s.params := rfl
@[simp] theorem scl_sclOut (v : Level) (s : State) : (scl v s).sclOut = v := rfl
@[simp] theorem scl_sdaOut (v : Level) (s : State) : (scl v s).sdaOut = s.sdaOut := rfl
@[simp] theorem scl_sdaDir (v : Level) (s : State) : (scl v s).sdaDir = s.sdaDir := rfl
@[simp] theorem scl_halfPeriod (v : Level) (s : State) : (scl v s).halfPeriod = s.halfPeriod := rfl
@[simp] theorem scl_status (v : Level) (s : State) : (scl v s).status = s.status := rfl
@[simp] theorem scl_busy (v : Level) (s : State) : (scl v s).busy = s.busy := rfl
@[simp] theorem scl_seq (v : Level) (s : State) : (scl v s).seq = s.seq := rfl
@[simp] theorem scl_rspValid (v : Level) (s : State) : (scl v s).rspValid = s.rspValid := rfl
@[simp] theorem scl_bufWe (v : Level) (s : State) : (scl v s).bufWe = s.bufWe := rfl
@[simp] theorem scl_cmd (v : Level) (s : State) : (scl v s).cmd = s.cmd := rfl
@[simp] theorem scl_shift (v : Level) (s : State) : (scl v s).shift = s.shift := rfl
@[simp] theorem scl_bitcnt (v : Level) (s : State) : (scl v s).bitcnt = s.bitcnt := rfl
@[simp] theorem scl_pollcnt (v : Level) (s : State) : (scl v s).pollcnt = s.pollcnt := rfl
@[simp] theorem scl_regI (v : Level) (s : State) : (scl v s).regI = s.regI := rfl
@[simp] theorem scl_regJ (v : Level) (s : State) : (scl v s).regJ = s.regJ := rfl
@[simp] theorem scl_regM (v : Level) (s : State) : (scl v s).regM = s.regM := rfl
@[simp] theorem scl_rdata (v : Level) (s : State) : (scl v s).rdata = s.rdata := rfl
@[simp] theorem scl_dlycnt (v : Level) (s : State) : (scl v s).dlycnt = s.dlycnt := rfl
@[simp] theorem scl_msgt (v : Level) (s : State) : (scl v s).msgt = s.msgt := rfl
@[simp] theorem scl_buf (v : Level) (s : State) : (scl v s).buf = s.buf := rfl
@[simp] theorem scl_trace (v : Level) (s : State) : (scl v s).trace = s.trace ++ [.scl v] := rfl
@[simp] theorem scl_bus (v : Level) (s : State) : (scl v s).bus = s.bus := rfl
@[simp] theorem scl_samples (v : Level) (s : State) : (scl v s).samples = s.samples := rfl
@[simp] theorem scl_host (v : Level) (s : State) : (scl v s).host = s.host := rfl

/-! ### dir -/

@[simp] theorem dir_params (d : PadDir) (s : State) : (dir d s).params = s.params := rfl
@[simp] theorem dir_sclOut (d : PadDir) (s : State) : (dir d s).sclOut = s.sclOut := rfl
@[simp] theorem dir_sdaOut (d : PadDir) (s : State) : (dir d s).sdaOut = s.sdaOut := rfl
@[simp] theorem dir_sdaDir (d : PadDir) (s : State) : (dir d s).sdaDir = d := rfl
@[simp] theorem dir_halfPeriod (d : PadDir) (s : State) : (dir d s).halfPeriod = s.halfPeriod := rfl
@[simp] theorem dir_status (d : PadDir) (s : State) : (dir d s).status = s.status := rfl
@[simp] theorem dir_busy (d : PadDir) (s : State) : (dir d s).busy = s.busy := rfl
@[simp] theorem dir_seq (d : PadDir) (s : State) : (dir d s).seq = s.seq := rfl
@[simp] theorem dir_rspValid (d : PadDir) (s : State) : (dir d s).rspValid = s.rspValid := rfl
@[simp] theorem dir_bufWe (d : PadDir) (s : State) : (dir d s).bufWe = s.bufWe := rfl
@[simp] theorem dir_cmd (d : PadDir) (s : State) : (dir d s).cmd = s.cmd := rfl
@[simp] theorem dir_shift (d : PadDir) (s : State) : (dir d s).shift = s.shift := rfl
@[simp] theorem dir_bitcnt (d : PadDir) (s : State) : (dir d s).bitcnt = s.bitcnt := rfl
@[simp] theorem dir_pollcnt (d : PadDir) (s : State) : (dir d s).pollcnt = s.pollcnt := rfl
@[simp] theorem dir_regI (d : PadDir) (s : State) : (dir d s).regI = s.regI := rfl
@[simp] theorem dir_regJ (d : PadDir) (s : State) : (dir d s).regJ = s.regJ := rfl
@[simp] theorem dir_regM (d : PadDir) (s : State) : (dir d s).regM = s.regM := rfl
@[simp] theorem dir_rdata (d : PadDir) (s : State) : (dir d s).rdata = s.rdata := rfl
@[simp] theorem dir_dlycnt (d : PadDir) (s : State) : (dir d s).dlycnt = s.dlycnt := rfl
@[simp] theorem dir_msgt (d : PadDir) (s : State) : (dir d s).msgt = s.msgt := rfl
@[simp] theorem dir_buf (d : PadDir) (s : State) : (dir d s).buf = s.buf := rfl
@[simp] theorem dir_trace (d : PadDir) (s : State) : (dir d s).trace = s.trace ++ [.dir d] := rfl
@[simp] theorem dir_bus (d : PadDir) (s : State) : (dir d s).bus = s.bus := rfl
@[simp] theorem dir_samples (d : PadDir) (s : State) : (dir d s).samples = s.samples := rfl
@[simp] theorem dir_host (d : PadDir) (s : State) : (dir d s).host = s.host := rfl

/-! ### dly -/

@[simp] theorem dly_params (s : State) : (dly s).params = s.params := rfl
@[simp] theorem dly_sclOut (s : State) : (dly s).sclOut = s.sclOut := rfl
@[simp] theorem dly_sdaOut (s : State) : (dly s).sdaOut = s.sdaOut := rfl
@[simp] theorem dly_sdaDir (s : State) : (dly s).sdaDir = s.sdaDir := rfl
@[simp] theorem dly_halfPeriod (s : State) : (dly s).halfPeriod = s.halfPeriod := rfl
@[simp] theorem dly_status (s : State) : (dly s).status = s.status := rfl
@[simp] theorem dly_busy (s : State) : (dly s).busy = s.busy := rfl
@[simp] theorem dly_seq (s : State) : (dly s).seq = s.seq := rfl
@[simp] theorem dly_rspValid (s : State) : (dly s).rspValid = s.rspValid := rfl
@[simp] theorem dly_bufWe (s : State) : (dly s).bufWe = s.bufWe := rfl
@[simp] theorem dly_cmd (s : State) : (dly s).cmd = s.cmd := rfl
@[simp] theorem dly_shift (s : State) : (dly s).shift = s.shift := rfl
@[simp] theorem dly_bitcnt (s : State) : (dly s).bitcnt = s.bitcnt := rfl
@[simp] theorem dly_pollcnt (s : State) : (dly s).pollcnt = s.pollcnt := rfl
@[simp] theorem dly_regI (s : State) : (dly s).regI = s.regI := rfl
@[simp] theorem dly_regJ (s : State) : (dly s).regJ = s.regJ := rfl
@[simp] theorem dly_regM (s : State) : (dly s).regM = s.regM := rfl
@[simp] theorem dly_rdata (s : State) : (dly s).rdata = s.rdata := rfl
@[simp] theorem dly_dlycnt (s : State) : (dly s).dlycnt = 0 := rfl
@[simp] theorem dly_msgt (s : State) : (dly s).msgt = s.msgt := rfl
@[simp] theorem dly_buf (s : State) : (dly s).buf = s.buf := rfl
@[simp] theorem dly_trace (s : State) : (dly s).trace = s.trace ++ [.dly] := rfl
@[simp] theorem dly_bus (s : State) : (dly s).bus = s.bus := rfl
@[simp] theorem dly_samples (s : State) : (dly s).samples = s.samples := rfl
@[simp] theorem dly_host (s : State) : (dly s).host = s.host := rfl

/-! ### smp -/

@[simp] theorem smp_params (s : State) : (smp s).2.params = s.params := rfl
@[simp] theorem smp_sclOut (s : State) : (smp s).2.sclOut = s.sclOut := rfl
@[simp] theorem smp_sdaOut (s : State) : (smp s).2.sdaOut = s.sdaOut := rfl
@[simp] theorem smp_sdaDir (s : State) : (smp s).2.sdaDir = s.sdaDir := rfl
@[simp] theorem smp_halfPeriod (s : State) : (smp s).2.halfPeriod = s.halfPeriod := rfl
@[simp] theorem smp_status (s : State) : (smp s).2.status = s.status := rfl
@[simp] theorem smp_busy (s : State) : (smp s).2.busy = s.busy := rfl
@[simp] theorem smp_seq (s : State) : (smp s).2.seq = s.seq := rfl
@[simp] theorem smp_rspValid (s : State) : (smp s).2.rspValid = s.rspValid := rfl
@[simp] theorem smp_bufWe (s : State) : (smp s).2.bufWe = s.bufWe := rfl
@[simp] theorem smp_cmd (s : State) : (smp s).2.cmd = s.cmd := rfl
@[simp] theorem smp_shift (s : State) : (smp s).2.shift = s.shift := rfl
@[simp] theorem smp_bitcnt (s : State) : (smp s).2.bitcnt = s.bitcnt := rfl
@[simp] theorem smp_pollcnt (s : State) : (smp s).2.pollcnt = s.pollcnt := rfl
@[simp] theorem smp_regI (s : State) : (smp s).2.regI = s.regI := rfl
@[simp] theorem smp_regJ (s : State) : (smp s).2.regJ = s.regJ := rfl
@[simp] theorem smp_regM (s : State) : (smp s).2.regM = s.regM := rfl
@[simp] theorem smp_rdata (s : State) : (smp s).2.rdata = s.rdata := rfl
@[simp] theorem smp_dlycnt (s : State) : (smp s).2.dlycnt = s.dlycnt := rfl
@[simp] theorem smp_msgt (s : State) : (smp s).2.msgt = s.msgt := rfl
@[simp] theorem smp_buf (s : State) : (smp s).2.buf = s.buf := rfl
@[simp] theorem smp_trace (s : State) : (smp s).2.trace = s.trace ++ [.smp (nextSample s)] := rfl
@[simp] theorem smp_bus (s : State) : (smp s).2.bus = s.bus.tail := rfl
@[simp] theorem smp_samples (s : State) : (smp s).2.samples = s.samples + 1 := rfl
@[simp] theorem smp_host (s : State) : (smp s).2.host = s.host := rfl

/-! ### memRead -/

@[simp] theorem memRead_params (a : Half) (s : State) : (memRead a s).2.params = s.params := rfl
@[simp] theorem memRead_sclOut (a : Half) (s : State) : (memRead a s).2.sclOut = s.sclOut := rfl
@[simp] theorem memRead_sdaOut (a : Half) (s : State) : (memRead a s).2.sdaOut = s.sdaOut := rfl
@[simp] theorem memRead_sdaDir (a : Half) (s : State) : (memRead a s).2.sdaDir = s.sdaDir := rfl
@[simp] theorem memRead_halfPeriod (a : Half) (s : State) : (memRead a s).2.halfPeriod = s.halfPeriod := rfl
@[simp] theorem memRead_status (a : Half) (s : State) : (memRead a s).2.status = s.status := rfl
@[simp] theorem memRead_busy (a : Half) (s : State) : (memRead a s).2.busy = s.busy := rfl
@[simp] theorem memRead_seq (a : Half) (s : State) : (memRead a s).2.seq = s.seq := rfl
@[simp] theorem memRead_rspValid (a : Half) (s : State) : (memRead a s).2.rspValid = s.rspValid := rfl
@[simp] theorem memRead_bufWe (a : Half) (s : State) : (memRead a s).2.bufWe = s.bufWe := rfl
@[simp] theorem memRead_cmd (a : Half) (s : State) : (memRead a s).2.cmd = s.cmd := rfl
@[simp] theorem memRead_shift (a : Half) (s : State) : (memRead a s).2.shift = s.shift := rfl
@[simp] theorem memRead_bitcnt (a : Half) (s : State) : (memRead a s).2.bitcnt = s.bitcnt := rfl
@[simp] theorem memRead_pollcnt (a : Half) (s : State) : (memRead a s).2.pollcnt = s.pollcnt := rfl
@[simp] theorem memRead_regI (a : Half) (s : State) : (memRead a s).2.regI = s.regI := rfl
@[simp] theorem memRead_regJ (a : Half) (s : State) : (memRead a s).2.regJ = s.regJ := rfl
@[simp] theorem memRead_regM (a : Half) (s : State) : (memRead a s).2.regM = s.regM := rfl
@[simp] theorem memRead_rdata (a : Half) (s : State) : (memRead a s).2.rdata = s.rdata := rfl
@[simp] theorem memRead_dlycnt (a : Half) (s : State) : (memRead a s).2.dlycnt = s.dlycnt := rfl
@[simp] theorem memRead_msgt (a : Half) (s : State) : (memRead a s).2.msgt = s.msgt := rfl
@[simp] theorem memRead_buf (a : Half) (s : State) : (memRead a s).2.buf = s.buf := rfl
@[simp] theorem memRead_trace (a : Half) (s : State) : (memRead a s).2.trace = s.trace ++ [.rd a (bufByte s a)] := rfl
@[simp] theorem memRead_bus (a : Half) (s : State) : (memRead a s).2.bus = s.bus := rfl
@[simp] theorem memRead_samples (a : Half) (s : State) : (memRead a s).2.samples = s.samples := rfl
@[simp] theorem memRead_host (a : Half) (s : State) : (memRead a s).2.host = s.host := rfl

/-! ### memWrite -/

@[simp] theorem memWrite_params (a : Half) (v : Byte) (s : State) : (memWrite a v s).params = s.params := rfl
@[simp] theorem memWrite_sclOut (a : Half) (v : Byte) (s : State) : (memWrite a v s).sclOut = s.sclOut := rfl
@[simp] theorem memWrite_sdaOut (a : Half) (v : Byte) (s : State) : (memWrite a v s).sdaOut = s.sdaOut := rfl
@[simp] theorem memWrite_sdaDir (a : Half) (v : Byte) (s : State) : (memWrite a v s).sdaDir = s.sdaDir := rfl
@[simp] theorem memWrite_halfPeriod (a : Half) (v : Byte) (s : State) : (memWrite a v s).halfPeriod = s.halfPeriod := rfl
@[simp] theorem memWrite_status (a : Half) (v : Byte) (s : State) : (memWrite a v s).status = s.status := rfl
@[simp] theorem memWrite_busy (a : Half) (v : Byte) (s : State) : (memWrite a v s).busy = s.busy := rfl
@[simp] theorem memWrite_seq (a : Half) (v : Byte) (s : State) : (memWrite a v s).seq = s.seq := rfl
@[simp] theorem memWrite_rspValid (a : Half) (v : Byte) (s : State) : (memWrite a v s).rspValid = s.rspValid := rfl
@[simp] theorem memWrite_bufWe (a : Half) (v : Byte) (s : State) : (memWrite a v s).bufWe = false := rfl
@[simp] theorem memWrite_cmd (a : Half) (v : Byte) (s : State) : (memWrite a v s).cmd = s.cmd := rfl
@[simp] theorem memWrite_shift (a : Half) (v : Byte) (s : State) : (memWrite a v s).shift = s.shift := rfl
@[simp] theorem memWrite_bitcnt (a : Half) (v : Byte) (s : State) : (memWrite a v s).bitcnt = s.bitcnt := rfl
@[simp] theorem memWrite_pollcnt (a : Half) (v : Byte) (s : State) : (memWrite a v s).pollcnt = s.pollcnt := rfl
@[simp] theorem memWrite_regI (a : Half) (v : Byte) (s : State) : (memWrite a v s).regI = s.regI := rfl
@[simp] theorem memWrite_regJ (a : Half) (v : Byte) (s : State) : (memWrite a v s).regJ = s.regJ := rfl
@[simp] theorem memWrite_regM (a : Half) (v : Byte) (s : State) : (memWrite a v s).regM = s.regM := rfl
@[simp] theorem memWrite_rdata (a : Half) (v : Byte) (s : State) : (memWrite a v s).rdata = s.rdata := rfl
@[simp] theorem memWrite_dlycnt (a : Half) (v : Byte) (s : State) : (memWrite a v s).dlycnt = s.dlycnt := rfl
@[simp] theorem memWrite_msgt (a : Half) (v : Byte) (s : State) : (memWrite a v s).msgt = s.msgt := rfl
@[simp] theorem memWrite_buf (a : Half) (v : Byte) (s : State) : (memWrite a v s).buf = Memory.write a.toNat v s.buf := rfl
@[simp] theorem memWrite_trace (a : Half) (v : Byte) (s : State) : (memWrite a v s).trace = s.trace ++ [.wr a v] := rfl
@[simp] theorem memWrite_bus (a : Half) (v : Byte) (s : State) : (memWrite a v s).bus = s.bus := rfl
@[simp] theorem memWrite_samples (a : Half) (v : Byte) (s : State) : (memWrite a v s).samples = s.samples := rfl
@[simp] theorem memWrite_host (a : Half) (v : Byte) (s : State) : (memWrite a v s).host = s.host := rfl

/-! ### setShift -/

@[simp] theorem setShift_params (v : Byte) (s : State) : (setShift v s).params = s.params := rfl
@[simp] theorem setShift_sclOut (v : Byte) (s : State) : (setShift v s).sclOut = s.sclOut := rfl
@[simp] theorem setShift_sdaOut (v : Byte) (s : State) : (setShift v s).sdaOut = s.sdaOut := rfl
@[simp] theorem setShift_sdaDir (v : Byte) (s : State) : (setShift v s).sdaDir = s.sdaDir := rfl
@[simp] theorem setShift_halfPeriod (v : Byte) (s : State) : (setShift v s).halfPeriod = s.halfPeriod := rfl
@[simp] theorem setShift_status (v : Byte) (s : State) : (setShift v s).status = s.status := rfl
@[simp] theorem setShift_busy (v : Byte) (s : State) : (setShift v s).busy = s.busy := rfl
@[simp] theorem setShift_seq (v : Byte) (s : State) : (setShift v s).seq = s.seq := rfl
@[simp] theorem setShift_rspValid (v : Byte) (s : State) : (setShift v s).rspValid = s.rspValid := rfl
@[simp] theorem setShift_bufWe (v : Byte) (s : State) : (setShift v s).bufWe = s.bufWe := rfl
@[simp] theorem setShift_cmd (v : Byte) (s : State) : (setShift v s).cmd = s.cmd := rfl
@[simp] theorem setShift_shift (v : Byte) (s : State) : (setShift v s).shift = v := rfl
@[simp] theorem setShift_bitcnt (v : Byte) (s : State) : (setShift v s).bitcnt = s.bitcnt := rfl
@[simp] theorem setShift_pollcnt (v : Byte) (s : State) : (setShift v s).pollcnt = s.pollcnt := rfl
@[simp] theorem setShift_regI (v : Byte) (s : State) : (setShift v s).regI = s.regI := rfl
@[simp] theorem setShift_regJ (v : Byte) (s : State) : (setShift v s).regJ = s.regJ := rfl
@[simp] theorem setShift_regM (v : Byte) (s : State) : (setShift v s).regM = s.regM := rfl
@[simp] theorem setShift_rdata (v : Byte) (s : State) : (setShift v s).rdata = s.rdata := rfl
@[simp] theorem setShift_dlycnt (v : Byte) (s : State) : (setShift v s).dlycnt = s.dlycnt := rfl
@[simp] theorem setShift_msgt (v : Byte) (s : State) : (setShift v s).msgt = s.msgt := rfl
@[simp] theorem setShift_buf (v : Byte) (s : State) : (setShift v s).buf = s.buf := rfl
@[simp] theorem setShift_trace (v : Byte) (s : State) : (setShift v s).trace = s.trace := rfl
@[simp] theorem setShift_bus (v : Byte) (s : State) : (setShift v s).bus = s.bus := rfl
@[simp] theorem setShift_samples (v : Byte) (s : State) : (setShift v s).samples = s.samples := rfl
@[simp] theorem setShift_host (v : Byte) (s : State) : (setShift v s).host = s.host := rfl

/-! ### shiftOut -/

@[simp] theorem shiftOut_params (s : State) : (shiftOut s).params = s.params := rfl
@[simp] theorem shiftOut_sclOut (s : State) : (shiftOut s).sclOut = s.sclOut := rfl
@[simp] theorem shiftOut_sdaOut (s : State) : (shiftOut s).sdaOut = s.sdaOut := rfl
@[simp] theorem shiftOut_sdaDir (s : State) : (shiftOut s).sdaDir = s.sdaDir := rfl
@[simp] theorem shiftOut_halfPeriod (s : State) : (shiftOut s).halfPeriod = s.halfPeriod := rfl
@[simp] theorem shiftOut_status (s : State) : (shiftOut s).status = s.status := rfl
@[simp] theorem shiftOut_busy (s : State) : (shiftOut s).busy = s.busy := rfl
@[simp] theorem shiftOut_seq (s : State) : (shiftOut s).seq = s.seq := rfl
@[simp] theorem shiftOut_rspValid (s : State) : (shiftOut s).rspValid = s.rspValid := rfl
@[simp] theorem shiftOut_bufWe (s : State) : (shiftOut s).bufWe = s.bufWe := rfl
@[simp] theorem shiftOut_cmd (s : State) : (shiftOut s).cmd = s.cmd := rfl
@[simp] theorem shiftOut_shift (s : State) : (shiftOut s).shift = s.shift <<< 1 := rfl
@[simp] theorem shiftOut_bitcnt (s : State) : (shiftOut s).bitcnt = s.bitcnt := rfl
@[simp] theorem shiftOut_pollcnt (s : State) : (shiftOut s).pollcnt = s.pollcnt := rfl
@[simp] theorem shiftOut_regI (s : State) : (shiftOut s).regI = s.regI := rfl
@[simp] theorem shiftOut_regJ (s : State) : (shiftOut s).regJ = s.regJ := rfl
@[simp] theorem shiftOut_regM (s : State) : (shiftOut s).regM = s.regM := rfl
@[simp] theorem shiftOut_rdata (s : State) : (shiftOut s).rdata = s.rdata := rfl
@[simp] theorem shiftOut_dlycnt (s : State) : (shiftOut s).dlycnt = s.dlycnt := rfl
@[simp] theorem shiftOut_msgt (s : State) : (shiftOut s).msgt = s.msgt := rfl
@[simp] theorem shiftOut_buf (s : State) : (shiftOut s).buf = s.buf := rfl
@[simp] theorem shiftOut_trace (s : State) : (shiftOut s).trace = s.trace := rfl
@[simp] theorem shiftOut_bus (s : State) : (shiftOut s).bus = s.bus := rfl
@[simp] theorem shiftOut_samples (s : State) : (shiftOut s).samples = s.samples := rfl
@[simp] theorem shiftOut_host (s : State) : (shiftOut s).host = s.host := rfl

/-! ### shiftIn -/

@[simp] theorem shiftIn_params (b : Level) (s : State) : (shiftIn b s).params = s.params := rfl
@[simp] theorem shiftIn_sclOut (b : Level) (s : State) : (shiftIn b s).sclOut = s.sclOut := rfl
@[simp] theorem shiftIn_sdaOut (b : Level) (s : State) : (shiftIn b s).sdaOut = s.sdaOut := rfl
@[simp] theorem shiftIn_sdaDir (b : Level) (s : State) : (shiftIn b s).sdaDir = s.sdaDir := rfl
@[simp] theorem shiftIn_halfPeriod (b : Level) (s : State) : (shiftIn b s).halfPeriod = s.halfPeriod := rfl
@[simp] theorem shiftIn_status (b : Level) (s : State) : (shiftIn b s).status = s.status := rfl
@[simp] theorem shiftIn_busy (b : Level) (s : State) : (shiftIn b s).busy = s.busy := rfl
@[simp] theorem shiftIn_seq (b : Level) (s : State) : (shiftIn b s).seq = s.seq := rfl
@[simp] theorem shiftIn_rspValid (b : Level) (s : State) : (shiftIn b s).rspValid = s.rspValid := rfl
@[simp] theorem shiftIn_bufWe (b : Level) (s : State) : (shiftIn b s).bufWe = s.bufWe := rfl
@[simp] theorem shiftIn_cmd (b : Level) (s : State) : (shiftIn b s).cmd = s.cmd := rfl
@[simp] theorem shiftIn_shift (b : Level) (s : State) : (shiftIn b s).shift = s.shift.extractLsb' 0 7 ++ BitVec.ofBool b := rfl
@[simp] theorem shiftIn_bitcnt (b : Level) (s : State) : (shiftIn b s).bitcnt = s.bitcnt := rfl
@[simp] theorem shiftIn_pollcnt (b : Level) (s : State) : (shiftIn b s).pollcnt = s.pollcnt := rfl
@[simp] theorem shiftIn_regI (b : Level) (s : State) : (shiftIn b s).regI = s.regI := rfl
@[simp] theorem shiftIn_regJ (b : Level) (s : State) : (shiftIn b s).regJ = s.regJ := rfl
@[simp] theorem shiftIn_regM (b : Level) (s : State) : (shiftIn b s).regM = s.regM := rfl
@[simp] theorem shiftIn_rdata (b : Level) (s : State) : (shiftIn b s).rdata = s.rdata := rfl
@[simp] theorem shiftIn_dlycnt (b : Level) (s : State) : (shiftIn b s).dlycnt = s.dlycnt := rfl
@[simp] theorem shiftIn_msgt (b : Level) (s : State) : (shiftIn b s).msgt = s.msgt := rfl
@[simp] theorem shiftIn_buf (b : Level) (s : State) : (shiftIn b s).buf = s.buf := rfl
@[simp] theorem shiftIn_trace (b : Level) (s : State) : (shiftIn b s).trace = s.trace := rfl
@[simp] theorem shiftIn_bus (b : Level) (s : State) : (shiftIn b s).bus = s.bus := rfl
@[simp] theorem shiftIn_samples (b : Level) (s : State) : (shiftIn b s).samples = s.samples := rfl
@[simp] theorem shiftIn_host (b : Level) (s : State) : (shiftIn b s).host = s.host := rfl

/-! ### setBitcnt -/

@[simp] theorem setBitcnt_params (n : BitVec 4) (s : State) : (setBitcnt n s).params = s.params := rfl
@[simp] theorem setBitcnt_sclOut (n : BitVec 4) (s : State) : (setBitcnt n s).sclOut = s.sclOut := rfl
@[simp] theorem setBitcnt_sdaOut (n : BitVec 4) (s : State) : (setBitcnt n s).sdaOut = s.sdaOut := rfl
@[simp] theorem setBitcnt_sdaDir (n : BitVec 4) (s : State) : (setBitcnt n s).sdaDir = s.sdaDir := rfl
@[simp] theorem setBitcnt_halfPeriod (n : BitVec 4) (s : State) : (setBitcnt n s).halfPeriod = s.halfPeriod := rfl
@[simp] theorem setBitcnt_status (n : BitVec 4) (s : State) : (setBitcnt n s).status = s.status := rfl
@[simp] theorem setBitcnt_busy (n : BitVec 4) (s : State) : (setBitcnt n s).busy = s.busy := rfl
@[simp] theorem setBitcnt_seq (n : BitVec 4) (s : State) : (setBitcnt n s).seq = s.seq := rfl
@[simp] theorem setBitcnt_rspValid (n : BitVec 4) (s : State) : (setBitcnt n s).rspValid = s.rspValid := rfl
@[simp] theorem setBitcnt_bufWe (n : BitVec 4) (s : State) : (setBitcnt n s).bufWe = s.bufWe := rfl
@[simp] theorem setBitcnt_cmd (n : BitVec 4) (s : State) : (setBitcnt n s).cmd = s.cmd := rfl
@[simp] theorem setBitcnt_shift (n : BitVec 4) (s : State) : (setBitcnt n s).shift = s.shift := rfl
@[simp] theorem setBitcnt_bitcnt (n : BitVec 4) (s : State) : (setBitcnt n s).bitcnt = n := rfl
@[simp] theorem setBitcnt_pollcnt (n : BitVec 4) (s : State) : (setBitcnt n s).pollcnt = s.pollcnt := rfl
@[simp] theorem setBitcnt_regI (n : BitVec 4) (s : State) : (setBitcnt n s).regI = s.regI := rfl
@[simp] theorem setBitcnt_regJ (n : BitVec 4) (s : State) : (setBitcnt n s).regJ = s.regJ := rfl
@[simp] theorem setBitcnt_regM (n : BitVec 4) (s : State) : (setBitcnt n s).regM = s.regM := rfl
@[simp] theorem setBitcnt_rdata (n : BitVec 4) (s : State) : (setBitcnt n s).rdata = s.rdata := rfl
@[simp] theorem setBitcnt_dlycnt (n : BitVec 4) (s : State) : (setBitcnt n s).dlycnt = s.dlycnt := rfl
@[simp] theorem setBitcnt_msgt (n : BitVec 4) (s : State) : (setBitcnt n s).msgt = s.msgt := rfl
@[simp] theorem setBitcnt_buf (n : BitVec 4) (s : State) : (setBitcnt n s).buf = s.buf := rfl
@[simp] theorem setBitcnt_trace (n : BitVec 4) (s : State) : (setBitcnt n s).trace = s.trace := rfl
@[simp] theorem setBitcnt_bus (n : BitVec 4) (s : State) : (setBitcnt n s).bus = s.bus := rfl
@[simp] theorem setBitcnt_samples (n : BitVec 4) (s : State) : (setBitcnt n s).samples = s.samples := rfl
@[simp] theorem setBitcnt_host (n : BitVec 4) (s : State) : (setBitcnt n s).host = s.host := rfl

/-! ### countBit -/

@[simp] theorem countBit_params (s : State) : (countBit s).params = s.params := rfl
@[simp] theorem countBit_sclOut (s : State) : (countBit s).sclOut = s.sclOut := rfl
@[simp] theorem countBit_sdaOut (s : State) : (countBit s).sdaOut = s.sdaOut := rfl
@[simp] theorem countBit_sdaDir (s : State) : (countBit s).sdaDir = s.sdaDir := rfl
@[simp] theorem countBit_halfPeriod (s : State) : (countBit s).halfPeriod = s.halfPeriod := rfl
@[simp] theorem countBit_status (s : State) : (countBit s).status = s.status := rfl
@[simp] theorem countBit_busy (s : State) : (countBit s).busy = s.busy := rfl
@[simp] theorem countBit_seq (s : State) : (countBit s).seq = s.seq := rfl
@[simp] theorem countBit_rspValid (s : State) : (countBit s).rspValid = s.rspValid := rfl
@[simp] theorem countBit_bufWe (s : State) : (countBit s).bufWe = s.bufWe := rfl
@[simp] theorem countBit_cmd (s : State) : (countBit s).cmd = s.cmd := rfl
@[simp] theorem countBit_shift (s : State) : (countBit s).shift = s.shift := rfl
@[simp] theorem countBit_bitcnt (s : State) : (countBit s).bitcnt = s.bitcnt + 1 := rfl
@[simp] theorem countBit_pollcnt (s : State) : (countBit s).pollcnt = s.pollcnt := rfl
@[simp] theorem countBit_regI (s : State) : (countBit s).regI = s.regI := rfl
@[simp] theorem countBit_regJ (s : State) : (countBit s).regJ = s.regJ := rfl
@[simp] theorem countBit_regM (s : State) : (countBit s).regM = s.regM := rfl
@[simp] theorem countBit_rdata (s : State) : (countBit s).rdata = s.rdata := rfl
@[simp] theorem countBit_dlycnt (s : State) : (countBit s).dlycnt = s.dlycnt := rfl
@[simp] theorem countBit_msgt (s : State) : (countBit s).msgt = s.msgt := rfl
@[simp] theorem countBit_buf (s : State) : (countBit s).buf = s.buf := rfl
@[simp] theorem countBit_trace (s : State) : (countBit s).trace = s.trace := rfl
@[simp] theorem countBit_bus (s : State) : (countBit s).bus = s.bus := rfl
@[simp] theorem countBit_samples (s : State) : (countBit s).samples = s.samples := rfl
@[simp] theorem countBit_host (s : State) : (countBit s).host = s.host := rfl

/-! ### setPollcnt -/

@[simp] theorem setPollcnt_params (n : Half) (s : State) : (setPollcnt n s).params = s.params := rfl
@[simp] theorem setPollcnt_sclOut (n : Half) (s : State) : (setPollcnt n s).sclOut = s.sclOut := rfl
@[simp] theorem setPollcnt_sdaOut (n : Half) (s : State) : (setPollcnt n s).sdaOut = s.sdaOut := rfl
@[simp] theorem setPollcnt_sdaDir (n : Half) (s : State) : (setPollcnt n s).sdaDir = s.sdaDir := rfl
@[simp] theorem setPollcnt_halfPeriod (n : Half) (s : State) : (setPollcnt n s).halfPeriod = s.halfPeriod := rfl
@[simp] theorem setPollcnt_status (n : Half) (s : State) : (setPollcnt n s).status = s.status := rfl
@[simp] theorem setPollcnt_busy (n : Half) (s : State) : (setPollcnt n s).busy = s.busy := rfl
@[simp] theorem setPollcnt_seq (n : Half) (s : State) : (setPollcnt n s).seq = s.seq := rfl
@[simp] theorem setPollcnt_rspValid (n : Half) (s : State) : (setPollcnt n s).rspValid = s.rspValid := rfl
@[simp] theorem setPollcnt_bufWe (n : Half) (s : State) : (setPollcnt n s).bufWe = s.bufWe := rfl
@[simp] theorem setPollcnt_cmd (n : Half) (s : State) : (setPollcnt n s).cmd = s.cmd := rfl
@[simp] theorem setPollcnt_shift (n : Half) (s : State) : (setPollcnt n s).shift = s.shift := rfl
@[simp] theorem setPollcnt_bitcnt (n : Half) (s : State) : (setPollcnt n s).bitcnt = s.bitcnt := rfl
@[simp] theorem setPollcnt_pollcnt (n : Half) (s : State) : (setPollcnt n s).pollcnt = n := rfl
@[simp] theorem setPollcnt_regI (n : Half) (s : State) : (setPollcnt n s).regI = s.regI := rfl
@[simp] theorem setPollcnt_regJ (n : Half) (s : State) : (setPollcnt n s).regJ = s.regJ := rfl
@[simp] theorem setPollcnt_regM (n : Half) (s : State) : (setPollcnt n s).regM = s.regM := rfl
@[simp] theorem setPollcnt_rdata (n : Half) (s : State) : (setPollcnt n s).rdata = s.rdata := rfl
@[simp] theorem setPollcnt_dlycnt (n : Half) (s : State) : (setPollcnt n s).dlycnt = s.dlycnt := rfl
@[simp] theorem setPollcnt_msgt (n : Half) (s : State) : (setPollcnt n s).msgt = s.msgt := rfl
@[simp] theorem setPollcnt_buf (n : Half) (s : State) : (setPollcnt n s).buf = s.buf := rfl
@[simp] theorem setPollcnt_trace (n : Half) (s : State) : (setPollcnt n s).trace = s.trace := rfl
@[simp] theorem setPollcnt_bus (n : Half) (s : State) : (setPollcnt n s).bus = s.bus := rfl
@[simp] theorem setPollcnt_samples (n : Half) (s : State) : (setPollcnt n s).samples = s.samples := rfl
@[simp] theorem setPollcnt_host (n : Half) (s : State) : (setPollcnt n s).host = s.host := rfl

/-! ### countPoll -/

@[simp] theorem countPoll_params (s : State) : (countPoll s).params = s.params := rfl
@[simp] theorem countPoll_sclOut (s : State) : (countPoll s).sclOut = s.sclOut := rfl
@[simp] theorem countPoll_sdaOut (s : State) : (countPoll s).sdaOut = s.sdaOut := rfl
@[simp] theorem countPoll_sdaDir (s : State) : (countPoll s).sdaDir = s.sdaDir := rfl
@[simp] theorem countPoll_halfPeriod (s : State) : (countPoll s).halfPeriod = s.halfPeriod := rfl
@[simp] theorem countPoll_status (s : State) : (countPoll s).status = s.status := rfl
@[simp] theorem countPoll_busy (s : State) : (countPoll s).busy = s.busy := rfl
@[simp] theorem countPoll_seq (s : State) : (countPoll s).seq = s.seq := rfl
@[simp] theorem countPoll_rspValid (s : State) : (countPoll s).rspValid = s.rspValid := rfl
@[simp] theorem countPoll_bufWe (s : State) : (countPoll s).bufWe = s.bufWe := rfl
@[simp] theorem countPoll_cmd (s : State) : (countPoll s).cmd = s.cmd := rfl
@[simp] theorem countPoll_shift (s : State) : (countPoll s).shift = s.shift := rfl
@[simp] theorem countPoll_bitcnt (s : State) : (countPoll s).bitcnt = s.bitcnt := rfl
@[simp] theorem countPoll_pollcnt (s : State) : (countPoll s).pollcnt = s.pollcnt + 1 := rfl
@[simp] theorem countPoll_regI (s : State) : (countPoll s).regI = s.regI := rfl
@[simp] theorem countPoll_regJ (s : State) : (countPoll s).regJ = s.regJ := rfl
@[simp] theorem countPoll_regM (s : State) : (countPoll s).regM = s.regM := rfl
@[simp] theorem countPoll_rdata (s : State) : (countPoll s).rdata = s.rdata := rfl
@[simp] theorem countPoll_dlycnt (s : State) : (countPoll s).dlycnt = s.dlycnt := rfl
@[simp] theorem countPoll_msgt (s : State) : (countPoll s).msgt = s.msgt := rfl
@[simp] theorem countPoll_buf (s : State) : (countPoll s).buf = s.buf := rfl
@[simp] theorem countPoll_trace (s : State) : (countPoll s).trace = s.trace := rfl
@[simp] theorem countPoll_bus (s : State) : (countPoll s).bus = s.bus := rfl
@[simp] theorem countPoll_samples (s : State) : (countPoll s).samples = s.samples := rfl
@[simp] theorem countPoll_host (s : State) : (countPoll s).host = s.host := rfl

/-! ### setI -/

@[simp] theorem setI_params (n : Half) (s : State) : (setI n s).params = s.params := rfl
@[simp] theorem setI_sclOut (n : Half) (s : State) : (setI n s).sclOut = s.sclOut := rfl
@[simp] theorem setI_sdaOut (n : Half) (s : State) : (setI n s).sdaOut = s.sdaOut := rfl
@[simp] theorem setI_sdaDir (n : Half) (s : State) : (setI n s).sdaDir = s.sdaDir := rfl
@[simp] theorem setI_halfPeriod (n : Half) (s : State) : (setI n s).halfPeriod = s.halfPeriod := rfl
@[simp] theorem setI_status (n : Half) (s : State) : (setI n s).status = s.status := rfl
@[simp] theorem setI_busy (n : Half) (s : State) : (setI n s).busy = s.busy := rfl
@[simp] theorem setI_seq (n : Half) (s : State) : (setI n s).seq = s.seq := rfl
@[simp] theorem setI_rspValid (n : Half) (s : State) : (setI n s).rspValid = s.rspValid := rfl
@[simp] theorem setI_bufWe (n : Half) (s : State) : (setI n s).bufWe = s.bufWe := rfl
@[simp] theorem setI_cmd (n : Half) (s : State) : (setI n s).cmd = s.cmd := rfl
@[simp] theorem setI_shift (n : Half) (s : State) : (setI n s).shift = s.shift := rfl
@[simp] theorem setI_bitcnt (n : Half) (s : State) : (setI n s).bitcnt = s.bitcnt := rfl
@[simp] theorem setI_pollcnt (n : Half) (s : State) : (setI n s).pollcnt = s.pollcnt := rfl
@[simp] theorem setI_regI (n : Half) (s : State) : (setI n s).regI = n := rfl
@[simp] theorem setI_regJ (n : Half) (s : State) : (setI n s).regJ = s.regJ := rfl
@[simp] theorem setI_regM (n : Half) (s : State) : (setI n s).regM = s.regM := rfl
@[simp] theorem setI_rdata (n : Half) (s : State) : (setI n s).rdata = s.rdata := rfl
@[simp] theorem setI_dlycnt (n : Half) (s : State) : (setI n s).dlycnt = s.dlycnt := rfl
@[simp] theorem setI_msgt (n : Half) (s : State) : (setI n s).msgt = s.msgt := rfl
@[simp] theorem setI_buf (n : Half) (s : State) : (setI n s).buf = s.buf := rfl
@[simp] theorem setI_trace (n : Half) (s : State) : (setI n s).trace = s.trace := rfl
@[simp] theorem setI_bus (n : Half) (s : State) : (setI n s).bus = s.bus := rfl
@[simp] theorem setI_samples (n : Half) (s : State) : (setI n s).samples = s.samples := rfl
@[simp] theorem setI_host (n : Half) (s : State) : (setI n s).host = s.host := rfl

/-! ### setJ -/

@[simp] theorem setJ_params (n : Half) (s : State) : (setJ n s).params = s.params := rfl
@[simp] theorem setJ_sclOut (n : Half) (s : State) : (setJ n s).sclOut = s.sclOut := rfl
@[simp] theorem setJ_sdaOut (n : Half) (s : State) : (setJ n s).sdaOut = s.sdaOut := rfl
@[simp] theorem setJ_sdaDir (n : Half) (s : State) : (setJ n s).sdaDir = s.sdaDir := rfl
@[simp] theorem setJ_halfPeriod (n : Half) (s : State) : (setJ n s).halfPeriod = s.halfPeriod := rfl
@[simp] theorem setJ_status (n : Half) (s : State) : (setJ n s).status = s.status := rfl
@[simp] theorem setJ_busy (n : Half) (s : State) : (setJ n s).busy = s.busy := rfl
@[simp] theorem setJ_seq (n : Half) (s : State) : (setJ n s).seq = s.seq := rfl
@[simp] theorem setJ_rspValid (n : Half) (s : State) : (setJ n s).rspValid = s.rspValid := rfl
@[simp] theorem setJ_bufWe (n : Half) (s : State) : (setJ n s).bufWe = s.bufWe := rfl
@[simp] theorem setJ_cmd (n : Half) (s : State) : (setJ n s).cmd = s.cmd := rfl
@[simp] theorem setJ_shift (n : Half) (s : State) : (setJ n s).shift = s.shift := rfl
@[simp] theorem setJ_bitcnt (n : Half) (s : State) : (setJ n s).bitcnt = s.bitcnt := rfl
@[simp] theorem setJ_pollcnt (n : Half) (s : State) : (setJ n s).pollcnt = s.pollcnt := rfl
@[simp] theorem setJ_regI (n : Half) (s : State) : (setJ n s).regI = s.regI := rfl
@[simp] theorem setJ_regJ (n : Half) (s : State) : (setJ n s).regJ = n := rfl
@[simp] theorem setJ_regM (n : Half) (s : State) : (setJ n s).regM = s.regM := rfl
@[simp] theorem setJ_rdata (n : Half) (s : State) : (setJ n s).rdata = s.rdata := rfl
@[simp] theorem setJ_dlycnt (n : Half) (s : State) : (setJ n s).dlycnt = s.dlycnt := rfl
@[simp] theorem setJ_msgt (n : Half) (s : State) : (setJ n s).msgt = s.msgt := rfl
@[simp] theorem setJ_buf (n : Half) (s : State) : (setJ n s).buf = s.buf := rfl
@[simp] theorem setJ_trace (n : Half) (s : State) : (setJ n s).trace = s.trace := rfl
@[simp] theorem setJ_bus (n : Half) (s : State) : (setJ n s).bus = s.bus := rfl
@[simp] theorem setJ_samples (n : Half) (s : State) : (setJ n s).samples = s.samples := rfl
@[simp] theorem setJ_host (n : Half) (s : State) : (setJ n s).host = s.host := rfl

/-! ### setM -/

@[simp] theorem setM_params (e : MsgWord) (s : State) : (setM e s).params = s.params := rfl
@[simp] theorem setM_sclOut (e : MsgWord) (s : State) : (setM e s).sclOut = s.sclOut := rfl
@[simp] theorem setM_sdaOut (e : MsgWord) (s : State) : (setM e s).sdaOut = s.sdaOut := rfl
@[simp] theorem setM_sdaDir (e : MsgWord) (s : State) : (setM e s).sdaDir = s.sdaDir := rfl
@[simp] theorem setM_halfPeriod (e : MsgWord) (s : State) : (setM e s).halfPeriod = s.halfPeriod := rfl
@[simp] theorem setM_status (e : MsgWord) (s : State) : (setM e s).status = s.status := rfl
@[simp] theorem setM_busy (e : MsgWord) (s : State) : (setM e s).busy = s.busy := rfl
@[simp] theorem setM_seq (e : MsgWord) (s : State) : (setM e s).seq = s.seq := rfl
@[simp] theorem setM_rspValid (e : MsgWord) (s : State) : (setM e s).rspValid = s.rspValid := rfl
@[simp] theorem setM_bufWe (e : MsgWord) (s : State) : (setM e s).bufWe = s.bufWe := rfl
@[simp] theorem setM_cmd (e : MsgWord) (s : State) : (setM e s).cmd = s.cmd := rfl
@[simp] theorem setM_shift (e : MsgWord) (s : State) : (setM e s).shift = s.shift := rfl
@[simp] theorem setM_bitcnt (e : MsgWord) (s : State) : (setM e s).bitcnt = s.bitcnt := rfl
@[simp] theorem setM_pollcnt (e : MsgWord) (s : State) : (setM e s).pollcnt = s.pollcnt := rfl
@[simp] theorem setM_regI (e : MsgWord) (s : State) : (setM e s).regI = s.regI := rfl
@[simp] theorem setM_regJ (e : MsgWord) (s : State) : (setM e s).regJ = s.regJ := rfl
@[simp] theorem setM_regM (e : MsgWord) (s : State) : (setM e s).regM = e := rfl
@[simp] theorem setM_rdata (e : MsgWord) (s : State) : (setM e s).rdata = s.rdata := rfl
@[simp] theorem setM_dlycnt (e : MsgWord) (s : State) : (setM e s).dlycnt = s.dlycnt := rfl
@[simp] theorem setM_msgt (e : MsgWord) (s : State) : (setM e s).msgt = s.msgt := rfl
@[simp] theorem setM_buf (e : MsgWord) (s : State) : (setM e s).buf = s.buf := rfl
@[simp] theorem setM_trace (e : MsgWord) (s : State) : (setM e s).trace = s.trace := rfl
@[simp] theorem setM_bus (e : MsgWord) (s : State) : (setM e s).bus = s.bus := rfl
@[simp] theorem setM_samples (e : MsgWord) (s : State) : (setM e s).samples = s.samples := rfl
@[simp] theorem setM_host (e : MsgWord) (s : State) : (setM e s).host = s.host := rfl

/-! ### setRdata -/

@[simp] theorem setRdata_params (v : Byte) (s : State) : (setRdata v s).params = s.params := rfl
@[simp] theorem setRdata_sclOut (v : Byte) (s : State) : (setRdata v s).sclOut = s.sclOut := rfl
@[simp] theorem setRdata_sdaOut (v : Byte) (s : State) : (setRdata v s).sdaOut = s.sdaOut := rfl
@[simp] theorem setRdata_sdaDir (v : Byte) (s : State) : (setRdata v s).sdaDir = s.sdaDir := rfl
@[simp] theorem setRdata_halfPeriod (v : Byte) (s : State) : (setRdata v s).halfPeriod = s.halfPeriod := rfl
@[simp] theorem setRdata_status (v : Byte) (s : State) : (setRdata v s).status = s.status := rfl
@[simp] theorem setRdata_busy (v : Byte) (s : State) : (setRdata v s).busy = s.busy := rfl
@[simp] theorem setRdata_seq (v : Byte) (s : State) : (setRdata v s).seq = s.seq := rfl
@[simp] theorem setRdata_rspValid (v : Byte) (s : State) : (setRdata v s).rspValid = s.rspValid := rfl
@[simp] theorem setRdata_bufWe (v : Byte) (s : State) : (setRdata v s).bufWe = s.bufWe := rfl
@[simp] theorem setRdata_cmd (v : Byte) (s : State) : (setRdata v s).cmd = s.cmd := rfl
@[simp] theorem setRdata_shift (v : Byte) (s : State) : (setRdata v s).shift = s.shift := rfl
@[simp] theorem setRdata_bitcnt (v : Byte) (s : State) : (setRdata v s).bitcnt = s.bitcnt := rfl
@[simp] theorem setRdata_pollcnt (v : Byte) (s : State) : (setRdata v s).pollcnt = s.pollcnt := rfl
@[simp] theorem setRdata_regI (v : Byte) (s : State) : (setRdata v s).regI = s.regI := rfl
@[simp] theorem setRdata_regJ (v : Byte) (s : State) : (setRdata v s).regJ = s.regJ := rfl
@[simp] theorem setRdata_regM (v : Byte) (s : State) : (setRdata v s).regM = s.regM := rfl
@[simp] theorem setRdata_rdata (v : Byte) (s : State) : (setRdata v s).rdata = v := rfl
@[simp] theorem setRdata_dlycnt (v : Byte) (s : State) : (setRdata v s).dlycnt = s.dlycnt := rfl
@[simp] theorem setRdata_msgt (v : Byte) (s : State) : (setRdata v s).msgt = s.msgt := rfl
@[simp] theorem setRdata_buf (v : Byte) (s : State) : (setRdata v s).buf = s.buf := rfl
@[simp] theorem setRdata_trace (v : Byte) (s : State) : (setRdata v s).trace = s.trace := rfl
@[simp] theorem setRdata_bus (v : Byte) (s : State) : (setRdata v s).bus = s.bus := rfl
@[simp] theorem setRdata_samples (v : Byte) (s : State) : (setRdata v s).samples = s.samples := rfl
@[simp] theorem setRdata_host (v : Byte) (s : State) : (setRdata v s).host = s.host := rfl

/-! ### setHalfPeriod -/

@[simp] theorem setHalfPeriod_params (n : Half) (s : State) : (setHalfPeriod n s).params = s.params := rfl
@[simp] theorem setHalfPeriod_sclOut (n : Half) (s : State) : (setHalfPeriod n s).sclOut = s.sclOut := rfl
@[simp] theorem setHalfPeriod_sdaOut (n : Half) (s : State) : (setHalfPeriod n s).sdaOut = s.sdaOut := rfl
@[simp] theorem setHalfPeriod_sdaDir (n : Half) (s : State) : (setHalfPeriod n s).sdaDir = s.sdaDir := rfl
@[simp] theorem setHalfPeriod_halfPeriod (n : Half) (s : State) : (setHalfPeriod n s).halfPeriod = n := rfl
@[simp] theorem setHalfPeriod_status (n : Half) (s : State) : (setHalfPeriod n s).status = s.status := rfl
@[simp] theorem setHalfPeriod_busy (n : Half) (s : State) : (setHalfPeriod n s).busy = s.busy := rfl
@[simp] theorem setHalfPeriod_seq (n : Half) (s : State) : (setHalfPeriod n s).seq = s.seq := rfl
@[simp] theorem setHalfPeriod_rspValid (n : Half) (s : State) : (setHalfPeriod n s).rspValid = s.rspValid := rfl
@[simp] theorem setHalfPeriod_bufWe (n : Half) (s : State) : (setHalfPeriod n s).bufWe = s.bufWe := rfl
@[simp] theorem setHalfPeriod_cmd (n : Half) (s : State) : (setHalfPeriod n s).cmd = s.cmd := rfl
@[simp] theorem setHalfPeriod_shift (n : Half) (s : State) : (setHalfPeriod n s).shift = s.shift := rfl
@[simp] theorem setHalfPeriod_bitcnt (n : Half) (s : State) : (setHalfPeriod n s).bitcnt = s.bitcnt := rfl
@[simp] theorem setHalfPeriod_pollcnt (n : Half) (s : State) : (setHalfPeriod n s).pollcnt = s.pollcnt := rfl
@[simp] theorem setHalfPeriod_regI (n : Half) (s : State) : (setHalfPeriod n s).regI = s.regI := rfl
@[simp] theorem setHalfPeriod_regJ (n : Half) (s : State) : (setHalfPeriod n s).regJ = s.regJ := rfl
@[simp] theorem setHalfPeriod_regM (n : Half) (s : State) : (setHalfPeriod n s).regM = s.regM := rfl
@[simp] theorem setHalfPeriod_rdata (n : Half) (s : State) : (setHalfPeriod n s).rdata = s.rdata := rfl
@[simp] theorem setHalfPeriod_dlycnt (n : Half) (s : State) : (setHalfPeriod n s).dlycnt = s.dlycnt := rfl
@[simp] theorem setHalfPeriod_msgt (n : Half) (s : State) : (setHalfPeriod n s).msgt = s.msgt := rfl
@[simp] theorem setHalfPeriod_buf (n : Half) (s : State) : (setHalfPeriod n s).buf = s.buf := rfl
@[simp] theorem setHalfPeriod_trace (n : Half) (s : State) : (setHalfPeriod n s).trace = s.trace := rfl
@[simp] theorem setHalfPeriod_bus (n : Half) (s : State) : (setHalfPeriod n s).bus = s.bus := rfl
@[simp] theorem setHalfPeriod_samples (n : Half) (s : State) : (setHalfPeriod n s).samples = s.samples := rfl
@[simp] theorem setHalfPeriod_host (n : Half) (s : State) : (setHalfPeriod n s).host = s.host := rfl

/-! ### setStatus -/

@[simp] theorem setStatus_params (r : Status) (s : State) : (setStatus r s).params = s.params := rfl
@[simp] theorem setStatus_sclOut (r : Status) (s : State) : (setStatus r s).sclOut = s.sclOut := rfl
@[simp] theorem setStatus_sdaOut (r : Status) (s : State) : (setStatus r s).sdaOut = s.sdaOut := rfl
@[simp] theorem setStatus_sdaDir (r : Status) (s : State) : (setStatus r s).sdaDir = s.sdaDir := rfl
@[simp] theorem setStatus_halfPeriod (r : Status) (s : State) : (setStatus r s).halfPeriod = s.halfPeriod := rfl
@[simp] theorem setStatus_status (r : Status) (s : State) : (setStatus r s).status = r := rfl
@[simp] theorem setStatus_busy (r : Status) (s : State) : (setStatus r s).busy = s.busy := rfl
@[simp] theorem setStatus_seq (r : Status) (s : State) : (setStatus r s).seq = s.seq := rfl
@[simp] theorem setStatus_rspValid (r : Status) (s : State) : (setStatus r s).rspValid = s.rspValid := rfl
@[simp] theorem setStatus_bufWe (r : Status) (s : State) : (setStatus r s).bufWe = s.bufWe := rfl
@[simp] theorem setStatus_cmd (r : Status) (s : State) : (setStatus r s).cmd = s.cmd := rfl
@[simp] theorem setStatus_shift (r : Status) (s : State) : (setStatus r s).shift = s.shift := rfl
@[simp] theorem setStatus_bitcnt (r : Status) (s : State) : (setStatus r s).bitcnt = s.bitcnt := rfl
@[simp] theorem setStatus_pollcnt (r : Status) (s : State) : (setStatus r s).pollcnt = s.pollcnt := rfl
@[simp] theorem setStatus_regI (r : Status) (s : State) : (setStatus r s).regI = s.regI := rfl
@[simp] theorem setStatus_regJ (r : Status) (s : State) : (setStatus r s).regJ = s.regJ := rfl
@[simp] theorem setStatus_regM (r : Status) (s : State) : (setStatus r s).regM = s.regM := rfl
@[simp] theorem setStatus_rdata (r : Status) (s : State) : (setStatus r s).rdata = s.rdata := rfl
@[simp] theorem setStatus_dlycnt (r : Status) (s : State) : (setStatus r s).dlycnt = s.dlycnt := rfl
@[simp] theorem setStatus_msgt (r : Status) (s : State) : (setStatus r s).msgt = s.msgt := rfl
@[simp] theorem setStatus_buf (r : Status) (s : State) : (setStatus r s).buf = s.buf := rfl
@[simp] theorem setStatus_trace (r : Status) (s : State) : (setStatus r s).trace = s.trace := rfl
@[simp] theorem setStatus_bus (r : Status) (s : State) : (setStatus r s).bus = s.bus := rfl
@[simp] theorem setStatus_samples (r : Status) (s : State) : (setStatus r s).samples = s.samples := rfl
@[simp] theorem setStatus_host (r : Status) (s : State) : (setStatus r s).host = s.host := rfl

/-! ### latchCmd -/

@[simp] theorem latchCmd_params (w : CmdWord) (s : State) : (latchCmd w s).params = s.params := rfl
@[simp] theorem latchCmd_sclOut (w : CmdWord) (s : State) : (latchCmd w s).sclOut = s.sclOut := rfl
@[simp] theorem latchCmd_sdaOut (w : CmdWord) (s : State) : (latchCmd w s).sdaOut = s.sdaOut := rfl
@[simp] theorem latchCmd_sdaDir (w : CmdWord) (s : State) : (latchCmd w s).sdaDir = s.sdaDir := rfl
@[simp] theorem latchCmd_halfPeriod (w : CmdWord) (s : State) : (latchCmd w s).halfPeriod = s.halfPeriod := rfl
@[simp] theorem latchCmd_status (w : CmdWord) (s : State) : (latchCmd w s).status = s.status := rfl
@[simp] theorem latchCmd_busy (w : CmdWord) (s : State) : (latchCmd w s).busy = s.busy := rfl
@[simp] theorem latchCmd_seq (w : CmdWord) (s : State) : (latchCmd w s).seq = s.seq := rfl
@[simp] theorem latchCmd_rspValid (w : CmdWord) (s : State) : (latchCmd w s).rspValid = s.rspValid := rfl
@[simp] theorem latchCmd_bufWe (w : CmdWord) (s : State) : (latchCmd w s).bufWe = s.bufWe := rfl
@[simp] theorem latchCmd_cmd (w : CmdWord) (s : State) : (latchCmd w s).cmd = w := rfl
@[simp] theorem latchCmd_shift (w : CmdWord) (s : State) : (latchCmd w s).shift = s.shift := rfl
@[simp] theorem latchCmd_bitcnt (w : CmdWord) (s : State) : (latchCmd w s).bitcnt = s.bitcnt := rfl
@[simp] theorem latchCmd_pollcnt (w : CmdWord) (s : State) : (latchCmd w s).pollcnt = s.pollcnt := rfl
@[simp] theorem latchCmd_regI (w : CmdWord) (s : State) : (latchCmd w s).regI = s.regI := rfl
@[simp] theorem latchCmd_regJ (w : CmdWord) (s : State) : (latchCmd w s).regJ = s.regJ := rfl
@[simp] theorem latchCmd_regM (w : CmdWord) (s : State) : (latchCmd w s).regM = s.regM := rfl
@[simp] theorem latchCmd_rdata (w : CmdWord) (s : State) : (latchCmd w s).rdata = s.rdata := rfl
@[simp] theorem latchCmd_dlycnt (w : CmdWord) (s : State) : (latchCmd w s).dlycnt = s.dlycnt := rfl
@[simp] theorem latchCmd_msgt (w : CmdWord) (s : State) : (latchCmd w s).msgt = s.msgt := rfl
@[simp] theorem latchCmd_buf (w : CmdWord) (s : State) : (latchCmd w s).buf = s.buf := rfl
@[simp] theorem latchCmd_trace (w : CmdWord) (s : State) : (latchCmd w s).trace = s.trace := rfl
@[simp] theorem latchCmd_bus (w : CmdWord) (s : State) : (latchCmd w s).bus = s.bus := rfl
@[simp] theorem latchCmd_samples (w : CmdWord) (s : State) : (latchCmd w s).samples = s.samples := rfl
@[simp] theorem latchCmd_host (w : CmdWord) (s : State) : (latchCmd w s).host = s.host := rfl

/-! ### accept -/

@[simp] theorem accept_params (op : BitVec 4) (s : State) : (accept op s).params = s.params := rfl
@[simp] theorem accept_sclOut (op : BitVec 4) (s : State) : (accept op s).sclOut = s.sclOut := rfl
@[simp] theorem accept_sdaOut (op : BitVec 4) (s : State) : (accept op s).sdaOut = s.sdaOut := rfl
@[simp] theorem accept_sdaDir (op : BitVec 4) (s : State) : (accept op s).sdaDir = s.sdaDir := rfl
@[simp] theorem accept_halfPeriod (op : BitVec 4) (s : State) : (accept op s).halfPeriod = s.halfPeriod := rfl
@[simp] theorem accept_status (op : BitVec 4) (s : State) : (accept op s).status = .ok := rfl
@[simp] theorem accept_busy (op : BitVec 4) (s : State) : (accept op s).busy = true := rfl
@[simp] theorem accept_seq (op : BitVec 4) (s : State) : (accept op s).seq = .running op := rfl
@[simp] theorem accept_rspValid (op : BitVec 4) (s : State) : (accept op s).rspValid = false := rfl
@[simp] theorem accept_bufWe (op : BitVec 4) (s : State) : (accept op s).bufWe = s.bufWe := rfl
@[simp] theorem accept_cmd (op : BitVec 4) (s : State) : (accept op s).cmd = s.cmd := rfl
@[simp] theorem accept_shift (op : BitVec 4) (s : State) : (accept op s).shift = s.shift := rfl
@[simp] theorem accept_bitcnt (op : BitVec 4) (s : State) : (accept op s).bitcnt = s.bitcnt := rfl
@[simp] theorem accept_pollcnt (op : BitVec 4) (s : State) : (accept op s).pollcnt = s.pollcnt := rfl
@[simp] theorem accept_regI (op : BitVec 4) (s : State) : (accept op s).regI = s.regI := rfl
@[simp] theorem accept_regJ (op : BitVec 4) (s : State) : (accept op s).regJ = s.regJ := rfl
@[simp] theorem accept_regM (op : BitVec 4) (s : State) : (accept op s).regM = s.regM := rfl
@[simp] theorem accept_rdata (op : BitVec 4) (s : State) : (accept op s).rdata = 0 := rfl
@[simp] theorem accept_dlycnt (op : BitVec 4) (s : State) : (accept op s).dlycnt = s.dlycnt := rfl
@[simp] theorem accept_msgt (op : BitVec 4) (s : State) : (accept op s).msgt = s.msgt := rfl
@[simp] theorem accept_buf (op : BitVec 4) (s : State) : (accept op s).buf = s.buf := rfl
@[simp] theorem accept_trace (op : BitVec 4) (s : State) : (accept op s).trace = s.trace := rfl
@[simp] theorem accept_bus (op : BitVec 4) (s : State) : (accept op s).bus = s.bus := rfl
@[simp] theorem accept_samples (op : BitVec 4) (s : State) : (accept op s).samples = s.samples := rfl
@[simp] theorem accept_host (op : BitVec 4) (s : State) : (accept op s).host = s.host := rfl

/-! ### finish -/

@[simp] theorem finish_params (s : State) : (finish s).params = s.params := rfl
@[simp] theorem finish_sclOut (s : State) : (finish s).sclOut = s.sclOut := rfl
@[simp] theorem finish_sdaOut (s : State) : (finish s).sdaOut = s.sdaOut := rfl
@[simp] theorem finish_sdaDir (s : State) : (finish s).sdaDir = s.sdaDir := rfl
@[simp] theorem finish_halfPeriod (s : State) : (finish s).halfPeriod = s.halfPeriod := rfl
@[simp] theorem finish_status (s : State) : (finish s).status = s.status := rfl
@[simp] theorem finish_busy (s : State) : (finish s).busy = s.busy := rfl
@[simp] theorem finish_seq (s : State) : (finish s).seq = s.seq := rfl
@[simp] theorem finish_rspValid (s : State) : (finish s).rspValid = true := rfl
@[simp] theorem finish_bufWe (s : State) : (finish s).bufWe = s.bufWe := rfl
@[simp] theorem finish_cmd (s : State) : (finish s).cmd = s.cmd := rfl
@[simp] theorem finish_shift (s : State) : (finish s).shift = s.shift := rfl
@[simp] theorem finish_bitcnt (s : State) : (finish s).bitcnt = s.bitcnt := rfl
@[simp] theorem finish_pollcnt (s : State) : (finish s).pollcnt = s.pollcnt := rfl
@[simp] theorem finish_regI (s : State) : (finish s).regI = s.regI := rfl
@[simp] theorem finish_regJ (s : State) : (finish s).regJ = s.regJ := rfl
@[simp] theorem finish_regM (s : State) : (finish s).regM = s.regM := rfl
@[simp] theorem finish_rdata (s : State) : (finish s).rdata = s.rdata := rfl
@[simp] theorem finish_dlycnt (s : State) : (finish s).dlycnt = s.dlycnt := rfl
@[simp] theorem finish_msgt (s : State) : (finish s).msgt = s.msgt := rfl
@[simp] theorem finish_buf (s : State) : (finish s).buf = s.buf := rfl
@[simp] theorem finish_trace (s : State) : (finish s).trace = s.trace := rfl
@[simp] theorem finish_bus (s : State) : (finish s).bus = s.bus := rfl
@[simp] theorem finish_samples (s : State) : (finish s).samples = s.samples := rfl
@[simp] theorem finish_host (s : State) : (finish s).host = s.host := rfl

/-! ### endCompletion -/

@[simp] theorem endCompletion_params (s : State) : (endCompletion s).params = s.params := rfl
@[simp] theorem endCompletion_sclOut (s : State) : (endCompletion s).sclOut = s.sclOut := rfl
@[simp] theorem endCompletion_sdaOut (s : State) : (endCompletion s).sdaOut = s.sdaOut := rfl
@[simp] theorem endCompletion_sdaDir (s : State) : (endCompletion s).sdaDir = s.sdaDir := rfl
@[simp] theorem endCompletion_halfPeriod (s : State) : (endCompletion s).halfPeriod = s.halfPeriod := rfl
@[simp] theorem endCompletion_status (s : State) : (endCompletion s).status = s.status := rfl
@[simp] theorem endCompletion_busy (s : State) : (endCompletion s).busy = false := rfl
@[simp] theorem endCompletion_seq (s : State) : (endCompletion s).seq = .idle := rfl
@[simp] theorem endCompletion_rspValid (s : State) : (endCompletion s).rspValid = false := rfl
@[simp] theorem endCompletion_bufWe (s : State) : (endCompletion s).bufWe = s.bufWe := rfl
@[simp] theorem endCompletion_cmd (s : State) : (endCompletion s).cmd = s.cmd := rfl
@[simp] theorem endCompletion_shift (s : State) : (endCompletion s).shift = s.shift := rfl
@[simp] theorem endCompletion_bitcnt (s : State) : (endCompletion s).bitcnt = s.bitcnt := rfl
@[simp] theorem endCompletion_pollcnt (s : State) : (endCompletion s).pollcnt = s.pollcnt := rfl
@[simp] theorem endCompletion_regI (s : State) : (endCompletion s).regI = s.regI := rfl
@[simp] theorem endCompletion_regJ (s : State) : (endCompletion s).regJ = s.regJ := rfl
@[simp] theorem endCompletion_regM (s : State) : (endCompletion s).regM = s.regM := rfl
@[simp] theorem endCompletion_rdata (s : State) : (endCompletion s).rdata = s.rdata := rfl
@[simp] theorem endCompletion_dlycnt (s : State) : (endCompletion s).dlycnt = s.dlycnt := rfl
@[simp] theorem endCompletion_msgt (s : State) : (endCompletion s).msgt = s.msgt := rfl
@[simp] theorem endCompletion_buf (s : State) : (endCompletion s).buf = s.buf := rfl
@[simp] theorem endCompletion_trace (s : State) : (endCompletion s).trace = s.trace := rfl
@[simp] theorem endCompletion_bus (s : State) : (endCompletion s).bus = s.bus := rfl
@[simp] theorem endCompletion_samples (s : State) : (endCompletion s).samples = s.samples := rfl
@[simp] theorem endCompletion_host (s : State) : (endCompletion s).host = s.host := rfl

/-! ### nextHostAct -/

@[simp] theorem nextHostAct_params (s : State) : (nextHostAct s).params = s.params := rfl
@[simp] theorem nextHostAct_sclOut (s : State) : (nextHostAct s).sclOut = s.sclOut := rfl
@[simp] theorem nextHostAct_sdaOut (s : State) : (nextHostAct s).sdaOut = s.sdaOut := rfl
@[simp] theorem nextHostAct_sdaDir (s : State) : (nextHostAct s).sdaDir = s.sdaDir := rfl
@[simp] theorem nextHostAct_halfPeriod (s : State) : (nextHostAct s).halfPeriod = s.halfPeriod := rfl
@[simp] theorem nextHostAct_status (s : State) : (nextHostAct s).status = s.status := rfl
@[simp] theorem nextHostAct_busy (s : State) : (nextHostAct s).busy = s.busy := rfl
@[simp] theorem nextHostAct_seq (s : State) : (nextHostAct s).seq = s.seq := rfl
@[simp] theorem nextHostAct_rspValid (s : State) : (nextHostAct s).rspValid = s.rspValid := rfl
@[simp] theorem nextHostAct_bufWe (s : State) : (nextHostAct s).bufWe = s.bufWe := rfl
@[simp] theorem nextHostAct_cmd (s : State) : (nextHostAct s).cmd = s.cmd := rfl
@[simp] theorem nextHostAct_shift (s : State) : (nextHostAct s).shift = s.shift := rfl
@[simp] theorem nextHostAct_bitcnt (s : State) : (nextHostAct s).bitcnt = s.bitcnt := rfl
@[simp] theorem nextHostAct_pollcnt (s : State) : (nextHostAct s).pollcnt = s.pollcnt := rfl
@[simp] theorem nextHostAct_regI (s : State) : (nextHostAct s).regI = s.regI := rfl
@[simp] theorem nextHostAct_regJ (s : State) : (nextHostAct s).regJ = s.regJ := rfl
@[simp] theorem nextHostAct_regM (s : State) : (nextHostAct s).regM = s.regM := rfl
@[simp] theorem nextHostAct_rdata (s : State) : (nextHostAct s).rdata = s.rdata := rfl
@[simp] theorem nextHostAct_dlycnt (s : State) : (nextHostAct s).dlycnt = s.dlycnt := rfl
@[simp] theorem nextHostAct_msgt (s : State) : (nextHostAct s).msgt = s.msgt := rfl
@[simp] theorem nextHostAct_buf (s : State) : (nextHostAct s).buf = s.buf := rfl
@[simp] theorem nextHostAct_trace (s : State) : (nextHostAct s).trace = s.trace := rfl
@[simp] theorem nextHostAct_bus (s : State) : (nextHostAct s).bus = s.bus := rfl
@[simp] theorem nextHostAct_samples (s : State) : (nextHostAct s).samples = s.samples := rfl
@[simp] theorem nextHostAct_host (s : State) : (nextHostAct s).host = s.host.tail := rfl

/-! ### presentWord -/

@[simp] theorem presentWord_params (w : CmdWord) (s : State) : (presentWord w s).params = s.params := rfl
@[simp] theorem presentWord_sclOut (w : CmdWord) (s : State) : (presentWord w s).sclOut = s.sclOut := rfl
@[simp] theorem presentWord_sdaOut (w : CmdWord) (s : State) : (presentWord w s).sdaOut = s.sdaOut := rfl
@[simp] theorem presentWord_sdaDir (w : CmdWord) (s : State) : (presentWord w s).sdaDir = s.sdaDir := rfl
@[simp] theorem presentWord_halfPeriod (w : CmdWord) (s : State) : (presentWord w s).halfPeriod = s.halfPeriod := rfl
@[simp] theorem presentWord_status (w : CmdWord) (s : State) : (presentWord w s).status = s.status := rfl
@[simp] theorem presentWord_busy (w : CmdWord) (s : State) : (presentWord w s).busy = false := rfl
@[simp] theorem presentWord_seq (w : CmdWord) (s : State) : (presentWord w s).seq = .idle := rfl
@[simp] theorem presentWord_rspValid (w : CmdWord) (s : State) : (presentWord w s).rspValid = false := rfl
@[simp] theorem presentWord_bufWe (w : CmdWord) (s : State) : (presentWord w s).bufWe = s.bufWe := rfl
@[simp] theorem presentWord_cmd (w : CmdWord) (s : State) : (presentWord w s).cmd = s.cmd := rfl
@[simp] theorem presentWord_shift (w : CmdWord) (s : State) : (presentWord w s).shift = s.shift := rfl
@[simp] theorem presentWord_bitcnt (w : CmdWord) (s : State) : (presentWord w s).bitcnt = s.bitcnt := rfl
@[simp] theorem presentWord_pollcnt (w : CmdWord) (s : State) : (presentWord w s).pollcnt = s.pollcnt := rfl
@[simp] theorem presentWord_regI (w : CmdWord) (s : State) : (presentWord w s).regI = s.regI := rfl
@[simp] theorem presentWord_regJ (w : CmdWord) (s : State) : (presentWord w s).regJ = s.regJ := rfl
@[simp] theorem presentWord_regM (w : CmdWord) (s : State) : (presentWord w s).regM = s.regM := rfl
@[simp] theorem presentWord_rdata (w : CmdWord) (s : State) : (presentWord w s).rdata = s.rdata := rfl
@[simp] theorem presentWord_dlycnt (w : CmdWord) (s : State) : (presentWord w s).dlycnt = s.dlycnt := rfl
@[simp] theorem presentWord_msgt (w : CmdWord) (s : State) : (presentWord w s).msgt = s.msgt := rfl
@[simp] theorem presentWord_buf (w : CmdWord) (s : State) : (presentWord w s).buf = s.buf := rfl
@[simp] theorem presentWord_trace (w : CmdWord) (s : State) : (presentWord w s).trace = s.trace := rfl
@[simp] theorem presentWord_bus (w : CmdWord) (s : State) : (presentWord w s).bus = s.bus := rfl
@[simp] theorem presentWord_samples (w : CmdWord) (s : State) : (presentWord w s).samples = s.samples := rfl
@[simp] theorem presentWord_host (w : CmdWord) (s : State) : (presentWord w s).host = .command w :: s.host := rfl

/-! ### resetBlock -/

@[simp] theorem resetBlock_params (s : State) : (resetBlock s).params = s.params := rfl
@[simp] theorem resetBlock_sclOut (s : State) : (resetBlock s).sclOut = true := rfl
@[simp] theorem resetBlock_sdaOut (s : State) : (resetBlock s).sdaOut = true := rfl
@[simp] theorem resetBlock_sdaDir (s : State) : (resetBlock s).sdaDir = .out := rfl
@[simp] theorem resetBlock_halfPeriod (s : State) : (resetBlock s).halfPeriod = s.params.hpReset := rfl
@[simp] theorem resetBlock_status (s : State) : (resetBlock s).status = .ok := rfl
@[simp] theorem resetBlock_busy (s : State) : (resetBlock s).busy = false := rfl
@[simp] theorem resetBlock_seq (s : State) : (resetBlock s).seq = .idle := rfl
@[simp] theorem resetBlock_rspValid (s : State) : (resetBlock s).rspValid = false := rfl
@[simp] theorem resetBlock_bufWe (s : State) : (resetBlock s).bufWe = false := rfl
@[simp] theorem resetBlock_cmd (s : State) : (resetBlock s).cmd = 0 := rfl
@[simp] theorem resetBlock_shift (s : State) : (resetBlock s).shift = 0 := rfl
@[simp] theorem resetBlock_bitcnt (s : State) : (resetBlock s).bitcnt = 0 := rfl
@[simp] theorem resetBlock_pollcnt (s : State) : (resetBlock s).pollcnt = 0 := rfl
@[simp] theorem resetBlock_regI (s : State) : (resetBlock s).regI = 0 := rfl
@[simp] theorem resetBlock_regJ (s : State) : (resetBlock s).regJ = 0 := rfl
@[simp] theorem resetBlock_regM (s : State) : (resetBlock s).regM = 0 := rfl
@[simp] theorem resetBlock_rdata (s : State) : (resetBlock s).rdata = 0 := rfl
@[simp] theorem resetBlock_dlycnt (s : State) : (resetBlock s).dlycnt = 0 := rfl
@[simp] theorem resetBlock_msgt (s : State) : (resetBlock s).msgt = s.msgt := rfl
@[simp] theorem resetBlock_buf (s : State) : (resetBlock s).buf = s.buf := rfl
@[simp] theorem resetBlock_trace (s : State) : (resetBlock s).trace = s.trace := rfl
@[simp] theorem resetBlock_bus (s : State) : (resetBlock s).bus = s.bus := rfl
@[simp] theorem resetBlock_samples (s : State) : (resetBlock s).samples = s.samples := rfl
@[simp] theorem resetBlock_host (s : State) : (resetBlock s).host = s.host := rfl

/-! ### engineCycle -/

theorem engineCycle_busy {s : State} (h : s.busy = true) : engineCycle s = endCompletion s := by simp [engineCycle, h]

theorem engineCycle_idle {s : State} (h : s.busy = false) : engineCycle s = s := by simp [engineCycle, h]

end Sys2Proof.Machine
end

