-- ==== Sys2Proof/Laws/Memory.lean ====
section
/-! SUPPORT. The two memories: a read after a write, and that every operation keeps the canonical form. -/

namespace Sys2Proof.Machine

variable {α : Type}

/-- What reads at `b` after a write at `a`. -/
theorem Memory.read_write (m : List (Nat × α)) (a b : Nat) (v : α) (h : (m.map Prod.fst).Pairwise (· < ·)) :
    Memory.read (Memory.write a v m) b = if b = a then some v else Memory.read m b := by
  induction m with
  | nil => simp [Memory.write, Memory.read]
  | cons c rest ih =>
    obtain ⟨k, u⟩ := c
    simp only [List.map_cons, List.pairwise_cons] at h
    simp only [Memory.write]
    split
    · simp only [Memory.read]
    · split
      · subst_vars
        simp only [Memory.read]
        split <;> rfl
      · simp only [Memory.read, ih h.2]
        split
        · have : b ≠ a := by omega
          simp only [this, if_false]
        · rfl

/-- An address below every listed one is unlisted. -/
theorem Memory.map_fst_write (m : List (Nat × α)) (a : Nat) (v : α) (b : Nat) :
    b ∈ (Memory.write a v m).map Prod.fst ↔ b = a ∨ b ∈ m.map Prod.fst := by
  induction m with
  | nil => simp [Memory.write]
  | cons c rest ih =>
    obtain ⟨k, u⟩ := c
    simp only [Memory.write]
    split
    · simp
    · split
      · subst_vars; simp
      · simp only [List.map_cons, List.mem_cons, ih]; tauto

/-- A write keeps the addresses strictly rising. -/
theorem Memory.rising_write (m : List (Nat × α)) (a : Nat) (v : α) (h : (m.map Prod.fst).Pairwise (· < ·)) :
    ((Memory.write a v m).map Prod.fst).Pairwise (· < ·) := by
  induction m with
  | nil => simp [Memory.write]
  | cons c rest ih =>
    obtain ⟨k, u⟩ := c
    have h' := h
    simp only [List.map_cons, List.pairwise_cons] at h
    simp only [Memory.write]
    split
    · simp only [List.map_cons, List.pairwise_cons, List.mem_cons]
      refine ⟨?_, h.1, h.2⟩
      rintro b (rfl | hb)
      · assumption
      · have := h.1 b hb; omega
    · split
      · subst_vars; exact h'
      · simp only [List.map_cons, List.pairwise_cons]
        refine ⟨?_, ih h.2⟩
        intro b hb
        rcases (Memory.map_fst_write rest a v b).1 hb with rfl | hb
        · omega
        · exact h.1 b hb

/-- A write inside the memory keeps the canonical form. -/
theorem Memory.wf_write {size : Nat} (m : List (Nat × α)) (a : Nat) (v : α) (ha : a < size) (h : Memory.wf size m) :
    Memory.wf size (Memory.write a v m) := by
  refine ⟨Memory.rising_write m a v h.1, ?_⟩
  rintro ⟨b, u⟩ hb
  have hm : b ∈ (Memory.write a v m).map Prod.fst := List.mem_map_of_mem hb
  rcases (Memory.map_fst_write m a v b).1 hm with rfl | hm
  · exact ha
  · obtain ⟨c, hc, rfl⟩ := List.mem_map.1 hm
    exact h.2 c hc

/-- The empty memory is canonical. -/
theorem Memory.wf_nil (size : Nat) : Memory.wf size ([] : List (Nat × α)) :=
  ⟨List.Pairwise.nil, by simp⟩

/-- An address below every listed one reads as nothing. -/
theorem Memory.read_below (m : List (Nat × α)) (a : Nat) (h : ∀ b ∈ m.map Prod.fst, a < b) : Memory.read m a = none := by
  induction m with
  | nil => rfl
  | cons c rest ih =>
    obtain ⟨k, u⟩ := c
    have hk : a ≠ k := Nat.ne_of_lt (h k (by simp))
    simp only [Memory.read, hk, if_false]
    exact ih fun b hb => h b (by simp [hb])

/-- Equal memories are equal data: two lists in canonical form that read alike are the same list. -/
theorem Memory.ext_of_read (m m' : List (Nat × α)) (h : (m.map Prod.fst).Pairwise (· < ·))
    (h' : (m'.map Prod.fst).Pairwise (· < ·)) (hr : ∀ a, Memory.read m a = Memory.read m' a) : m = m' := by
  induction m generalizing m' with
  | nil =>
    cases m' with
    | nil => rfl
    | cons c' rest' => have := hr c'.1; simp [Memory.read] at this
  | cons c rest ih =>
    cases m' with
    | nil => have := hr c.1; simp [Memory.read] at this
    | cons c' rest' =>
      obtain ⟨k, u⟩ := c
      obtain ⟨k', u'⟩ := c'
      simp only [List.map_cons, List.pairwise_cons] at h h'
      have hkk : k = k' := by
        rcases Nat.lt_trichotomy k k' with hlt | heq | hgt
        · have hn : Memory.read ((k', u') :: rest') k = none :=
            Memory.read_below _ k (by
              simp only [List.map_cons, List.mem_cons]
              rintro b (rfl | hb)
              · exact hlt
              · exact Nat.lt_trans hlt (h'.1 b hb))
          have := hr k
          rw [hn] at this
          simp [Memory.read] at this
        · exact heq
        · have hn : Memory.read ((k, u) :: rest) k' = none :=
            Memory.read_below _ k' (by
              simp only [List.map_cons, List.mem_cons]
              rintro b (rfl | hb)
              · exact hgt
              · exact Nat.lt_trans hgt (h.1 b hb))
          have := hr k'
          rw [hn] at this
          simp [Memory.read] at this
      subst hkk
      have huu : u = u' := by simpa [Memory.read] using hr k
      subst huu
      have hrest : rest = rest' := by
        refine ih rest' h.2 h'.2 fun a => ?_
        by_cases ha : a = k
        · subst ha
          rw [Memory.read_below rest a h.1, Memory.read_below rest' a h'.1]
        · simpa [Memory.read, ha] using hr a
      rw [hrest]

/-- Every write of `BUF` keeps its canonical form. -/
theorem buf_wf_write (b : List Host.Cell) (a : Half) (v : Byte) (h : Memory.wf bufSize b) :
    Memory.wf bufSize (Memory.write a.toNat v b) :=
  Memory.wf_write _ _ _ (by simpa [bufSize] using a.isLt) h

/-- Every write of `MSGT` keeps its canonical form. -/
theorem msgt_wf_write (m : List (Nat × MsgWord)) (k : MsgIndex) (e : MsgWord) (h : Memory.wf msgtSize m) :
    Memory.wf msgtSize (Memory.write k.toNat e m) :=
  Memory.wf_write _ _ _ (by simpa [msgtSize] using k.isLt) h

/-- `BUF[b]` after a write of `BUF[a]`, in a state whose memory is canonical. -/
theorem bufByte_memWrite (s : State) (a b : Half) (v : Byte) (h : Memory.wf bufSize s.buf) :
    bufByte (memWrite a v s) b = if b = a then v else bufByte s b := by
  simp only [bufByte, memWrite_buf, Memory.read_write _ _ _ _ h.1, BitVec.toNat_inj]
  split <;> rfl

/-- `BUF[b]` depends on the memory alone. -/
theorem bufByte_congr {s t : State} (h : s.buf = t.buf) (a : Half) : bufByte s a = bufByte t a := by
  simp [bufByte, h]

/-- `MSGT[k]` depends on the table alone. -/
theorem msgEntry_congr {s t : State} (h : s.msgt = t.msgt) (k : MsgIndex) : msgEntry s k = msgEntry t k := by
  simp [msgEntry, h]

end Sys2Proof.Machine
end

