-- ==== Sys2Proof/Laws/Procs.lean ====
section
/-! SUPPORT. Each procedure of the block in closed form: one equation per procedure says everything it does, so that
later proofs cite it and unfold nothing. -/

namespace Sys2Proof.Machine

/-! ## Signal primitives and Init -/

theorem startProc_eq (s : State) :
    startProc s = { s with sclOut := false, sdaOut := false, dlycnt := 0, trace := s.trace ++ startEvents } := by
  apply State.ext <;> simp [startProc, startEvents]

theorem stopProc_eq (s : State) :
    stopProc s = { s with sclOut := true, sdaOut := true, dlycnt := 0, trace := s.trace ++ stopEvents } := by
  apply State.ext <;> simp [stopProc, stopEvents]

theorem initProc_eq (s : State) :
    initProc s = { s with sclOut := true, sdaOut := true, sdaDir := .out, trace := s.trace ++ initEvents } := by
  apply State.ext <;> simp [initProc, initEvents]

theorem masterAck_eq (level : Level) (s : State) :
    masterAck level s =
      { s with sclOut := false, sdaOut := level, sdaDir := .out, dlycnt := 0,
               trace := s.trace ++ masterAckEvents level } := by
  apply State.ext <;> simp [masterAck, masterAckEvents]

/-! ## The bus agent's answers -/

theorem sampleAt_congr {s t : State} (hb : s.bus = t.bus) (hn : s.samples = t.samples) (k : Nat) :
    sampleAt s k = sampleAt t k := by
  simp [sampleAt, hb, hn]

theorem samplesOf_congr {s t : State} (hb : s.bus = t.bus) (hn : s.samples = t.samples) (k : Nat) :
    samplesOf s k = samplesOf t k := by
  simp [samplesOf, sampleAt, hb, hn]

theorem highsWithin_congr {s t : State} (hb : s.bus = t.bus) (hn : s.samples = t.samples) (pb : Nat) :
    highsWithin pb s = highsWithin pb t := by
  have : sampleAt s = sampleAt t := funext (sampleAt_congr hb hn)
  rw [highsWithin, highsWithin, this]

theorem nextSample_congr {s t : State} (hb : s.bus = t.bus) (hn : s.samples = t.samples) :
    nextSample s = nextSample t := by
  simp [nextSample, hb, hn]

/-- The next sample is the first of the answers to come. -/
theorem sampleAt_zero (s : State) : sampleAt s 0 = nextSample s := by
  simp [sampleAt, nextSample, List.head?_eq_getElem?]

/-- After a sample, the answers to come are those that stood behind it. -/
theorem sampleAt_smp (s : State) (k : Nat) : sampleAt (smp s).2 k = sampleAt s (k + 1) := by
  simp only [sampleAt, smp_bus, smp_samples, List.getElem?_tail]
  congr 2; omega

theorem samplesOf_succ (s : State) (n : Nat) : samplesOf s (n + 1) = nextSample s :: samplesOf (smp s).2 n := by
  simp [samplesOf, List.range_succ_eq_map, sampleAt_zero, sampleAt_smp, Function.comp_def]

@[simp] theorem samplesOf_length (s : State) (n : Nat) : (samplesOf s n).length = n := by
  simp [samplesOf]

theorem highsWithin_eq (pb : Nat) (s : State) : highsWithin pb s = ((samplesOf s pb).takeWhile (· == true)).length := rfl

theorem highsWithin_zero (s : State) : highsWithin 0 s = 0 := by
  simp [highsWithin, highsOf]

theorem highsWithin_succ_low (s : State) (n : Nat) (h : nextSample s = false) : highsWithin (n + 1) s = 0 := by
  simp [highsWithin_eq, samplesOf_succ, h]

theorem highsWithin_succ_high (s : State) (n : Nat) (h : nextSample s = true) :
    highsWithin (n + 1) s = highsWithin n (smp s).2 + 1 := by
  simp [highsWithin_eq, samplesOf_succ, h]

theorem highsWithin_le (pb : Nat) (s : State) : highsWithin pb s ≤ pb := by
  have := List.IsPrefix.length_le (List.takeWhile_prefix (fun b => b == true) (l := samplesOf s pb))
  simpa [highsWithin_eq] using this

/-- The first low answer, where there is one within the budget, ends the count. -/
theorem highsWithin_eq_of_low (pb k : Nat) (s : State) (hk : k < pb) (hlow : sampleAt s k = false)
    (hhigh : ∀ i < k, sampleAt s i = true) : highsWithin pb s = k := by
  induction pb generalizing k s with
  | zero => omega
  | succ n ih =>
    cases k with
    | zero => exact highsWithin_succ_low s n (by rw [← sampleAt_zero]; exact hlow)
    | succ k =>
      rw [highsWithin_succ_high s n (by rw [← sampleAt_zero]; exact hhigh 0 (by omega)),
        ih k _ (by omega) (by rw [sampleAt_smp]; exact hlow)
          (fun i hi => by rw [sampleAt_smp]; exact hhigh (i + 1) (by omega))]

/-- Where every answer within the budget is high, the count is the budget. -/
theorem highsWithin_eq_of_high (pb : Nat) (s : State) (hhigh : ∀ i < pb, sampleAt s i = true) :
    highsWithin pb s = pb := by
  induction pb generalizing s with
  | zero => exact highsWithin_zero s
  | succ n ih =>
    rw [highsWithin_succ_high s n (by rw [← sampleAt_zero]; exact hhigh 0 (by omega)),
      ih _ (fun i hi => by rw [sampleAt_smp]; exact hhigh (i + 1) (by omega))]

/-! ## The acknowledge wait -/

theorem one_le_pb (p : Params) : 1 ≤ p.pb := by simp [Params.pb]

theorem pb_le (p : Params) : p.pb ≤ 65535 := by
  have := p.budgetLessOne.isLt
  unfold Params.pb
  omega

theorem ackSuccess_eq (s : State) :
    ackSuccess s = (.ok, { s with sclOut := false, sdaOut := true, sdaDir := .out,
                                  trace := s.trace ++ [.scl false, .sda true, .dir .out] }) := by
  refine Prod.ext rfl ?_
  apply State.ext <;> simp [ackSuccess]

theorem ackTimeout_eq (s : State) :
    ackTimeout s = (.tmo, { s with sclOut := true, sdaOut := true, sdaDir := .out, dlycnt := 0,
                                   trace := s.trace ++ [.sda true, .dir .out] ++ stopEvents }) := by
  refine Prod.ext rfl ?_
  apply State.ext <;> simp [ackTimeout, stopProc_eq]

theorem ackPoll_eq (left : Nat) (s : State) (hd : s.dlycnt = 0) :
    ackPoll left s =
      (ackStatus left (highsWithin left s),
       { s with
         sclOut := !decide (highsWithin left s < left)
         sdaOut := true
         sdaDir := .out
         dlycnt := 0
         pollcnt := s.pollcnt + BitVec.ofNat 16 (highsWithin left s)
         bus := s.bus.drop (samplesTaken left (highsWithin left s))
         samples := s.samples + samplesTaken left (highsWithin left s)
         trace := s.trace ++ List.replicate (highsWithin left s) (.smp true) ++
           (if highsWithin left s < left then [.smp false, .scl false, .sda true, .dir .out]
            else [.sda true, .dir .out] ++ stopEvents) }) := by
  induction left generalizing s with
  | zero =>
    simp only [ackPoll, ackTimeout_eq, highsWithin_zero, ackStatus, samplesTaken]
    refine Prod.ext rfl ?_
    apply State.ext <;> simp
  | succ n ih =>
    cases hb : nextSample s with
    | false =>
      have hs : smp s = (false, (smp s).2) := Prod.ext hb rfl
      rw [highsWithin_succ_low s n hb, ackPoll, hs]
      simp only [ackSuccess_eq, ackStatus, samplesTaken, Nat.zero_lt_succ, if_true, Nat.zero_add]
      refine Prod.ext rfl ?_
      apply State.ext <;> simp [hb, hd]
    | true =>
      have hs : smp s = (true, (smp s).2) := Prod.ext hb rfl
      have hh : highsWithin n (countPoll (smp s).2) = highsWithin n (smp s).2 :=
        highsWithin_congr (by simp) (by simp) n
      rw [highsWithin_succ_high s n hb, ackPoll, hs]
      simp only
      rw [ih (countPoll (smp s).2) (by simpa using hd), hh]
      generalize highsWithin n (smp s).2 = h
      have hmin : samplesTaken (n + 1) (h + 1) = samplesTaken n h + 1 := by simp only [samplesTaken]; omega
      simp only [ackStatus, hmin, Nat.add_lt_add_iff_right]
      refine Prod.ext rfl ?_
      apply State.ext <;> simp [hb, List.replicate_succ]
      · rw [BitVec.add_assoc, BitVec.add_comm (1#16), ← BitVec.ofNat_add]
      · omega

theorem ackClock_eq (s : State) :
    ackClock s = { s with sclOut := true, sdaDir := .inp, dlycnt := 0, pollcnt := 0,
                          trace := s.trace ++ ackHeadEvents } := by
  apply State.ext <;> simp [ackClock, ackHeadEvents]

theorem highs_congr {s t : State} (hp : s.params = t.params) (hb : s.bus = t.bus) (hn : s.samples = t.samples) :
    highs s = highs t := by
  rw [highs, highs, hp, highsWithin_congr hb hn]

theorem highs_le (s : State) : highs s ≤ s.params.pb := highsWithin_le _ _

/-- The state in which the AckWait that begins in `s` ends, but for the events it appends. -/
def ackEnd (s : State) : State :=
  { s with
    sclOut := !decide (highs s < s.params.pb)
    sdaOut := true
    sdaDir := .out
    dlycnt := 0
    pollcnt := BitVec.ofNat 16 (highs s)
    bus := s.bus.drop (samplesTaken s.params.pb (highs s))
    samples := s.samples + samplesTaken s.params.pb (highs s) }

/-- `AckWait()`, whole. -/
theorem ackWait_eq (s : State) :
    ackWait s = (ackStatus s.params.pb (highs s),
      { ackEnd s with trace := s.trace ++ ackEvents s.params.pb (highs s) }) := by
  have hh : highsWithin s.params.pb (ackClock s) = highs s :=
    highsWithin_congr (by simp [ackClock]) (by simp [ackClock]) _
  rw [ackWait, ackPoll_eq _ _ (by simp [ackClock]), hh, ackClock_eq]
  refine Prod.ext rfl ?_
  apply State.ext <;> simp [ackEnd, ackEvents, List.append_assoc]

/-! ## Sending a byte -/

theorem sendBit_eq (s : State) :
    sendBit s =
      { s with sclOut := true, sdaOut := s.shift.msb, dlycnt := 0, shift := s.shift <<< 1, bitcnt := s.bitcnt + 1,
               trace := s.trace ++ bitEvents s.shift.msb } := by
  apply State.ext <;> simp [sendBit, bitEvents]

/-- The bit loop of a sent byte: eight bits, most significant first; `SHIFT` ends at zero, `BITCNT` at eight. -/
theorem sendBits_eight (v : Byte) (s : State) :
    sendBits 8 (setBitcnt 0 (setShift v s)) =
      { s with sclOut := true, sdaOut := v.getLsbD 0, dlycnt := 0, shift := 0, bitcnt := 8,
               trace := s.trace ++ (bitsOf v).flatMap bitEvents } := by
  have h0 : v.msb = v.getLsbD 7 := by simp [BitVec.msb_eq_getLsbD_last]
  have h1 : (v <<< 1).msb = v.getLsbD 6 := by revert v; decide
  have h2 : (v <<< 1 <<< 1).msb = v.getLsbD 5 := by revert v; decide
  have h3 : (v <<< 1 <<< 1 <<< 1).msb = v.getLsbD 4 := by revert v; decide
  have h4 : (v <<< 1 <<< 1 <<< 1 <<< 1).msb = v.getLsbD 3 := by revert v; decide
  have h5 : (v <<< 1 <<< 1 <<< 1 <<< 1 <<< 1).msb = v.getLsbD 2 := by revert v; decide
  have h6 : (v <<< 1 <<< 1 <<< 1 <<< 1 <<< 1 <<< 1).msb = v.getLsbD 1 := by revert v; decide
  have h7 : (v <<< 1 <<< 1 <<< 1 <<< 1 <<< 1 <<< 1 <<< 1).msb = v.getLsbD 0 := by revert v; decide
  have h8 : v <<< 1 <<< 1 <<< 1 <<< 1 <<< 1 <<< 1 <<< 1 <<< 1 = 0#8 := by revert v; decide
  simp only [sendBits, sendBit_eq, setBitcnt, setShift, h0, h1, h2, h3, h4, h5, h6, h7, h8]
  apply State.ext <;> simp [bitsOf, List.append_assoc]

/-- The state in which a `SendByte(v)` that begins in `s` ends. -/
def sentState (v : Byte) (s : State) : State :=
  { ackEnd s with
    shift := 0
    bitcnt := 8
    trace := s.trace ++ sendEvents s.params.pb v (highs s) }

/-- `SendByte(v)`, whole. -/
theorem sendByte_eq (v : Byte) (s : State) :
    sendByte v s = (ackStatus s.params.pb (highs s), sentState v s) := by
  rw [sendByte, sendBits_eight, ackWait_eq]
  refine Prod.ext ?_ ?_
  · exact congrArg (ackStatus s.params.pb) (highs_congr rfl rfl rfl)
  · have hh := fun (t : State) (h : t.params = s.params ∧ t.bus = s.bus ∧ t.samples = s.samples) =>
      highs_congr h.1 h.2.1 h.2.2
    apply State.ext <;> simp [sentState, ackEnd, sendEvents, hh]

/-- `STATUS <- call SendByte(v)`, whole. -/
theorem sendKeepStatus_eq (v : Byte) (s : State) :
    sendKeepStatus v s = { sentState v s with status := ackStatus s.params.pb (highs s) } := by
  rw [sendKeepStatus, sendByte_eq]; rfl

/-- `call SendByte(v)` with its result discarded, whole. -/
theorem sendDropStatus_eq (v : Byte) (s : State) : sendDropStatus v s = sentState v s := by
  rw [sendDropStatus, sendByte_eq]

/-! ## Receiving a byte -/

theorem readBit_eq (s : State) :
    readBit s =
      { s with sclOut := true, dlycnt := 0, shift := s.shift.extractLsb' 0 7 ++ BitVec.ofBool (nextSample s),
               bitcnt := s.bitcnt + 1, bus := s.bus.tail, samples := s.samples + 1,
               trace := s.trace ++ sampleEvents (nextSample s) } := by
  have hn : nextSample (scl true (dly (scl false s))) = nextSample s := nextSample_congr (by simp) (by simp)
  have h1 : (smp (scl true (dly (scl false s)))).1 = nextSample s := hn
  apply State.ext <;> simp [readBit, sampleEvents, h1, hn]

/-- The bits of the byte whose bits are given, most significant first. -/
theorem bitsOf_byteOf (b0 b1 b2 b3 b4 b5 b6 b7 : Bool) :
    bitsOf (byteOf [b0, b1, b2, b3, b4, b5, b6, b7]) = [b0, b1, b2, b3, b4, b5, b6, b7] := by
  revert b0 b1 b2 b3 b4 b5 b6 b7; decide

/-- A byte from its own bits. -/
theorem byteOf_bitsOf (v : Byte) : byteOf (bitsOf v) = v := by
  revert v; decide

/-- Where `n` samples have been taken, the next answer is the one that stood `n` places behind. -/
theorem nextSample_drop (s t : State) (n : Nat) (hb : t.bus = s.bus.drop n) (hn : t.samples = s.samples + n) :
    nextSample t = sampleAt s n := by
  simp [nextSample, sampleAt, hb, hn, List.head?_eq_getElem?]

/-- One bit shifted into `SHIFT`, in both of the forms R149 gives. -/
theorem shiftIn_forms (v : Byte) (b : Bool) :
    (v.extractLsb' 0 7 ++ BitVec.ofBool b : Byte) = (v <<< 1) ||| (if b then 1#8 else 0#8) := by
  revert v b; decide

/-- The bit loop of a received byte, for any number of bits. -/
theorem readBits_eq (n : Nat) (s : State) :
    readBits n s =
      { s with
        sclOut := decide (0 < n) || s.sclOut
        dlycnt := if n = 0 then s.dlycnt else 0
        shift := (samplesOf s n).foldl (fun acc b => (acc <<< 1) ||| (if b then 1#8 else 0#8)) s.shift
        bitcnt := s.bitcnt + BitVec.ofNat 4 n
        bus := s.bus.drop n
        samples := s.samples + n
        trace := s.trace ++ (samplesOf s n).flatMap sampleEvents } := by
  induction n generalizing s with
  | zero => apply State.ext <;> simp [readBits, samplesOf]
  | succ n ih =>
    have hs : samplesOf (readBit s) n = samplesOf (smp s).2 n :=
      samplesOf_congr (by simp [readBit_eq]) (by simp [readBit_eq]) n
    rw [readBits, ih, hs, samplesOf_succ, readBit_eq]
    apply State.ext <;> simp [shiftIn_forms, List.append_assoc]
    · rw [BitVec.add_assoc, BitVec.add_comm (1#4), ← BitVec.ofNat_add]
    · omega

/-- The byte the next eight answers make, the first as bit 7 (R145). -/
def nextByte (s : State) : Byte := byteOf (samplesOf s 8)

/-- The state in which a `ReadByte(ack)` that begins in `s` ends. -/
def readState (ack : Bool) (s : State) : State :=
  { s with
    sclOut := false
    sdaOut := !ack
    sdaDir := .out
    dlycnt := 0
    shift := nextByte s
    bitcnt := 8
    bus := s.bus.drop 8
    samples := s.samples + 8
    trace := s.trace ++ readEvents ack (nextByte s) }

theorem bitsOf_nextByte (s : State) : bitsOf (nextByte s) = samplesOf s 8 := bitsOf_byteOf _ _ _ _ _ _ _ _

/-- `ReadByte(ack)`, whole. -/
theorem readByte_eq (ack : Bool) (s : State) : readByte ack s = (nextByte s, readState ack s) := by
  have hs : samplesOf (setBitcnt 0 (setShift 0 (dir .inp s))) 8 = samplesOf s 8 :=
    samplesOf_congr (by simp) (by simp) 8
  rw [readByte, readBits_eq, hs, masterAck_eq]
  refine Prod.ext ?_ ?_
  · simp [nextByte, byteOf]
  · apply State.ext <;> simp [readState, readEvents, bitsOf_nextByte]
    simp [nextByte, byteOf]

end Sys2Proof.Machine
end

