-- ==== Sys2Proof/Laws/Closure.lean ====
section
/-! SUPPORT. What every command keeps, said once: a property closed under the micro-operations is closed under the
procedures, and one closed under the procedures is kept by every command and by every loop inside it. -/

namespace Sys2Proof.Machine

/-- `P` is kept by every micro-operation (R12) and by every write of a working register or of `STATUS` inside a command. -/
structure MicroClosed (P : State → Prop) : Prop where
  sda : ∀ v s, P s → P (sda v s)
  scl : ∀ v s, P s → P (scl v s)
  dir : ∀ d s, P s → P (dir d s)
  dly : ∀ s, P s → P (dly s)
  smp : ∀ s, P s → P (smp s).2
  memRead : ∀ a s, P s → P (memRead a s).2
  memWrite : ∀ a v s, P s → P (memWrite a v s)
  setShift : ∀ v s, P s → P (setShift v s)
  shiftOut : ∀ s, P s → P (shiftOut s)
  shiftIn : ∀ b s, P s → P (shiftIn b s)
  setBitcnt : ∀ n s, P s → P (setBitcnt n s)
  countBit : ∀ s, P s → P (countBit s)
  setPollcnt : ∀ n s, P s → P (setPollcnt n s)
  countPoll : ∀ s, P s → P (countPoll s)
  setI : ∀ n s, P s → P (setI n s)
  setJ : ∀ n s, P s → P (setJ n s)
  setM : ∀ e s, P s → P (setM e s)
  setStatus : ∀ r s, P s → P (setStatus r s)

/-- `P` is kept by every procedure a command calls and by every write between two of them. -/
structure ProcClosed (P : State → Prop) : Prop where
  start : ∀ s, P s → P (startProc s)
  stop : ∀ s, P s → P (stopProc s)
  init : ∀ s, P s → P (initProc s)
  send : ∀ v s, P s → P (sendByte v s).2
  read : ∀ ack s, P s → P (readByte ack s).2
  memRead : ∀ a s, P s → P (memRead a s).2
  memWrite : ∀ a v s, P s → P (memWrite a v s)
  setI : ∀ n s, P s → P (setI n s)
  setJ : ∀ n s, P s → P (setJ n s)
  setM : ∀ e s, P s → P (setM e s)
  setStatus : ∀ r s, P s → P (setStatus r s)

/-- `P` is kept, beyond the procedures, by acceptance, by completion and by the two commands that write a register of
their own. -/
structure CommandClosed (P : State → Prop) : Prop extends ProcClosed P where
  accept : ∀ op s, P s → P (accept op s)
  finish : ∀ s, P s → P (finish s)
  setRdata : ∀ v s, P s → P (setRdata v s)
  setHalfPeriod : ∀ n s, P s → P (setHalfPeriod n s)

variable {P : State → Prop}

namespace MicroClosed

variable (h : MicroClosed P)
include h

theorem startProc (s : State) (hs : P s) : P (startProc s) :=
  h.scl _ _ (h.dly _ (h.sda _ _ (h.dly _ (h.scl _ _ (h.sda _ _ hs)))))

theorem stopProc (s : State) (hs : P s) : P (stopProc s) :=
  h.sda _ _ (h.dly _ (h.scl _ _ (h.dly _ (h.sda _ _ (h.scl _ _ hs)))))

theorem initProc (s : State) (hs : P s) : P (initProc s) :=
  h.dir _ _ (h.sda _ _ (h.scl _ _ hs))

theorem ackPoll (left : Nat) (s : State) (hs : P s) : P (ackPoll left s).2 := by
  induction left generalizing s with
  | zero => exact h.stopProc _ (h.dir _ _ (h.sda _ _ hs))
  | succ n ih =>
    have hsmp : P (Machine.smp s).2 := h.smp s hs
    cases hb : Machine.smp s with
    | mk b t =>
      rw [hb] at hsmp
      cases b with
      | false =>
        simp only [Machine.ackPoll, hb]
        exact h.dir _ _ (h.sda _ _ (h.scl _ _ hsmp))
      | true =>
        simp only [Machine.ackPoll, hb]
        exact ih _ (h.countPoll _ hsmp)

theorem sendBits (n : Nat) (s : State) (hs : P s) : P (sendBits n s) := by
  induction n generalizing s with
  | zero => exact hs
  | succ n ih =>
    exact ih _ (h.countBit _ (h.shiftOut _ (h.dly _ (h.scl _ _ (h.sda _ _ (h.dly _ (h.scl _ _ hs)))))))

theorem sendByte (v : Byte) (s : State) (hs : P s) : P (sendByte v s).2 :=
  h.ackPoll _ _ (h.setPollcnt _ _ (h.dly _ (h.scl _ _ (h.dly _ (h.scl _ _ (h.dir _ _
    (h.sendBits _ _ (h.setBitcnt _ _ (h.setShift _ _ hs)))))))))

theorem readBits (n : Nat) (s : State) (hs : P s) : P (readBits n s) := by
  induction n generalizing s with
  | zero => exact hs
  | succ n ih =>
    exact ih _ (h.countBit _ (h.dly _ (h.shiftIn _ _ (h.smp _ (h.scl _ _ (h.dly _ (h.scl _ _ hs)))))))

theorem readByte (ack : Bool) (s : State) (hs : P s) : P (readByte ack s).2 :=
  h.scl _ _ (h.dly _ (h.scl _ _ (h.dly _ (h.dir _ _ (h.sda _ _ (h.scl _ _
    (h.readBits _ _ (h.setBitcnt _ _ (h.setShift _ _ (h.dir _ _ hs))))))))))

/-- A property the micro-operations keep is kept by the procedures. -/
theorem procClosed : ProcClosed P where
  start := h.startProc
  stop := h.stopProc
  init := h.initProc
  send := h.sendByte
  read := h.readByte
  memRead := h.memRead
  memWrite := h.memWrite
  setI := h.setI
  setJ := h.setJ
  setM := h.setM
  setStatus := h.setStatus

end MicroClosed

namespace ProcClosed

variable (h : ProcClosed P)
include h

theorem sendKeepStatus (v : Byte) (s : State) (hs : P s) : P (sendKeepStatus v s) :=
  h.setStatus _ _ (h.send _ _ hs)

theorem sendDropStatus (v : Byte) (s : State) (hs : P s) : P (sendDropStatus v s) :=
  h.send _ _ hs

theorem sendLoop (n : Nat) (ptr : Half) (s : State) (hs : P s) : P (sendLoop n ptr s) := by
  induction n generalizing s with
  | zero => exact hs
  | succ n ih => exact ih _ (h.setJ _ _ (h.sendKeepStatus _ _ (h.memRead _ _ hs)))

theorem readLoop (n : Nat) (ptr : Half) (s : State) (hs : P s) : P (readLoop n ptr s) := by
  induction n generalizing s with
  | zero => exact hs
  | succ n ih => exact ih _ (h.setJ _ _ (h.memWrite _ _ _ (h.read _ _ hs)))

theorem sendBuffer (ptr len : Half) (s : State) (hs : P s) : P (sendBuffer ptr len s) :=
  h.sendLoop _ _ _ (h.setJ _ _ hs)

theorem readBuffer (ptr len : Half) (s : State) (hs : P s) : P (readBuffer ptr len s) :=
  h.readLoop _ _ _ (h.setJ _ _ hs)

theorem legStart (s : State) (hs : P s) : P (legStart s) := by
  unfold Machine.legStart
  split
  · exact h.start _ hs
  · split
    · exact h.start _ hs
    · exact hs

theorem legBody (s : State) (hs : P s) : P (legBody s) := by
  unfold Machine.legBody
  split
  · exact h.sendBuffer _ _ _ hs
  · exact h.readBuffer _ _ _ hs

theorem leg (mbase : MsgIndex) (s : State) (hs : P s) : P (leg mbase s).2 := by
  have hl : P (loadMsg mbase s) := h.setM _ _ hs
  have hh : P (legHead (loadMsg mbase s)) := h.sendKeepStatus _ _ (h.legStart _ hl)
  unfold Machine.leg
  simp only
  split
  · exact h.legBody _ hl
  · split
    · exact hh
    · exact h.legBody _ hh

theorem messageLoop (n : Nat) (mbase : MsgIndex) (s : State) (hs : P s) : P (messageLoop n mbase s) := by
  induction n generalizing s with
  | zero => exact hs
  | succ n ih =>
    have hl := h.leg mbase s hs
    unfold Machine.messageLoop
    split
    · next t heq => rw [heq] at hl; exact hl
    · next t heq => rw [heq] at hl; exact ih _ (h.setI _ _ hl)

theorem transfer (mbase : MsgIndex) (count : Half) (s : State) (hs : P s) : P (transfer mbase count s) :=
  h.stop _ (h.messageLoop _ _ _ (h.setI _ _ hs))

theorem regWrite (wide : Bool) (dev : Byte) (reg ptr len : Half) (s : State) (hs : P s) :
    P (regWrite wide dev reg ptr len s) := by
  cases wide
  · exact h.stop _ (h.sendBuffer _ _ _ (h.sendKeepStatus _ _ (h.sendKeepStatus _ _ (h.start _ hs))))
  · exact h.stop _ (h.sendBuffer _ _ _ (h.sendKeepStatus _ _ (h.sendKeepStatus _ _ (h.sendKeepStatus _ _ (h.start _ hs)))))

theorem regRead (wide : Bool) (dev : Byte) (reg ptr len : Half) (s : State) (hs : P s) :
    P (regRead wide dev reg ptr len s) := by
  cases wide
  · exact h.stop _ (h.readBuffer _ _ _ (h.sendDropStatus _ _ (h.start _ (h.sendDropStatus _ _ (h.sendDropStatus _ _
      (h.start _ hs))))))
  · exact h.stop _ (h.readBuffer _ _ _ (h.sendDropStatus _ _ (h.start _ (h.sendDropStatus _ _ (h.sendDropStatus _ _
      (h.sendDropStatus _ _ (h.start _ hs)))))))

end ProcClosed

/-- What a command does between its acceptance and its completion. -/
def commandBody : Instr → State → State
  | .init, s => initProc s
  | .start, s => startProc s
  | .stop, s => stopProc s
  | .writeByte b, s => sendKeepStatus b s
  | .readByte ack, s => setRdata (readByte ack s).1 (readByte ack s).2
  | .xfer mbase count, s => transfer mbase count s
  | .wreg8 dev reg ptr len, s => regWrite false dev (regOfByte reg) ptr len s
  | .wreg16 dev reg ptr len, s => regWrite true dev reg ptr len s
  | .rreg8 dev reg ptr len, s => regRead false dev (regOfByte reg) ptr len s
  | .rreg16 dev reg ptr len, s => regRead true dev reg ptr len s
  | .setcfg halfPeriod, s => setHalfPeriod halfPeriod s

/-- Every command is accepted, runs its pseudocode, and completes (R32, R33). -/
theorem exec_eq (i : Instr) (s : State) : exec i s = .next (finish (commandBody i (accept i.opcode s))) := by
  cases i <;> rfl

/-- A property the procedures keep, and the two commands with a register of their own, is kept between acceptance and
completion. -/
theorem ProcClosed.body (h : ProcClosed P) (hr : ∀ v s, P s → P (setRdata v s))
    (hh : ∀ n s, P s → P (setHalfPeriod n s)) (i : Instr) {s : State} (hs : P s) : P (commandBody i s) := by
  cases i with
  | init => exact h.init _ hs
  | start => exact h.start _ hs
  | stop => exact h.stop _ hs
  | writeByte b => exact h.sendKeepStatus _ _ hs
  | readByte ack => exact hr _ _ (h.read _ _ hs)
  | xfer mbase count => exact h.transfer _ _ _ hs
  | wreg8 dev reg ptr len => exact h.regWrite _ _ _ _ _ _ hs
  | wreg16 dev reg ptr len => exact h.regWrite _ _ _ _ _ _ hs
  | rreg8 dev reg ptr len => exact h.regRead _ _ _ _ _ _ hs
  | rreg16 dev reg ptr len => exact h.regRead _ _ _ _ _ _ hs
  | setcfg n => exact hh _ _ hs

/-- A property closed under the parts of a command is kept by every command. -/
theorem CommandClosed.exec (h : CommandClosed P) {i : Instr} {s t : State} (hs : P s) (he : exec i s = .next t) : P t := by
  rw [exec_eq] at he
  injection he with he
  subst he
  exact h.finish _ (h.toProcClosed.body h.setRdata h.setHalfPeriod i (h.accept _ _ hs))

end Sys2Proof.Machine
end

