-- ==== Sys2Proof/Laws/Decode.lean ====
section
/-! SUPPORT. The fields of an assembled word and of a packed message entry are the ones it was made of. -/

namespace Sys2Proof

/-- A field moved to its place contributes its own bits there and nothing below. -/
theorem getLsbD_placed {n w : Nat} (x : BitVec n) (place k : Nat) :
    (x.setWidth w <<< place).getLsbD k = (decide (k < w) && !decide (k < place) && x.getLsbD (k - place)) := by
  simp only [BitVec.getLsbD_shiftLeft, BitVec.getLsbD_setWidth]
  by_cases hk : k < w
  · have : k - place < w := by omega
    simp [hk, this]
  · simp [hk]

/-- A field contributes nothing above its own bits. -/
theorem getLsbD_beyond {n : Nat} (x : BitVec n) {k : Nat} (h : n ≤ k) : x.getLsbD k = false :=
  BitVec.getLsbD_of_ge x k h

section Word

variable (op : BitVec 4) (b : Byte) (reg ptr len : Half)

@[simp] theorem fieldOp_assemble : fieldOp (assemble op b reg ptr len) = op := by
  apply BitVec.eq_of_getLsbD_eq
  intro i hi
  have e : 60 + i < 64 := by omega
  simp only [fieldOp, assemble, BitVec.getLsbD_extractLsb', BitVec.getLsbD_or, getLsbD_placed, BitVec.getLsbD_setWidth,
    getLsbD_beyond b (show 8 ≤ 60 + i - 48 by omega),
    getLsbD_beyond reg (show 16 ≤ 60 + i - 32 by omega),
    getLsbD_beyond ptr (show 16 ≤ 60 + i - 16 by omega),
    getLsbD_beyond len (show 16 ≤ 60 + i by omega)]
  simp [hi, e]

@[simp] theorem fieldB_assemble : fieldB (assemble op b reg ptr len) = b := by
  apply BitVec.eq_of_getLsbD_eq
  intro i hi
  have e : 48 + i < 64 ∧ 48 + i < 60 := by omega
  simp only [fieldB, assemble, BitVec.getLsbD_extractLsb', BitVec.getLsbD_or, getLsbD_placed, BitVec.getLsbD_setWidth,
    getLsbD_beyond reg (show 16 ≤ 48 + i - 32 by omega),
    getLsbD_beyond ptr (show 16 ≤ 48 + i - 16 by omega),
    getLsbD_beyond len (show 16 ≤ 48 + i by omega)]
  simp [hi, e]

@[simp] theorem fieldReg_assemble : fieldReg (assemble op b reg ptr len) = reg := by
  apply BitVec.eq_of_getLsbD_eq
  intro i hi
  have e : 32 + i < 64 ∧ 32 + i < 60 ∧ 32 + i < 48 := by omega
  simp only [fieldReg, assemble, BitVec.getLsbD_extractLsb', BitVec.getLsbD_or, getLsbD_placed, BitVec.getLsbD_setWidth,
    getLsbD_beyond ptr (show 16 ≤ 32 + i - 16 by omega),
    getLsbD_beyond len (show 16 ≤ 32 + i by omega)]
  simp [hi, e]

@[simp] theorem fieldPtr_assemble : fieldPtr (assemble op b reg ptr len) = ptr := by
  apply BitVec.eq_of_getLsbD_eq
  intro i hi
  have e : 16 + i < 64 ∧ 16 + i < 60 ∧ 16 + i < 48 ∧ 16 + i < 32 := by omega
  simp only [fieldPtr, assemble, BitVec.getLsbD_extractLsb', BitVec.getLsbD_or, getLsbD_placed, BitVec.getLsbD_setWidth,
    getLsbD_beyond len (show 16 ≤ 16 + i by omega)]
  simp [hi, e]

@[simp] theorem fieldLen_assemble : fieldLen (assemble op b reg ptr len) = len := by
  apply BitVec.eq_of_getLsbD_eq
  intro i hi
  have e : 0 + i < 64 ∧ 0 + i < 60 ∧ 0 + i < 48 ∧ 0 + i < 32 ∧ 0 + i < 16 := by omega
  simp only [fieldLen, assemble, BitVec.getLsbD_extractLsb', BitVec.getLsbD_or, getLsbD_placed, BitVec.getLsbD_setWidth]
  simp only [e, decide_true, Bool.not_true, Bool.and_false, Bool.false_and, Bool.false_or, Bool.true_and]
  simp [hi]

@[simp] theorem fieldZ_assemble : fieldZ (assemble op b reg ptr len) = 0#4 := by
  apply BitVec.eq_of_getLsbD_eq
  intro i hi
  have e : 56 + i < 64 ∧ 56 + i < 60 := by omega
  simp only [fieldZ, assemble, BitVec.getLsbD_extractLsb', BitVec.getLsbD_or, getLsbD_placed, BitVec.getLsbD_setWidth,
    getLsbD_beyond b (show 8 ≤ 56 + i - 48 by omega),
    getLsbD_beyond reg (show 16 ≤ 56 + i - 32 by omega),
    getLsbD_beyond ptr (show 16 ≤ 56 + i - 16 by omega),
    getLsbD_beyond len (show 16 ≤ 56 + i by omega)]
  simp [hi, e]

end Word

/-- The low byte of a byte widened to the `reg` field. -/
@[simp] theorem extractLsb_setWidth_byte (r : Byte) : (r.setWidth 16).extractLsb' 0 8 = r := by
  apply BitVec.eq_of_getLsbD_eq
  intro i hi
  have : i < 16 := by omega
  simp only [BitVec.getLsbD_extractLsb', BitVec.getLsbD_setWidth]
  simp [hi, this]

section Message

variable (addr : Byte) (d : MsgDir) (ns : Bool) (len ptr : Half)

@[simp] theorem msgAddr_packMsg : msgAddr (packMsg addr d ns len ptr) = addr := by
  apply BitVec.eq_of_getLsbD_eq
  intro i hi
  have e : 34 + i < 42 := by omega
  simp only [msgAddr, packMsg, BitVec.getLsbD_extractLsb', BitVec.getLsbD_or, getLsbD_placed, BitVec.getLsbD_setWidth,
    getLsbD_beyond (BitVec.ofBool (decide (d = .rd))) (show 1 ≤ 34 + i - 33 by omega),
    getLsbD_beyond (BitVec.ofBool ns) (show 1 ≤ 34 + i - 32 by omega),
    getLsbD_beyond len (show 16 ≤ 34 + i - 16 by omega), getLsbD_beyond ptr (show 16 ≤ 34 + i by omega)]
  simp [hi, e]

@[simp] theorem msgDir_packMsg : msgDir (packMsg addr d ns len ptr) = d := by
  simp only [msgDir, packMsg, BitVec.getLsbD_or, getLsbD_placed, BitVec.getLsbD_setWidth,
    getLsbD_beyond (BitVec.ofBool ns) (show 1 ≤ 33 - 32 by omega),
    getLsbD_beyond len (show 16 ≤ 33 - 16 by omega), getLsbD_beyond ptr (show 16 ≤ 33 by omega)]
  cases d <;> simp

@[simp] theorem msgNostart_packMsg : msgNostart (packMsg addr d ns len ptr) = ns := by
  simp only [msgNostart, packMsg, BitVec.getLsbD_or, getLsbD_placed, BitVec.getLsbD_setWidth,
    getLsbD_beyond len (show 16 ≤ 32 - 16 by omega), getLsbD_beyond ptr (show 16 ≤ 32 by omega)]
  cases ns <;> simp

@[simp] theorem msgLen_packMsg : msgLen (packMsg addr d ns len ptr) = len := by
  apply BitVec.eq_of_getLsbD_eq
  intro i hi
  have e : 16 + i < 42 ∧ 16 + i < 34 ∧ 16 + i < 33 ∧ 16 + i < 32 := by omega
  simp only [msgLen, packMsg, BitVec.getLsbD_extractLsb', BitVec.getLsbD_or, getLsbD_placed, BitVec.getLsbD_setWidth,
    getLsbD_beyond ptr (show 16 ≤ 16 + i by omega)]
  simp [hi, e]

@[simp] theorem msgPtr_packMsg : msgPtr (packMsg addr d ns len ptr) = ptr := by
  apply BitVec.eq_of_getLsbD_eq
  intro i hi
  have e : 0 + i < 42 ∧ 0 + i < 34 ∧ 0 + i < 33 ∧ 0 + i < 32 ∧ 0 + i < 16 := by omega
  simp only [msgPtr, packMsg, BitVec.getLsbD_extractLsb', BitVec.getLsbD_or, getLsbD_placed, BitVec.getLsbD_setWidth]
  simp only [e, decide_true, Bool.not_true, Bool.and_false, Bool.false_and, Bool.false_or, Bool.true_and, hi]
  simp

end Message

end Sys2Proof
end

