-- ==== Sys2Proof/Laws/Loops.lean ====
section
/-! SUPPORT. The byte loops of the commands in closed form: what they append to the trace, the status they leave, the
answers they use up, and what they write to `BUF`. -/

namespace Sys2Proof.Machine

/-! ## Answers used up -/

/-- Where `n` answers have been used, the next are those `n` places behind. -/
theorem sampleAt_of_drop {s t : State} {n : Nat} (hb : t.bus = s.bus.drop n) (hn : t.samples = s.samples + n) :
    sampleAt t = fun k => sampleAt s (k + n) := by
  funext k
  simp only [sampleAt, hb, hn, List.getElem?_drop]
  rw [Nat.add_comm n k, Nat.add_assoc, Nat.add_comm n k]

@[simp] theorem sentState_params (v : Byte) (s : State) : (sentState v s).params = s.params := rfl
@[simp] theorem sentState_buf (v : Byte) (s : State) : (sentState v s).buf = s.buf := rfl
@[simp] theorem sentState_bus (v : Byte) (s : State) :
    (sentState v s).bus = s.bus.drop (samplesTaken s.params.pb (highs s)) := rfl
@[simp] theorem sentState_samples (v : Byte) (s : State) :
    (sentState v s).samples = s.samples + samplesTaken s.params.pb (highs s) := rfl
@[simp] theorem sentState_trace (v : Byte) (s : State) :
    (sentState v s).trace = s.trace ++ sendEvents s.params.pb v (highs s) := rfl
@[simp] theorem sentState_regI (v : Byte) (s : State) : (sentState v s).regI = s.regI := rfl
@[simp] theorem sentState_regJ (v : Byte) (s : State) : (sentState v s).regJ = s.regJ := rfl
@[simp] theorem sentState_regM (v : Byte) (s : State) : (sentState v s).regM = s.regM := rfl
@[simp] theorem sentState_msgt (v : Byte) (s : State) : (sentState v s).msgt = s.msgt := rfl

@[simp] theorem readState_params (ack : Bool) (s : State) : (readState ack s).params = s.params := rfl
@[simp] theorem readState_buf (ack : Bool) (s : State) : (readState ack s).buf = s.buf := rfl
@[simp] theorem readState_bus (ack : Bool) (s : State) : (readState ack s).bus = s.bus.drop 8 := rfl
@[simp] theorem readState_samples (ack : Bool) (s : State) : (readState ack s).samples = s.samples + 8 := rfl
@[simp] theorem readState_trace (ack : Bool) (s : State) :
    (readState ack s).trace = s.trace ++ readEvents ack (nextByte s) := rfl
@[simp] theorem readState_status (ack : Bool) (s : State) : (readState ack s).status = s.status := rfl
@[simp] theorem readState_regI (ack : Bool) (s : State) : (readState ack s).regI = s.regI := rfl
@[simp] theorem readState_regJ (ack : Bool) (s : State) : (readState ack s).regJ = s.regJ := rfl
@[simp] theorem readState_regM (ack : Bool) (s : State) : (readState ack s).regM = s.regM := rfl
@[simp] theorem readState_msgt (ack : Bool) (s : State) : (readState ack s).msgt = s.msgt := rfl

theorem highs_eq_highsOf (s : State) : highs s = highsOf s.params.pb (sampleAt s) := rfl

theorem nextByte_eq_byteAt (s : State) : nextByte s = byteAt (sampleAt s) 0 := by
  simp [nextByte, byteAt, samplesOf]

/-! ## Counts of several bytes -/

theorem ackCounts_length (pb : Nat) (answers : Nat → Level) (n : Nat) : (ackCounts pb answers n).length = n := by
  induction n generalizing answers with
  | zero => rfl
  | succ n ih => simp [ackCounts, ih]

theorem samplesForCounts_cons (pb k : Nat) (counts : List Nat) :
    samplesForCounts pb (k :: counts) = samplesTaken pb k + samplesForCounts pb counts := by
  simp [samplesForCounts]

theorem samplesForCounts_append (pb : Nat) (a b : List Nat) :
    samplesForCounts pb (a ++ b) = samplesForCounts pb a + samplesForCounts pb b := by
  simp [samplesForCounts]

/-- The counts of `m + n` bytes are those of the first `m`, then those of the next `n` from the answers left. -/
theorem ackCounts_add (pb : Nat) (answers : Nat → Level) (m n : Nat) :
    ackCounts pb answers (m + n) =
      ackCounts pb answers m ++
        ackCounts pb (fun i => answers (i + samplesForCounts pb (ackCounts pb answers m))) n := by
  induction m generalizing answers with
  | zero => simp [ackCounts, samplesForCounts]
  | succ m ih =>
    rw [show m + 1 + n = (m + n) + 1 by omega]
    simp only [ackCounts, ih, samplesForCounts_cons, List.cons_append]
    congr 3
    funext i
    congr 1
    omega

/-! ## The write loop -/

/-- The cells a loop of `n` bytes reads, from byte `j` of the buffer at `ptr` on. -/
def cellsFrom (s : State) (ptr j : Half) (n : Nat) : List (Half × Byte) :=
  (List.range n).map fun i => (ptr + (j + BitVec.ofNat 16 i), bufByte s (ptr + (j + BitVec.ofNat 16 i)))

theorem cellsFrom_succ (s : State) (ptr j : Half) (n : Nat) :
    cellsFrom s ptr j (n + 1) = (ptr + j, bufByte s (ptr + j)) :: cellsFrom s ptr (j + 1) n := by
  simp only [cellsFrom, List.range_succ_eq_map, List.map_cons, List.map_map]
  congr 1
  · simp
  · apply List.map_congr_left
    intro i _
    have : j + BitVec.ofNat 16 (i + 1) = j + 1 + BitVec.ofNat 16 i := by
      rw [BitVec.add_assoc, Nat.add_comm i 1, BitVec.ofNat_add]; rfl
    simp [this]

theorem cellsFrom_congr {s t : State} (h : s.buf = t.buf) (ptr j : Half) (n : Nat) :
    cellsFrom s ptr j n = cellsFrom t ptr j n := by
  simp [cellsFrom, bufByte_congr h]

/-- What a write loop of `n` bytes does. -/
theorem sendLoop_spec (n : Nat) (ptr : Half) (s : State) :
    (sendLoop n ptr s).trace = s.trace ++
      sendBufferEvents s.params.pb (cellsFrom s ptr s.regJ n) (ackCounts s.params.pb (sampleAt s) n) ∧
    (sendLoop n ptr s).status =
      ((ackCounts s.params.pb (sampleAt s) n).getLast?.map (ackStatus s.params.pb)).getD s.status ∧
    (sendLoop n ptr s).bus = s.bus.drop (samplesForCounts s.params.pb (ackCounts s.params.pb (sampleAt s) n)) ∧
    (sendLoop n ptr s).samples = s.samples + samplesForCounts s.params.pb (ackCounts s.params.pb (sampleAt s) n) ∧
    (sendLoop n ptr s).buf = s.buf := by
  induction n generalizing s with
  | zero => simp [sendLoop, ackCounts, cellsFrom, sendBufferEvents, samplesForCounts]
  | succ n ih =>
    have hk : highs (memRead (bufAddr ptr s.regJ) s).2 = highs s := highs_congr (by simp) (by simp) (by simp)
    have hv : (memRead (bufAddr ptr s.regJ) s).1 = bufByte s (ptr + s.regJ) := rfl
    have hu : (memRead (bufAddr ptr s.regJ) s).2.trace = s.trace ++ [.rd (ptr + s.regJ) (bufByte s (ptr + s.regJ))] := by
      simp [bufAddr]
    simp only [sendLoop, sendKeepStatus_eq]
    set t := setJ _ _ with ht
    have hp : t.params = s.params := by simp [ht]
    have hbuf : t.buf = s.buf := by simp [ht]
    have hj : t.regJ = s.regJ + 1 := by simp [ht]
    have hb : t.bus = s.bus.drop (samplesTaken s.params.pb (highs s)) := by simp [ht, hk]
    have hn : t.samples = s.samples + samplesTaken s.params.pb (highs s) := by simp [ht, hk]
    have hst : t.status = ackStatus s.params.pb (highs s) := by simp [ht, hk]
    have htr : t.trace = s.trace ++ [.rd (ptr + s.regJ) (bufByte s (ptr + s.regJ))] ++
        sendEvents s.params.pb (bufByte s (ptr + s.regJ)) (highs s) := by
      simp only [ht, setJ_trace, sentState_trace, hu, hv, hk, memRead_params]
    obtain ⟨h1, h2, h3, h4, h5⟩ := ih t
    rw [h1, h2, h3, h4, h5, hp, hbuf, hj, hb, hn, hst, htr, sampleAt_of_drop hb hn, cellsFrom_congr hbuf,
      cellsFrom_succ]
    simp only [ackCounts, ← highs_eq_highsOf, samplesForCounts_cons, sendBufferEvents, List.zip_cons_cons,
      List.flatMap_cons, List.drop_drop]
    refine ⟨by simp, ?_, trivial, by omega, trivial⟩
    cases hc : ackCounts s.params.pb (fun k => sampleAt s (k + samplesTaken s.params.pb (highs s))) n with
    | nil => simp
    | cons a l => rw [List.getLast?_cons_cons, List.getLast?_eq_getLast_of_ne_nil (by simp)]; rfl

/-! ## The read loop -/

/-- The cells a loop of `n` bytes fills, from byte `j` of the buffer at `ptr` on, with these answers. -/
def filledFrom (answers : Nat → Level) (ptr j : Half) (n : Nat) : List (Half × Byte) :=
  (List.range n).map fun i => (ptr + (j + BitVec.ofNat 16 i), byteAt answers (8 * i))

theorem byteAt_shift (answers : Nat → Level) (m n : Nat) :
    byteAt (fun k => answers (k + m)) n = byteAt answers (m + n) := by
  simp only [byteAt]
  congr 1
  apply List.map_congr_left
  intro i _
  congr 1
  omega

theorem filledFrom_succ (answers : Nat → Level) (ptr j : Half) (n : Nat) :
    filledFrom answers ptr j (n + 1) =
      (ptr + j, byteAt answers 0) :: filledFrom (fun k => answers (k + 8)) ptr (j + 1) n := by
  simp only [filledFrom, List.range_succ_eq_map, List.map_cons, List.map_map]
  congr 1
  · simp
  · apply List.map_congr_left
    intro i _
    have : j + BitVec.ofNat 16 (i + 1) = j + 1 + BitVec.ofNat 16 i := by
      rw [BitVec.add_assoc, Nat.add_comm i 1, BitVec.ofNat_add]; rfl
    simp only [Function.comp_apply, Nat.succ_eq_add_one, this, byteAt_shift]
    congr 2
    omega

theorem filledFrom_length (answers : Nat → Level) (ptr j : Half) (n : Nat) : (filledFrom answers ptr j n).length = n := by
  simp [filledFrom]

/-- A buffer memory after these cells have been written, in order. -/
def writeCells (cells : List (Half × Byte)) (m : List Host.Cell) : List Host.Cell :=
  cells.foldl (fun m c => Memory.write c.1.toNat c.2 m) m

/-- What a read loop of `n` bytes does. -/
theorem readLoop_spec (n : Nat) (ptr : Half) (s : State) :
    (readLoop n ptr s).trace = s.trace ++ readBufferEvents (filledFrom (sampleAt s) ptr s.regJ n) ∧
    (readLoop n ptr s).status = s.status ∧
    (readLoop n ptr s).bus = s.bus.drop (8 * n) ∧
    (readLoop n ptr s).samples = s.samples + 8 * n ∧
    (readLoop n ptr s).buf = writeCells (filledFrom (sampleAt s) ptr s.regJ n) s.buf := by
  induction n generalizing s with
  | zero => simp [readLoop, filledFrom, readBufferEvents, writeCells]
  | succ n ih =>
    simp only [readLoop, readByte_eq]
    set t := setJ _ _ with ht
    have hj : t.regJ = s.regJ + 1 := by simp [ht]
    have hb : t.bus = s.bus.drop 8 := by simp [ht]
    have hn : t.samples = s.samples + 8 := by simp [ht]
    have hst : t.status = s.status := by simp [ht]
    have hbuf : t.buf = Memory.write (ptr + s.regJ).toNat (byteAt (sampleAt s) 0) s.buf := by
      simp [ht, bufAddr, nextByte_eq_byteAt]
    have htr : t.trace = s.trace ++ readEvents (decide (n ≠ 0)) (byteAt (sampleAt s) 0) ++
        [.wr (ptr + s.regJ) (byteAt (sampleAt s) 0)] := by
      simp [ht, bufAddr, nextByte_eq_byteAt]
    obtain ⟨h1, h2, h3, h4, h5⟩ := ih t
    rw [h1, h2, h3, h4, h5, hj, hb, hn, hst, hbuf, htr, sampleAt_of_drop hb hn, filledFrom_succ]
    have hne : decide (filledFrom (fun k => sampleAt s (k + 8)) ptr (s.regJ + 1) n ≠ []) = decide (n ≠ 0) := by
      have := filledFrom_length (fun k => sampleAt s (k + 8)) ptr (s.regJ + 1) n
      cases n with
      | zero => rfl
      | succ n =>
        have h : filledFrom (fun k => sampleAt s (k + 8)) ptr (s.regJ + 1) (n + 1) ≠ [] := by
          intro h0; rw [h0] at this; simp at this
        rw [decide_eq_true h]; rfl
    refine ⟨?_, rfl, ?_, by omega, rfl⟩
    · rw [readBufferEvents, hne]; simp
    · rw [List.drop_drop]; congr 1; omega

/-- Reading a memory after writing cells whose addresses are all different. -/
theorem read_writeCells (cells : List (Half × Byte)) (m : List Host.Cell) (h : Memory.wf bufSize m)
    (hd : (cells.map Prod.fst).Nodup) (a : Half) :
    (∀ v, (a, v) ∈ cells → Memory.read (writeCells cells m) a.toNat = some v) ∧
    ((∀ c ∈ cells, c.1 ≠ a) → Memory.read (writeCells cells m) a.toNat = Memory.read m a.toNat) := by
  induction cells generalizing m with
  | nil => exact ⟨fun v hv => by simp at hv, fun _ => rfl⟩
  | cons c rest ih =>
    obtain ⟨b, u⟩ := c
    simp only [List.map_cons, List.nodup_cons] at hd
    obtain ⟨ih1, ih2⟩ := ih _ (buf_wf_write m b u h) hd.2
    have hw : writeCells ((b, u) :: rest) m = writeCells rest (Memory.write b.toNat u m) := rfl
    rw [hw]
    constructor
    · intro v hv
      rcases List.mem_cons.1 hv with hv | hv
      · injection hv with h1 h2
        subst h1 h2
        rw [ih2 fun c hc hca => hd.1 (List.mem_map.2 ⟨c, hc, hca⟩), Memory.read_write _ _ _ _ h.1]
        simp
      · exact ih1 v hv
    · intro hno
      rw [ih2 fun c hc => hno c (List.mem_cons_of_mem _ hc), Memory.read_write _ _ _ _ h.1]
      have : a ≠ b := fun e => hno (b, u) (List.mem_cons_self ..) e.symm
      simp [BitVec.toNat_inj, this]

/-- The addresses of a buffer of at most 65535 bytes are all different. -/
theorem filledFrom_nodup (answers : Nat → Level) (ptr j : Half) (n : Nat) (hn : n ≤ 65536) :
    ((filledFrom answers ptr j n).map Prod.fst).Nodup := by
  simp only [filledFrom, List.map_map]
  refine List.Nodup.map_on ?_ List.nodup_range
  intro x hx y hy hxy
  have hx := List.mem_range.1 hx
  have hy := List.mem_range.1 hy
  simp only [Function.comp_apply, BitVec.add_right_inj] at hxy
  have := congrArg BitVec.toNat hxy
  simp only [BitVec.toNat_ofNat] at this
  omega

/-! ## What the loops leave alone -/

/-- Everything a write loop leaves alone. -/
theorem sendLoop_keeps (n : Nat) (ptr : Half) (s : State) :
    (sendLoop n ptr s).params = s.params ∧ (sendLoop n ptr s).halfPeriod = s.halfPeriod ∧
    (sendLoop n ptr s).busy = s.busy ∧ (sendLoop n ptr s).seq = s.seq ∧ (sendLoop n ptr s).rspValid = s.rspValid ∧
    (sendLoop n ptr s).bufWe = s.bufWe ∧ (sendLoop n ptr s).cmd = s.cmd ∧ (sendLoop n ptr s).regI = s.regI ∧
    (sendLoop n ptr s).regM = s.regM ∧ (sendLoop n ptr s).rdata = s.rdata ∧ (sendLoop n ptr s).msgt = s.msgt ∧
    (sendLoop n ptr s).buf = s.buf ∧ (sendLoop n ptr s).host = s.host := by
  induction n generalizing s with
  | zero => simp [sendLoop]
  | succ n ih =>
    simp only [sendLoop, sendKeepStatus_eq]
    exact ih _

/-- Everything a read loop leaves alone. -/
theorem readLoop_keeps (n : Nat) (ptr : Half) (s : State) :
    (readLoop n ptr s).params = s.params ∧ (readLoop n ptr s).halfPeriod = s.halfPeriod ∧
    (readLoop n ptr s).status = s.status ∧
    (readLoop n ptr s).busy = s.busy ∧ (readLoop n ptr s).seq = s.seq ∧ (readLoop n ptr s).rspValid = s.rspValid ∧
    (readLoop n ptr s).cmd = s.cmd ∧ (readLoop n ptr s).pollcnt = s.pollcnt ∧ (readLoop n ptr s).regI = s.regI ∧
    (readLoop n ptr s).regM = s.regM ∧ (readLoop n ptr s).rdata = s.rdata ∧ (readLoop n ptr s).msgt = s.msgt ∧
    (readLoop n ptr s).host = s.host := by
  induction n generalizing s with
  | zero => simp [readLoop]
  | succ n ih =>
    simp only [readLoop, readByte_eq]
    exact ih _

/-! ## The last values of the working registers -/

/-- The last count behind a first one is the last of the rest, else the first. -/
theorem getLast?_cons_getD {α β : Type} (f : α → β) (a : α) (l : List α) (b : β) :
    ((a :: l).getLast?.map f).getD b = (l.getLast?.map f).getD (f a) := by
  cases l with
  | nil => rfl
  | cons c l => rw [List.getLast?_cons_cons, List.getLast?_eq_getLast_of_ne_nil (by simp)]; rfl

/-- Where a write loop leaves its own registers, the delay counter and `SDA_DIR`. -/
theorem sendLoop_last (n : Nat) (ptr : Half) (s : State) :
    (sendLoop n ptr s).regJ = s.regJ + BitVec.ofNat 16 n ∧
    (sendLoop n ptr s).shift = (if n = 0 then s.shift else 0) ∧
    (sendLoop n ptr s).bitcnt = (if n = 0 then s.bitcnt else 8) ∧
    (sendLoop n ptr s).pollcnt =
      ((ackCounts s.params.pb (sampleAt s) n).getLast?.map (BitVec.ofNat 16)).getD s.pollcnt ∧
    (sendLoop n ptr s).dlycnt = (if n = 0 then s.dlycnt else 0) ∧
    (sendLoop n ptr s).sdaDir = (if n = 0 then s.sdaDir else .out) := by
  induction n generalizing s with
  | zero => simp [sendLoop, ackCounts]
  | succ n ih =>
    have hk : highs (memRead (bufAddr ptr s.regJ) s).2 = highs s := highs_congr (by simp) (by simp) (by simp)
    simp only [sendLoop, sendKeepStatus_eq]
    set t := setJ _ _ with ht
    have hp : t.params = s.params := by simp [ht]
    have hj : t.regJ = s.regJ + 1 := by simp [ht]
    have hb : t.bus = s.bus.drop (samplesTaken s.params.pb (highs s)) := by simp [ht, hk]
    have hn : t.samples = s.samples + samplesTaken s.params.pb (highs s) := by simp [ht, hk]
    have hs : t.shift = 0 := by simp [ht, sentState]
    have hc : t.bitcnt = 8 := by simp [ht, sentState]
    have hd : t.dlycnt = 0 := by simp [ht, sentState, ackEnd]
    have hdir : t.sdaDir = .out := by simp [ht, sentState, ackEnd]
    have hpc : t.pollcnt = BitVec.ofNat 16 (highs s) := by simp [ht, sentState, ackEnd, hk]
    obtain ⟨h1, h2, h3, h4, h5, h6⟩ := ih t
    rw [h1, h2, h3, h4, h5, h6, hp, hj, hs, hc, hd, hdir, hpc, sampleAt_of_drop hb hn, ackCounts, getLast?_cons_getD,
      ← highs_eq_highsOf, BitVec.add_assoc, Nat.add_comm n 1, BitVec.ofNat_add]
    simp

/-- Where a read loop leaves its own registers, the delay counter, `SDA_DIR` and the strobe. -/
theorem readLoop_last (n : Nat) (ptr : Half) (s : State) :
    (readLoop n ptr s).regJ = s.regJ + BitVec.ofNat 16 n ∧
    (readLoop n ptr s).shift = ((filledFrom (sampleAt s) ptr s.regJ n).getLast?.map Prod.snd).getD s.shift ∧
    (readLoop n ptr s).bitcnt = (if n = 0 then s.bitcnt else 8) ∧
    (readLoop n ptr s).dlycnt = (if n = 0 then s.dlycnt else 0) ∧
    (readLoop n ptr s).sdaDir = (if n = 0 then s.sdaDir else .out) ∧
    (readLoop n ptr s).bufWe = (s.bufWe && decide (n = 0)) := by
  induction n generalizing s with
  | zero => simp [readLoop, filledFrom]
  | succ n ih =>
    simp only [readLoop, readByte_eq]
    set t := setJ _ _ with ht
    have hj : t.regJ = s.regJ + 1 := by simp [ht]
    have hb : t.bus = s.bus.drop 8 := by simp [ht]
    have hn : t.samples = s.samples + 8 := by simp [ht]
    have hs : t.shift = byteAt (sampleAt s) 0 := by simp [ht, readState, nextByte_eq_byteAt]
    have hc : t.bitcnt = 8 := by simp [ht, readState]
    have hd : t.dlycnt = 0 := by simp [ht, readState]
    have hdir : t.sdaDir = .out := by simp [ht, readState]
    have hw : t.bufWe = false := by simp [ht]
    obtain ⟨h1, h2, h3, h4, h5, h6⟩ := ih t
    rw [h1, h2, h3, h4, h5, h6, hj, hs, hc, hd, hdir, hw, sampleAt_of_drop hb hn, filledFrom_succ, getLast?_cons_getD,
      BitVec.add_assoc, Nat.add_comm n 1, BitVec.ofNat_add]
    simp

/-! ## Several bytes sent one after another -/

/-- Send these bytes, keeping each status in turn (R195). -/
def sendAllKeep (bytes : List Byte) (s : State) : State := bytes.foldl (fun t v => sendKeepStatus v t) s

/-- Send these bytes, discarding each status (R196). -/
def sendAllDrop (bytes : List Byte) (s : State) : State := bytes.foldl (fun t v => sendDropStatus v t) s

/-- What sending these bytes does, each status kept in turn. -/
theorem sendAllKeep_spec (bytes : List Byte) (s : State) :
    (sendAllKeep bytes s).trace = s.trace ++ sendsEvents s.params.pb bytes (ackCounts s.params.pb (sampleAt s) bytes.length) ∧
    (sendAllKeep bytes s).status =
      ((ackCounts s.params.pb (sampleAt s) bytes.length).getLast?.map (ackStatus s.params.pb)).getD s.status ∧
    (sendAllKeep bytes s).bus = s.bus.drop (samplesForCounts s.params.pb (ackCounts s.params.pb (sampleAt s) bytes.length)) ∧
    (sendAllKeep bytes s).samples = s.samples + samplesForCounts s.params.pb (ackCounts s.params.pb (sampleAt s) bytes.length) ∧
    (sendAllKeep bytes s).buf = s.buf ∧ (sendAllKeep bytes s).params = s.params := by
  induction bytes generalizing s with
  | nil => simp [sendAllKeep, ackCounts, sendsEvents, samplesForCounts]
  | cons b bytes ih =>
    have e : sendAllKeep (b :: bytes) s = sendAllKeep bytes (sendKeepStatus b s) := rfl
    rw [e, sendKeepStatus_eq]
    generalize ht : ({ sentState b s with status := ackStatus s.params.pb (highs s) } : State) = t
    obtain ⟨h1, h2, h3, h4, h5, h6⟩ := ih t
    have hb : t.bus = s.bus.drop (samplesTaken s.params.pb (highs s)) := by rw [← ht]; try rfl
    have hn : t.samples = s.samples + samplesTaken s.params.pb (highs s) := by rw [← ht]; try rfl
    have hp : t.params = s.params := by rw [← ht]; try rfl
    have hst : t.status = ackStatus s.params.pb (highs s) := by rw [← ht]; try rfl
    have htr : t.trace = s.trace ++ sendEvents s.params.pb b (highs s) := by rw [← ht]; try rfl
    have hbu : t.buf = s.buf := by rw [← ht]; try rfl
    rw [h1, h2, h3, h4, h5, h6, hp, hb, hn, hst, htr, hbu, sampleAt_of_drop hb hn]
    simp only [List.length_cons, ackCounts, ← highs_eq_highsOf, samplesForCounts_cons, sendsEvents, List.zip_cons_cons,
      List.flatMap_cons, List.drop_drop]
    refine ⟨by simp, ?_, trivial, by omega, trivial, trivial⟩
    cases ackCounts s.params.pb (fun k => sampleAt s (k + samplesTaken s.params.pb (highs s))) bytes.length with
    | nil => simp
    | cons a l => rw [List.getLast?_cons_cons, List.getLast?_eq_getLast_of_ne_nil (by simp)]; rfl

/-- What sending these bytes does, each status discarded. -/
theorem sendAllDrop_spec (bytes : List Byte) (s : State) :
    (sendAllDrop bytes s).trace = s.trace ++ sendsEvents s.params.pb bytes (ackCounts s.params.pb (sampleAt s) bytes.length) ∧
    (sendAllDrop bytes s).status = s.status ∧
    (sendAllDrop bytes s).bus = s.bus.drop (samplesForCounts s.params.pb (ackCounts s.params.pb (sampleAt s) bytes.length)) ∧
    (sendAllDrop bytes s).samples = s.samples + samplesForCounts s.params.pb (ackCounts s.params.pb (sampleAt s) bytes.length) ∧
    (sendAllDrop bytes s).buf = s.buf ∧ (sendAllDrop bytes s).params = s.params := by
  induction bytes generalizing s with
  | nil => simp [sendAllDrop, ackCounts, sendsEvents, samplesForCounts]
  | cons b bytes ih =>
    have e : sendAllDrop (b :: bytes) s = sendAllDrop bytes (sendDropStatus b s) := rfl
    rw [e, sendDropStatus_eq]
    obtain ⟨h1, h2, h3, h4, h5, h6⟩ := ih (sentState b s)
    rw [h1, h2, h3, h4, h5, h6, sampleAt_of_drop (sentState_bus b s) (sentState_samples b s)]
    simp only [sentState_bus, sentState_samples, sentState_params, sentState_trace, sentState_buf, List.length_cons,
      ackCounts, ← highs_eq_highsOf, samplesForCounts_cons, sendsEvents, List.zip_cons_cons, List.flatMap_cons,
      List.drop_drop]
    refine ⟨by simp, rfl, trivial, by omega, trivial, trivial⟩

/-- Where sending one byte or more, each status kept, leaves the working registers and `SDA_DIR`. -/
theorem sendAllKeep_last (bytes : List Byte) (s : State) :
    (sendAllKeep bytes s).shift = (if bytes = [] then s.shift else 0) ∧
    (sendAllKeep bytes s).bitcnt = (if bytes = [] then s.bitcnt else 8) ∧
    (sendAllKeep bytes s).pollcnt =
      ((ackCounts s.params.pb (sampleAt s) bytes.length).getLast?.map (BitVec.ofNat 16)).getD s.pollcnt ∧
    (sendAllKeep bytes s).dlycnt = (if bytes = [] then s.dlycnt else 0) ∧
    (sendAllKeep bytes s).sdaDir = (if bytes = [] then s.sdaDir else .out) := by
  induction bytes generalizing s with
  | nil => simp [sendAllKeep, ackCounts]
  | cons b bytes ih =>
    have e : sendAllKeep (b :: bytes) s = sendAllKeep bytes (sendKeepStatus b s) := rfl
    rw [e, sendKeepStatus_eq]
    set t : State := { sentState b s with status := _ } with ht
    have hb : t.bus = s.bus.drop (samplesTaken s.params.pb (highs s)) := by simp [ht]
    have hn : t.samples = s.samples + samplesTaken s.params.pb (highs s) := by simp [ht]
    obtain ⟨h1, h2, h3, h4, h5⟩ := ih t
    rw [h1, h2, h3, h4, h5, sampleAt_of_drop hb hn, List.length_cons, ackCounts, getLast?_cons_getD, ← highs_eq_highsOf]
    simp [ht, sentState, ackEnd]

/-- Where sending one byte or more, each status discarded, leaves the working registers and `SDA_DIR`. -/
theorem sendAllDrop_last (bytes : List Byte) (s : State) :
    (sendAllDrop bytes s).shift = (if bytes = [] then s.shift else 0) ∧
    (sendAllDrop bytes s).bitcnt = (if bytes = [] then s.bitcnt else 8) ∧
    (sendAllDrop bytes s).pollcnt =
      ((ackCounts s.params.pb (sampleAt s) bytes.length).getLast?.map (BitVec.ofNat 16)).getD s.pollcnt ∧
    (sendAllDrop bytes s).dlycnt = (if bytes = [] then s.dlycnt else 0) ∧
    (sendAllDrop bytes s).sdaDir = (if bytes = [] then s.sdaDir else .out) := by
  induction bytes generalizing s with
  | nil => simp [sendAllDrop, ackCounts]
  | cons b bytes ih =>
    have e : sendAllDrop (b :: bytes) s = sendAllDrop bytes (sendDropStatus b s) := rfl
    rw [e, sendDropStatus_eq]
    obtain ⟨h1, h2, h3, h4, h5⟩ := ih (sentState b s)
    rw [h1, h2, h3, h4, h5, sampleAt_of_drop (sentState_bus b s) (sentState_samples b s), List.length_cons, ackCounts,
      getLast?_cons_getD, ← highs_eq_highsOf]
    simp [sentState, ackEnd]

/-- Everything that sending bytes leaves alone. -/
theorem sendAllKeep_keeps (bytes : List Byte) (s : State) :
    (sendAllKeep bytes s).halfPeriod = s.halfPeriod ∧ (sendAllKeep bytes s).bufWe = s.bufWe ∧
    (sendAllKeep bytes s).cmd = s.cmd ∧ (sendAllKeep bytes s).regI = s.regI ∧ (sendAllKeep bytes s).regJ = s.regJ ∧
    (sendAllKeep bytes s).regM = s.regM ∧ (sendAllKeep bytes s).rdata = s.rdata ∧
    (sendAllKeep bytes s).busy = s.busy ∧ (sendAllKeep bytes s).seq = s.seq ∧
    (sendAllKeep bytes s).msgt = s.msgt ∧ (sendAllKeep bytes s).host = s.host := by
  induction bytes generalizing s with
  | nil => simp [sendAllKeep]
  | cons b bytes ih =>
    have e : sendAllKeep (b :: bytes) s = sendAllKeep bytes (sendKeepStatus b s) := rfl
    rw [e, sendKeepStatus_eq]
    exact ih _

/-- Everything that sending bytes, their statuses discarded, leaves alone. -/
theorem sendAllDrop_keeps (bytes : List Byte) (s : State) :
    (sendAllDrop bytes s).halfPeriod = s.halfPeriod ∧ (sendAllDrop bytes s).bufWe = s.bufWe ∧
    (sendAllDrop bytes s).cmd = s.cmd ∧ (sendAllDrop bytes s).regI = s.regI ∧ (sendAllDrop bytes s).regJ = s.regJ ∧
    (sendAllDrop bytes s).regM = s.regM ∧ (sendAllDrop bytes s).rdata = s.rdata ∧
    (sendAllDrop bytes s).busy = s.busy ∧ (sendAllDrop bytes s).seq = s.seq ∧
    (sendAllDrop bytes s).msgt = s.msgt ∧ (sendAllDrop bytes s).host = s.host := by
  induction bytes generalizing s with
  | nil => simp [sendAllDrop]
  | cons b bytes ih =>
    have e : sendAllDrop (b :: bytes) s = sendAllDrop bytes (sendDropStatus b s) := rfl
    rw [e, sendDropStatus_eq]
    exact ih _

end Sys2Proof.Machine
end

