-- ==== Sys2Proof/Laws/PerInstr.lean ====
section
/-! SUPPORT. Facts about every command as syntax, one lemma per constructor. Family `EncodedWord`: the word the encoder
writes has the opcode of the command and a clear `z` field (R91, R94). -/

namespace Sys2Proof.Laws

/-- The encoder's word has the command's opcode and a clear `z` field. -/
def EncodedWord.Statement (i : Instr) : Prop :=
  fieldOp (encode i) = i.opcode ∧ fieldZ (encode i) = 0#4

namespace EncodedWord

theorem init : Statement .init := ⟨fieldOp_assemble .., fieldZ_assemble ..⟩

theorem start : Statement .start := ⟨fieldOp_assemble .., fieldZ_assemble ..⟩

theorem stop : Statement .stop := ⟨fieldOp_assemble .., fieldZ_assemble ..⟩

theorem writeByte (b : Byte) : Statement (.writeByte b) := ⟨fieldOp_assemble .., fieldZ_assemble ..⟩

theorem readByte (ack : Bool) : Statement (.readByte ack) := ⟨fieldOp_assemble .., fieldZ_assemble ..⟩

theorem xfer (mbase : MsgIndex) (count : Half) : Statement (.xfer mbase count) :=
  ⟨fieldOp_assemble .., fieldZ_assemble ..⟩

theorem wreg8 (dev reg : Byte) (ptr len : Half) : Statement (.wreg8 dev reg ptr len) :=
  ⟨fieldOp_assemble .., fieldZ_assemble ..⟩

theorem wreg16 (dev : Byte) (reg ptr len : Half) : Statement (.wreg16 dev reg ptr len) :=
  ⟨fieldOp_assemble .., fieldZ_assemble ..⟩

theorem rreg8 (dev reg : Byte) (ptr len : Half) : Statement (.rreg8 dev reg ptr len) :=
  ⟨fieldOp_assemble .., fieldZ_assemble ..⟩

theorem rreg16 (dev : Byte) (reg ptr len : Half) : Statement (.rreg16 dev reg ptr len) :=
  ⟨fieldOp_assemble .., fieldZ_assemble ..⟩

theorem setcfg (halfPeriod : Half) : Statement (.setcfg halfPeriod) := ⟨fieldOp_assemble .., fieldZ_assemble ..⟩

end EncodedWord

end Sys2Proof.Laws
end

