-- ==== Sys2Proof/Laws/Step.lean ====
section
/-! SUPPORT. What a step can do, said once, and what replaying a trace does. -/

namespace Sys2Proof.Machine

/-! ## Properties kept by every command -/

/-- A property the micro-operations keep, and acceptance, completion and the two commands with a register of their own
keep, is kept by every command. -/
theorem MicroClosed.commandClosed {P : State → Prop} (h : MicroClosed P) (ha : ∀ op s, P s → P (accept op s))
    (hf : ∀ s, P s → P (finish s)) (hr : ∀ v s, P s → P (setRdata v s))
    (hh : ∀ n s, P s → P (setHalfPeriod n s)) : CommandClosed P where
  toProcClosed := h.procClosed
  accept := ha
  finish := hf
  setRdata := hr
  setHalfPeriod := hh

variable {i : Instr} {s t : State}

/-- No command changes a build parameter. -/
theorem exec_params (h : exec i s = .next t) : t.params = s.params :=
  (MicroClosed.commandClosed (P := fun t => t.params = s.params) (by constructor <;> simp) (by simp) (by simp) (by simp)
    (by simp)).exec rfl h

/-- No command touches what the host has still to do. -/
theorem exec_host (h : exec i s = .next t) : t.host = s.host :=
  (MicroClosed.commandClosed (P := fun t => t.host = s.host) (by constructor <;> simp) (by simp) (by simp) (by simp)
    (by simp)).exec rfl h

/-- No command changes the accepted word. -/
theorem exec_cmd (h : exec i s = .next t) : t.cmd = s.cmd :=
  (MicroClosed.commandClosed (P := fun t => t.cmd = s.cmd) (by constructor <;> simp) (by simp) (by simp) (by simp)
    (by simp)).exec rfl h

/-- No command writes the message table. -/
theorem exec_msgt (h : exec i s = .next t) : t.msgt = s.msgt :=
  (MicroClosed.commandClosed (P := fun t => t.msgt = s.msgt) (by constructor <;> simp) (by simp) (by simp) (by simp)
    (by simp)).exec rfl h

/-- Every command keeps the canonical form of the buffer memory. -/
theorem exec_buf_wf (hb : Memory.wf bufSize s.buf) (h : exec i s = .next t) : Memory.wf bufSize t.buf := by
  refine (MicroClosed.commandClosed (P := fun t => Memory.wf bufSize t.buf) ?_ (by simp) (by simp) (by simp)
    (by simp)).exec hb h
  constructor
  case memWrite => intro a v s hs; exact buf_wf_write _ _ _ hs
  all_goals simp

/-! ## Steps -/

/-- A presented word that is accepted runs the command it decodes to. -/
theorem runWord_next {w : CmdWord} (h : runWord w s = .next t) : ∃ i, decode w = .ok i ∧ exec i (latchCmd w s) = .next t := by
  unfold runWord at h
  simp only [latchCmd_cmd] at h
  split at h
  · next i hd => exact ⟨i, hd, h⟩
  · cases h
  · cases h

/-- What waits for `BUSY = 0` either ends the completing cycle or, at an idle engine, answers what it answers. -/
theorem whenIdle_next {r : Result} (h : whenIdle s r = .next t) :
    (s.busy = true ∧ t = endCompletion s) ∨ (s.busy = false ∧ r = .next t) := by
  unfold whenIdle at h
  split at h
  · next hb => injection h with h; exact .inl ⟨hb, by rw [← h, engineCycle_busy hb]⟩
  · next hb => exact .inr ⟨by simpa using hb, h⟩

/-- Every step that gives a next state is one of these seven: the end of a completing cycle, a cycle of an idle engine, a
reset, or, at an idle engine, one of the host's four other actions. -/
theorem step_cases (h : step s = .next t) :
    (s.busy = true ∧ (∀ rest, s.host ≠ .reset :: rest) ∧ t = endCompletion s) ∨
    (s.busy = false ∧ s.host = [] ∧ t = s) ∨
    (∃ rest, s.host = .reset :: rest ∧ t = resetBlock (nextHostAct s)) ∨
    (∃ w rest i, s.host = .command w :: rest ∧ s.busy = false ∧ decode w = .ok i ∧
      exec i (latchCmd w (nextHostAct s)) = .next t) ∨
    (∃ k e rest, s.host = .writeMsg k e :: rest ∧ s.busy = false ∧ t = setMsg k e (nextHostAct s)) ∨
    (∃ a v rest, s.host = .writeBuf a v :: rest ∧ s.busy = false ∧ t = setBuf a v (nextHostAct s)) ∨
    (∃ w n rest i u, s.host = .commandThenReset w n :: rest ∧ s.busy = false ∧ decode w = .ok i ∧
      exec i (latchCmd w (nextHostAct s)) = .next u ∧ t = abandonAfter n (nextHostAct s) u) := by
  unfold step at h
  split at h
  · next hh =>
    injection h with h
    cases hb : s.busy with
    | true => exact .inl ⟨rfl, by simp [hh], by rw [← h, engineCycle_busy hb]⟩
    | false => exact .inr (.inl ⟨rfl, hh, by rw [← h, engineCycle_idle hb]⟩)
  · next act rest hh =>
    cases act with
    | reset => injection h with h; exact .inr (.inr (.inl ⟨rest, hh, h.symm⟩))
    | command w =>
      obtain ⟨hb, rfl⟩ | ⟨hb, h⟩ := whenIdle_next h
      · exact .inl ⟨hb, by simp [hh], rfl⟩
      · obtain ⟨i, hd, hi⟩ := runWord_next h
        exact .inr (.inr (.inr (.inl ⟨w, rest, i, hh, hb, hd, hi⟩)))
    | writeMsg k e =>
      obtain ⟨hb, rfl⟩ | ⟨hb, h⟩ := whenIdle_next h
      · exact .inl ⟨hb, by simp [hh], rfl⟩
      · injection h with h
        exact .inr (.inr (.inr (.inr (.inl ⟨k, e, rest, hh, hb, h.symm⟩))))
    | writeBuf a v =>
      obtain ⟨hb, rfl⟩ | ⟨hb, h⟩ := whenIdle_next h
      · exact .inl ⟨hb, by simp [hh], rfl⟩
      · injection h with h
        exact .inr (.inr (.inr (.inr (.inr (.inl ⟨a, v, rest, hh, hb, h.symm⟩)))))
    | commandThenReset w n =>
      obtain ⟨hb, rfl⟩ | ⟨hb, h⟩ := whenIdle_next h
      · exact .inl ⟨hb, by simp [hh], rfl⟩
      · unfold runWordThenReset at h
        split at h
        · next u hu =>
          injection h with h
          obtain ⟨i, hd, hi⟩ := runWord_next hu
          exact .inr (.inr (.inr (.inr (.inr (.inr ⟨w, n, rest, i, u, hh, hb, hd, hi, h.symm⟩)))))
        · cases h
        · cases h

/-! ## Replaying a trace -/

theorem replay_nil (s : State) : replay [] s = s := rfl

theorem replay_cons (e : Event) (evs : List Event) (s : State) : replay (e :: evs) s = replay evs (replayEvent e s) := rfl

theorem replay_append (a b : List Event) (s : State) : replay (a ++ b) s = replay b (replay a s) := by
  simp [replay]

/-- Replaying writes to `BUF` what the `wr` events say, and nothing else. -/
theorem replay_buf (evs : List Event) (s : State) :
    (replay evs s).buf =
      evs.foldl (fun m e => match e with | .wr a v => Memory.write a.toNat v m | _ => m) s.buf := by
  induction evs generalizing s with
  | nil => rfl
  | cons e evs ih =>
    rw [replay_cons, ih]
    cases e <;> simp [replayEvent]

/-- Replaying keeps what every micro-operation keeps. -/
theorem replay_keeps {P : State → Prop} (h : MicroClosed P) (evs : List Event) (s : State) (hs : P s) : P (replay evs s) := by
  induction evs generalizing s with
  | nil => exact hs
  | cons e evs ih =>
    refine ih _ ?_
    cases e
    · exact h.sda _ _ hs
    · exact h.scl _ _ hs
    · exact h.dir _ _ hs
    · exact h.dly _ hs
    · exact h.smp _ hs
    · exact h.memRead _ _ hs
    · exact h.memWrite _ _ _ hs

/-- Replaying appends as many events as it is given. -/
theorem replay_trace_length (evs : List Event) (s : State) :
    ∃ new, (replay evs s).trace = s.trace ++ new ∧ new.length = evs.length := by
  induction evs generalizing s with
  | nil => exact ⟨[], by simp [replay_nil], rfl⟩
  | cons e evs ih =>
    obtain ⟨new, h1, h2⟩ := ih (replayEvent e s)
    obtain ⟨e', he'⟩ : ∃ e', (replayEvent e s).trace = s.trace ++ [e'] := by cases e <;> exact ⟨_, rfl⟩
    exact ⟨e' :: new, by rw [replay_cons, h1, he']; simp, by simp [h2]⟩

/-- Where replaying a list of events appends that very list, replaying a beginning of it appends that beginning. -/
theorem replay_take {s : State} {evs : List Event} (n : Nat) (h : (replay evs s).trace = s.trace ++ evs) :
    (replay (evs.take n) s).trace = s.trace ++ evs.take n := by
  have h1 : replay evs s = replay (evs.drop n) (replay (evs.take n) s) := by
    rw [← replay_append, List.take_append_drop]
  obtain ⟨a, ha, hal⟩ := replay_trace_length (evs.take n) s
  obtain ⟨b, hb, _⟩ := replay_trace_length (evs.drop n) (replay (evs.take n) s)
  rw [h1, hb, ha] at h
  have : a ++ b = evs.take n ++ evs.drop n := by
    rw [List.take_append_drop, ← List.append_cancel_left_eq s.trace, ← h, List.append_assoc]
  rw [ha, (List.append_inj this hal).1]

end Sys2Proof.Machine
end

