-- ==== Sys2Proof/Laws/TwoRuns.lean ====
section
/-! SUPPORT. What a command depends on, said once: a relation of two states that the procedures keep, answering alike, is
kept by every command, whatever the loop registers of the two states held before. -/

namespace Sys2Proof.Machine

/-- `R` is kept by every procedure a command calls and by every write between two of them, and two related states answer
alike: the same bytes, statuses, entries and build. The loop registers `I`, `J` and `M` may differ. -/
structure ProcLinked (R : State → State → Prop) : Prop where
  params : ∀ {s t}, R s t → s.params = t.params
  status : ∀ {s t}, R s t → s.status = t.status
  msgt : ∀ {s t}, R s t → s.msgt = t.msgt
  start : ∀ {s t}, R s t → R (startProc s) (startProc t)
  stop : ∀ {s t}, R s t → R (stopProc s) (stopProc t)
  init : ∀ {s t}, R s t → R (initProc s) (initProc t)
  send : ∀ v {s t}, R s t → (sendByte v s).1 = (sendByte v t).1 ∧ R (sendByte v s).2 (sendByte v t).2
  read : ∀ ack {s t}, R s t → (readByte ack s).1 = (readByte ack t).1 ∧ R (readByte ack s).2 (readByte ack t).2
  memRead : ∀ a {s t}, R s t → (memRead a s).1 = (memRead a t).1 ∧ R (memRead a s).2 (memRead a t).2
  memWrite : ∀ a v {s t}, R s t → R (memWrite a v s) (memWrite a v t)
  setI : ∀ n {s t}, R s t → R (setI n s) (setI n t)
  setJ : ∀ n {s t}, R s t → R (setJ n s) (setJ n t)
  setM : ∀ e {s t}, R s t → R (setM e s) (setM e t)
  setStatus : ∀ r {s t}, R s t → R (setStatus r s) (setStatus r t)

namespace ProcLinked

variable {R : State → State → Prop} (h : ProcLinked R) {s t : State}
include h

theorem sendKeepStatus (v : Byte) (hR : R s t) : R (sendKeepStatus v s) (sendKeepStatus v t) := by
  obtain ⟨h1, h2⟩ := h.send v hR
  unfold Machine.sendKeepStatus
  rw [h1]
  exact h.setStatus _ h2

theorem sendDropStatus (v : Byte) (hR : R s t) : R (sendDropStatus v s) (sendDropStatus v t) := (h.send v hR).2

theorem sendLoop (n : Nat) (ptr : Half) (hR : R s t) (hJ : s.regJ = t.regJ) : R (sendLoop n ptr s) (sendLoop n ptr t) := by
  induction n generalizing s t with
  | zero => exact hR
  | succ n ih =>
    obtain ⟨h1, h2⟩ := h.memRead (bufAddr ptr t.regJ) hR
    have hk := h.sendKeepStatus (Machine.memRead (bufAddr ptr t.regJ) t).1 h2
    simp only [Machine.sendLoop, hJ, h1]
    refine ih ?_ (by simp [sendKeepStatus_eq, hJ])
    simpa only [sendKeepStatus_eq, setStatus_regJ, sentState_regJ, memRead_regJ, hJ] using h.setJ (t.regJ + 1) hk

theorem readLoop (n : Nat) (ptr : Half) (hR : R s t) (hJ : s.regJ = t.regJ) : R (readLoop n ptr s) (readLoop n ptr t) := by
  induction n generalizing s t with
  | zero => exact hR
  | succ n ih =>
    obtain ⟨h1, h2⟩ := h.read (decide (n ≠ 0)) hR
    simp only [readByte_eq] at h1 h2
    simp only [Machine.readLoop, readByte_eq, memWrite_regJ, readState_regJ, h1, hJ]
    exact ih (h.setJ _ (h.memWrite _ _ h2)) rfl

theorem sendBuffer (ptr len : Half) (hR : R s t) : R (sendBuffer ptr len s) (sendBuffer ptr len t) :=
  h.sendLoop _ _ (h.setJ 0 hR) rfl

theorem readBuffer (ptr len : Half) (hR : R s t) : R (readBuffer ptr len s) (readBuffer ptr len t) :=
  h.readLoop _ _ (h.setJ 0 hR) rfl

/-- The data of a message, in states whose current entries agree. -/
theorem legBody (hR : R s t) (hM : s.regM = t.regM) : R (legBody s) (legBody t) := by
  unfold Machine.legBody
  rw [hM]
  split
  · exact h.sendBuffer _ _ hR
  · exact h.readBuffer _ _ hR

/-- The address phase of a message, in states whose index and current entry agree. -/
theorem legHead (hR : R s t) (hI : s.regI = t.regI) (hM : s.regM = t.regM) : R (legHead s) (legHead t) := by
  have hs : R (legStart s) (legStart t) := by
    unfold Machine.legStart
    rw [hI]
    split
    · exact h.start hR
    · split
      · exact h.start hR
      · exact hR
  have hm : ∀ u : State, (legStart u).regM = u.regM := by
    intro u; unfold Machine.legStart; split
    · rw [startProc_eq]
    · split
      · rw [startProc_eq]
      · rfl
  simp only [Machine.legHead, addrByteOf, hm, hM, h.params hs]
  exact h.sendKeepStatus _ hs

end ProcLinked

/-- The data of a message leaves `I` and `M` alone. -/
theorem legBody_regs (s : State) : (legBody s).regI = s.regI ∧ (legBody s).regM = s.regM := by
  unfold legBody
  split
  · obtain ⟨-, -, -, -, -, -, -, hi, hm, -⟩ := sendLoop_keeps (msgLen s.regM).toNat (msgPtr s.regM) (setJ 0 s)
    exact ⟨hi, hm⟩
  · obtain ⟨-, -, -, -, -, -, -, -, hi, hm, -⟩ := readLoop_keeps (msgLen s.regM).toNat (msgPtr s.regM) (setJ 0 s)
    exact ⟨hi, hm⟩

/-- The address phase of a message leaves `I` and `M` alone. -/
theorem legHead_regs (s : State) : (legHead s).regI = s.regI ∧ (legHead s).regM = s.regM := by
  have hs : (legStart s).regI = s.regI ∧ (legStart s).regM = s.regM := by
    unfold legStart; split
    · rw [startProc_eq]; exact ⟨rfl, rfl⟩
    · split
      · rw [startProc_eq]; exact ⟨rfl, rfl⟩
      · exact ⟨rfl, rfl⟩
  simp only [legHead, sendKeepStatus_eq, sentState_regI, sentState_regM, hs, and_self]

/-- One message leaves `I` alone. -/
theorem leg_regI (mbase : MsgIndex) (s : State) : (leg mbase s).2.regI = s.regI := by
  have hl : (loadMsg mbase s).regI = s.regI := rfl
  unfold leg
  simp only
  split
  · exact (legBody_regs _).1.trans hl
  · split
    · exact (legHead_regs _).1.trans hl
    · exact (legBody_regs _).1.trans ((legHead_regs _).1.trans hl)

namespace ProcLinked

variable {R : State → State → Prop} (h : ProcLinked R) {s t : State}
include h

/-- One message, in states whose index agrees: both leave the loop or both go on. -/
theorem leg (mbase : MsgIndex) (hR : R s t) (hI : s.regI = t.regI) :
    (leg mbase s).1 = (leg mbase t).1 ∧ R (leg mbase s).2 (leg mbase t).2 := by
  have he : msgEntry s (msgIndex mbase s.regI) = msgEntry t (msgIndex mbase t.regI) := by
    rw [hI, msgEntry_congr (h.msgt hR)]
  have hl : R (loadMsg mbase s) (loadMsg mbase t) := by unfold loadMsg; rw [he]; exact h.setM _ hR
  have hi : (loadMsg mbase s).regI = (loadMsg mbase t).regI := hI
  have hm : (loadMsg mbase s).regM = (loadMsg mbase t).regM := he
  have hh := h.legHead hl hi hm
  have hb := h.legBody hl hm
  have hhb := h.legBody hh (by rw [(legHead_regs _).2, (legHead_regs _).2, hm])
  simp only [Machine.leg, hm, h.status hh, h.status hb, h.status hhb]
  split
  · exact ⟨rfl, hb⟩
  · split
    · exact ⟨rfl, hh⟩
    · exact ⟨rfl, hhb⟩

theorem messageLoop (n : Nat) (mbase : MsgIndex) (hR : R s t) (hI : s.regI = t.regI) :
    R (messageLoop n mbase s) (messageLoop n mbase t) := by
  induction n generalizing s t with
  | zero => exact hR
  | succ n ih =>
    obtain ⟨h1, h2⟩ := h.leg mbase hR hI
    have hs := leg_regI mbase s
    have ht := leg_regI mbase t
    revert h1 h2 hs ht
    simp only [Machine.messageLoop]
    obtain ⟨a, u⟩ := Machine.leg mbase s
    obtain ⟨b, v⟩ := Machine.leg mbase t
    rintro rfl h2 hs ht
    cases a with
    | true => exact h2
    | false =>
      simp only at hs ht ⊢
      rw [hs, ht, hI]
      exact ih (h.setI _ h2) rfl

theorem transfer (mbase : MsgIndex) (count : Half) (hR : R s t) : R (transfer mbase count s) (transfer mbase count t) :=
  h.stop (h.messageLoop _ _ (h.setI 0 hR) rfl)

theorem sendAddr (dev : Byte) (d : MsgDir) (hR : R s t) :
    R (Machine.sendKeepStatus (addrByteOf s dev d) s) (Machine.sendKeepStatus (addrByteOf t dev d) t) := by
  simp only [addrByteOf, h.params hR]
  exact h.sendKeepStatus _ hR

theorem dropAddr (dev : Byte) (d : MsgDir) (hR : R s t) :
    R (Machine.sendDropStatus (addrByteOf s dev d) s) (Machine.sendDropStatus (addrByteOf t dev d) t) := by
  simp only [addrByteOf, h.params hR]
  exact h.sendDropStatus _ hR

theorem regWrite (wide : Bool) (dev : Byte) (reg ptr len : Half) (hR : R s t) :
    R (regWrite wide dev reg ptr len s) (regWrite wide dev reg ptr len t) := by
  have ha := h.sendAddr dev .wr (h.start hR)
  cases wide
  · exact h.stop (h.sendBuffer _ _ (h.sendKeepStatus _ ha))
  · exact h.stop (h.sendBuffer _ _ (h.sendKeepStatus _ (h.sendKeepStatus _ ha)))

theorem regRead (wide : Bool) (dev : Byte) (reg ptr len : Half) (hR : R s t) :
    R (regRead wide dev reg ptr len s) (regRead wide dev reg ptr len t) := by
  have ha := h.dropAddr dev .wr (h.start hR)
  cases wide
  · exact h.stop (h.readBuffer _ _ (h.dropAddr dev .rd (h.start (h.sendDropStatus _ ha))))
  · exact h.stop (h.readBuffer _ _ (h.dropAddr dev .rd (h.start (h.sendDropStatus _ (h.sendDropStatus _ ha)))))

/-- Two states whose states at acceptance are related complete the same command in related states, where completion and the
two commands with a register of their own keep the relation. -/
theorem exec (hr : ∀ v {s t}, R s t → R (setRdata v s) (setRdata v t))
    (hh : ∀ n {s t}, R s t → R (setHalfPeriod n s) (setHalfPeriod n t)) (hf : ∀ {s t}, R s t → R (finish s) (finish t))
    {i : Instr} (ha : R (accept i.opcode s) (accept i.opcode t)) :
    ∃ u v, exec i s = .next u ∧ exec i t = .next v ∧ R u v := by
  refine ⟨_, _, exec_eq i s, exec_eq i t, hf ?_⟩
  cases i with
  | init => exact h.init ha
  | start => exact h.start ha
  | stop => exact h.stop ha
  | writeByte b => exact h.sendKeepStatus _ ha
  | readByte ack =>
    obtain ⟨h1, h2⟩ := h.read ack ha
    simp only [commandBody, h1]
    exact hr _ h2
  | xfer mbase count => exact h.transfer _ _ ha
  | wreg8 dev reg ptr len => exact h.regWrite _ _ _ _ _ ha
  | wreg16 dev reg ptr len => exact h.regWrite _ _ _ _ _ ha
  | rreg8 dev reg ptr len => exact h.regRead _ _ _ _ _ ha
  | rreg16 dev reg ptr len => exact h.regRead _ _ _ _ _ ha
  | setcfg n => exact hh _ ha

end ProcLinked

/-! ## What the host has still to do -/

/-- Two states that differ in the host's queue alone stay so. -/
theorem linked_host : ProcLinked fun s t => t = { s with host := t.host } where
  params h := by rw [h]
  status h := by rw [h]
  msgt h := by rw [h]
  start h := by rw [h, startProc_eq, startProc_eq]
  stop h := by rw [h, stopProc_eq, stopProc_eq]
  init h := by rw [h, initProc_eq, initProc_eq]
  send v s t h := by rw [h, sendByte_eq, sendByte_eq]; exact ⟨rfl, rfl⟩
  read a s t h := by rw [h, readByte_eq, readByte_eq]; exact ⟨rfl, rfl⟩
  memRead a s t h := by rw [h]; exact ⟨rfl, rfl⟩
  memWrite a v s t h := by rw [h]; rfl
  setI n s t h := by rw [h]; rfl
  setJ n s t h := by rw [h]; rfl
  setM e s t h := by rw [h]; rfl
  setStatus r s t h := by rw [h]; rfl

/-- A command does the same whatever the host has still to do, and leaves that alone. -/
theorem exec_with_host {i : Instr} {s t : State} (acts : List HostAct) (h : exec i s = .next t) :
    exec i { s with host := acts } = .next { t with host := acts } := by
  obtain ⟨u, v, hu, hv, hR⟩ := linked_host.exec (i := i) (s := s) (t := { s with host := acts })
    (fun v s t h => by rw [h]; rfl) (fun n s t h => by rw [h]; rfl) (fun {s t} h => by rw [h]; rfl) rfl
  rw [h] at hu
  injection hu with hu
  subst hu
  rw [hv, hR, exec_host hv]

/-! ## What the working registers held before -/

/-- Two observably equal states stay so: the procedures read no working register they have not written. -/
theorem linked_observable : ProcLinked State.sameObservable where
  params h := h.1.1
  status h := h.2.1
  msgt := by rintro s t ⟨⟨-, -, -, -, -, -, h, -⟩, -⟩; exact h
  start h := by simp only [startProc_eq]; simp_all [State.sameObservable, State.samePersistent]
  stop h := by simp only [stopProc_eq]; simp_all [State.sameObservable, State.samePersistent]
  init h := by simp only [initProc_eq]; simp_all [State.sameObservable, State.samePersistent]
  send v s t h := by
    obtain ⟨⟨hp, -, -, -, -, -, -, -, -, hb, hn, -⟩, -⟩ := id h
    have hh : highs s = highs t := highs_congr hp hb hn
    simp only [sendByte_eq]
    simp_all [State.sameObservable, State.samePersistent, sentState, ackEnd]
  read ack s t h := by
    obtain ⟨⟨-, -, -, -, -, -, -, -, -, hb, hn, -⟩, -⟩ := id h
    have hv : nextByte s = nextByte t := by unfold nextByte; rw [samplesOf_congr hb hn]
    simp only [readByte_eq]
    simp_all [State.sameObservable, State.samePersistent, readState]
  memRead a s t h := by
    obtain ⟨⟨-, -, -, -, -, -, -, hb, -⟩, -⟩ := id h
    have hv : bufByte s a = bufByte t a := bufByte_congr hb a
    refine ⟨hv, ?_⟩
    simp_all [State.sameObservable, State.samePersistent]
  memWrite a v s t h := by simp_all [State.sameObservable, State.samePersistent]
  setI n s t h := by simp_all [State.sameObservable, State.samePersistent]
  setJ n s t h := by simp_all [State.sameObservable, State.samePersistent]
  setM e s t h := by simp_all [State.sameObservable, State.samePersistent]
  setStatus r s t h := by simp_all [State.sameObservable, State.samePersistent]

/-- Two observably equal states stay so where the same events are replayed. -/
theorem replay_observable (evs : List Event) {s t : State} (h : s.sameObservable t) :
    (replay evs s).sameObservable (replay evs t) := by
  induction evs generalizing s t with
  | nil => exact h
  | cons e evs ih =>
    rw [replay_cons, replay_cons]
    refine ih ?_
    cases e with
    | rd a v => exact (linked_observable.memRead a h).2
    | wr a v => exact linked_observable.memWrite a v h
    | smp b =>
      obtain ⟨⟨-, -, -, -, -, -, -, -, -, hb, hn, -⟩, -⟩ := id h
      have hs : nextSample s = nextSample t := nextSample_congr hb hn
      clear ih
      simp_all [State.sameObservable, State.samePersistent, replayEvent]
    | _ => clear ih; simp_all [State.sameObservable, State.samePersistent, replayEvent]

end Sys2Proof.Machine
end

