-- ==== Sys2Proof/Tests/Slice0.lean ====
section
/-! SUPPORT. Small checks of the model against values the spec writes out (95_test_vectors.md unless another file is named),
and, for every obligation that has hypotheses, a witness that meets them all. -/

namespace Sys2Proof.Tests

open Sys2Proof Sys2Proof.Machine

/-! ## Words -/

/-- R97: a non-zero `z` field makes a word ill formed (V96, V97). -/
theorem test_z_field_is_ill_formed :
    zFieldClear 0x1100000000000000#64 = false ∧ wordWellFormed 0x1100000000000000#64 = false ∧
    wordWellFormed 0x0F00000000000000#64 = false := by decide

/-- R96: a reserved opcode makes a word ill formed, 0xA being the last defined one (V91, V94, V95). -/
theorem test_reserved_opcode_is_ill_formed :
    opcodeDefined 0xB000000000000000#64 = false ∧ wordWellFormed 0xB000000000000000#64 = false ∧
    wordWellFormed 0xF000000000000000#64 = false ∧ wordWellFormed 0xA000000000000005#64 = true := by decide

/-- R98: a word with ignored bits set is well formed and not canonical (V92, V85, V86, V93). -/
theorem test_ignored_bits_are_not_canonical :
    wordWellFormed 0x10FFFFFFFFFFFFFF#64 = true ∧ wordCanonical 0x10FFFFFFFFFFFFFF#64 = false ∧
    wordCanonical 0x40FE000000000000#64 = false ∧ wordCanonical 0x50000000AB030001#64 = false ∧
    wordCanonical 0xA0FFFFFFFFFF0000#64 = false ∧ wordCanonical 0x1000000000000000#64 = true := by decide

theorem test_decode_init : decode 0x0000000000000000#64 = .ok .init := by decide
theorem test_decode_start : decode 0x1000000000000000#64 = .ok .start := by decide
theorem test_decode_stop : decode 0x2000000000000000#64 = .ok .stop := by decide
theorem test_decode_write_byte : decode 0x30A5000000000000#64 = .ok (.writeByte 0xA5) := by decide
theorem test_decode_read_byte_ack : decode 0x4001000000000000#64 = .ok (.readByte true) := by decide
/-- V85: only `b[0]` is used. -/
theorem test_decode_read_byte_nack : decode 0x40FE000000000000#64 = .ok (.readByte false) := by decide
/-- V86: `ptr[15:8]` is ignored. -/
theorem test_decode_xfer : decode 0x50000000AB030001#64 = .ok (.xfer 0x03 1) := by decide
theorem test_decode_wreg8 : decode 0x60A0001001000002#64 = .ok (.wreg8 0xA0 0x10 0x0100 2) := by decide
theorem test_decode_wreg16 : decode 0x70A0123401000001#64 = .ok (.wreg16 0xA0 0x1234 0x0100 1) := by decide
theorem test_decode_rreg8 : decode 0x80A0001002000003#64 = .ok (.rreg8 0xA0 0x10 0x0200 3) := by decide
theorem test_decode_rreg16 : decode 0x90A0123402000001#64 = .ok (.rreg16 0xA0 0x1234 0x0200 1) := by decide
theorem test_decode_setcfg : decode 0xA000000000000005#64 = .ok (.setcfg 5) := by decide
/-- V66: the word with `dev = 0xA1` and `reg = 0xFF10`. -/
theorem test_decode_wreg8_ignores_reg_high : decode 0x60A1FF1001000001#64 = .ok (.wreg8 0xA1 0x10 0x0100 1) := by decide
/-- V94, V95, V96, V97. -/
theorem test_decode_rejects :
    decode 0xB000000000000000#64 = .error (.reservedOpcode 0xB) ∧
    decode 0xF000000000000000#64 = .error (.reservedOpcode 0xF) ∧
    decode 0x1100000000000000#64 = .error (.reservedField 1) ∧
    decode 0x0F00000000000000#64 = .error (.reservedField 0xF) := by decide

/-- R100: the assembler's example. -/
theorem test_encode_wreg8 : encode (.wreg8 0xA0 0x10 0x0100 2) = 0x60A0001001000002#64 := by decide
/-- V83 and V84. -/
theorem test_encode_bytes :
    encode (.writeByte 0xA5) = 0x30A5000000000000#64 ∧ encode (.readByte true) = 0x4001000000000000#64 := by decide
/-- V50's word. -/
theorem test_encode_xfer : encode (.xfer 255 2) = 0x5000000000FF0002#64 := by decide
/-- V91. -/
theorem test_encode_setcfg : encode (.setcfg 5) = 0xA000000000000005#64 := by decide

/-- R94: no two rows of the opcode table overlap, and each pattern lies inside the mask. -/
theorem test_opcode_rows_disjoint :
    opcodeMatches.Pairwise (· ≠ ·) ∧ (opcodeMatches.all fun m => m &&& opcodeMask == m) = true := by decide +kernel

/-- Section 3.1: message table entries as 42-bit values. -/
theorem test_message_entries :
    packMsg 0xA0 .wr false 1 0x0100 = 0x28000010100#42 ∧ packMsg 0xA0 .rd false 3 0x0200 = 0x28200030200#42 ∧
    packMsg 0x40 .wr true 2 0x0010 = 0x10100020010#42 := by decide

/-- The fields read back from the same values. -/
theorem test_message_fields :
    msgAddr 0x28200030200#42 = 0xA0 ∧ msgDir 0x28200030200#42 = .rd ∧ msgNostart 0x28200030200#42 = false ∧
    msgLen 0x28200030200#42 = 3 ∧ msgPtr 0x28200030200#42 = 0x0200 ∧
    msgNostart 0x10100020010#42 = true ∧ msgDir 0x10100020010#42 = .wr := by decide

/-- V100 to V109. -/
theorem test_addr_byte :
    addrByte .left 0xA0 .wr = 0xA0 ∧ addrByte .left 0xA0 .rd = 0xA1 ∧ addrByte .left 0xA1 .wr = 0xA0 ∧
    addrByte .left 0xFF .rd = 0xFF ∧ addrByte .left 0x00 .rd = 0x01 ∧ addrByte .left 0x50 .wr = 0x50 ∧
    addrByte .right 0x50 .wr = 0xA0 ∧ addrByte .right 0x50 .rd = 0xA1 ∧ addrByte .right 0xD0 .rd = 0xA1 ∧
    addrByte .right 0x7F .wr = 0xFE := by decide

/-! ## One command on a small state -/

/-- A block with poll budget `n + 1`, pins as given, and these bus answers. -/
def bench (n : Fin 65535) (sclL sdaL : Level) (bus : List Level) : State :=
  { State.reset with params := ⟨n, .left, 0⟩, halfPeriod := 0, sclOut := sclL, sdaOut := sdaL, bus := bus }

/-- The same from idle pins, with contents for the memories. -/
def benchMem (n : Fin 65535) (bus : List Level) (buf : List Host.Cell) (msgt : List (Nat × MsgWord)) : State :=
  { bench n true true bus with buf := buf, msgt := msgt }

/-- The state a command leaves, from a state that satisfies nothing in particular if it does not complete. -/
def after (i : Instr) (s : State) : State :=
  match exec i s with
  | .next t => t
  | .fault _ => s
  | .refused _ => s

/-- How a command ended: the pins, status and response byte, the lengths of the full trace and of the pin trace, and the bus
answers left over. -/
structure Ending where
  scl : Level
  sda : Level
  dir : PadDir
  status : Status
  data : Byte
  events : Nat
  pinEvents : Nat
  left : List Level
  deriving DecidableEq, Repr

/-- How a command ended in this state. -/
def ending (t : State) : Ending :=
  ⟨t.sclOut, t.sdaOut, t.sdaDir, t.status, t.rdata, t.trace.length, (pinTrace t.trace).length, t.bus⟩

/-- V8. -/
theorem test_init_from_low_pins :
    (after .init (bench 1 false false [])).trace = [.scl true, .sda true, .dir .out] ∧
    patterns false false .out (after .init (bench 1 false false [])).trace = [.stop] := by decide

/-- V1. -/
theorem test_start_from_idle :
    (after .start (bench 1 true true [])).trace = [.sda true, .scl true, .dly, .sda false, .dly, .scl false] ∧
    ending (after .start (bench 1 true true [])) = ⟨false, false, .out, .ok, 0, 6, 4, []⟩ := by decide

/-- V5. -/
theorem test_start_after_ack_pulse :
    patterns false false .out (after .start (bench 1 false false [])).trace = [.start] := by decide

/-- V2. -/
theorem test_stop_after_start :
    (after .stop (bench 1 false false [])).trace = [.scl false, .sda false, .dly, .scl true, .dly, .sda true] ∧
    ending (after .stop (bench 1 false false [])) = ⟨true, true, .out, .ok, 0, 6, 4, []⟩ := by decide

/-- V6. -/
theorem test_stop_on_idle_bus :
    patterns true true .out (after .stop (bench 1 true true [])).trace = [.stop] := by decide

/-- V14, the pin trace in full. -/
theorem test_write_byte_acknowledged_on_second_sample :
    pinTrace (after (.writeByte 0xA5) (bench 2 false false [true, false])).trace =
      [.scl false, .sda true, .scl true, .scl false, .sda false, .scl true, .scl false, .sda true, .scl true,
       .scl false, .sda false, .scl true, .scl false, .sda false, .scl true, .scl false, .sda true, .scl true,
       .scl false, .sda false, .scl true, .scl false, .sda true, .scl true,
       .dir .inp, .scl false, .scl true, .smp true, .smp false, .scl false, .sda true, .dir .out] ∧
    ending (after (.writeByte 0xA5) (bench 2 false false [true, false])) = ⟨false, true, .out, .ok, 0, 50, 32, []⟩ := by
  decide

/-- V15, with its byte trace and its one STOP pattern. -/
theorem test_write_byte_times_out :
    ending (after (.writeByte 0x3C) (bench 2 false false [true, true, true])) =
      ⟨true, true, .out, .tmo, 0, 56, 36, []⟩ ∧
    byteTrace (after (.writeByte 0x3C) (bench 2 false false [true, true, true])).trace = [.W 0x3C false, .P] ∧
    patterns false false .out (after (.writeByte 0x3C) (bench 2 false false [true, true, true])).trace = [.stop] := by
  decide

/-- V20: `rbyte nack` with samples `00111100`, and the Nack pulse at its end. -/
theorem test_read_byte_nack :
    ending (after (.readByte false) (bench 2 false true [false, false, true, true, true, true, false, false])) =
      ⟨false, true, .out, .ok, 0x3C, 48, 30, []⟩ ∧
    (after (.readByte false) (bench 2 false true [false, false, true, true, true, true, false, false])).trace.drop 41 =
      [.scl false, .sda true, .dir .out, .dly, .scl true, .dly, .scl false] := by decide

/-- V21: `rbyte ack` with samples `10100101`, and the Ack pulse at its end. -/
theorem test_read_byte_ack :
    ending (after (.readByte true) (bench 2 false true [true, false, true, false, false, true, false, true])) =
      ⟨false, false, .out, .ok, 0xA5, 48, 30, []⟩ ∧
    (after (.readByte true) (bench 2 false true [true, false, true, false, false, true, false, true])).trace.drop 41 =
      [.scl false, .sda false, .dir .out, .dly, .scl true, .dly, .scl false] := by decide

/-- The `rd` and `wr` events of a trace. -/
def bufEvents (evs : List Event) : List Event :=
  evs.filter fun e => match e with | .rd _ _ => true | .wr _ _ => true | _ => false

/-- The machine of V47: three write messages that all ask for a START. -/
def v47 : State :=
  benchMem 1 [false, false, false, false, false, false] [(0x10, 0x01), (0x11, 0x02), (0x12, 0x03)]
    [(0, packMsg 0x40 .wr false 1 0x0010), (1, packMsg 0x42 .wr false 1 0x0011), (2, packMsg 0x44 .wr false 1 0x0012)]

/-- V47: message 2 gets no START, its address byte is still sent. -/
theorem test_xfer_third_message_gets_no_start :
    ending (after (.xfer 0 3) v47) = ⟨true, true, .out, .ok, 0, 315, 201, []⟩ ∧
    bufEvents (after (.xfer 0 3) v47).trace = [.rd 0x10 0x01, .rd 0x11 0x02, .rd 0x12 0x03] ∧
    byteTrace (after (.xfer 0 3) v47).trace =
      [.S, .W 0x40 true, .W 0x01 true, .S, .W 0x42 true, .W 0x02 true, .W 0x44 true, .W 0x03 true, .P] := by decide +kernel

/-- The machine of V50: the table index wraps from 255 to 0, both buffers wrap and overlap. -/
def v50 : State :=
  benchMem 1
    ([false, false, false, false] ++ [false, true, true, true, false, true, true, true] ++
      [true, false, false, false, true, false, false, false])
    [(0x0000, 0x34), (0xFFFF, 0x12)] [(0, packMsg 0xA0 .rd false 2 0xFFFF), (255, packMsg 0xA0 .wr false 2 0xFFFF)]

/-- V50. -/
theorem test_xfer_wraps :
    ending (after (.xfer 255 2) v50) = ⟨true, true, .out, .ok, 0, 314, 200, []⟩ ∧
    bufEvents (after (.xfer 255 2) v50).trace =
      [.rd 0xFFFF 0x12, .rd 0x0000 0x34, .wr 0xFFFF 0x77, .wr 0x0000 0x88] ∧
    (after (.xfer 255 2) v50).buf = [(0x0000, 0x88), (0xFFFF, 0x77)] := by decide +kernel

/-- V64: an address timeout does not stop WREG8 and is discarded. -/
theorem test_wreg8_discards_address_timeout :
    ending (after (.wreg8 0xA0 0x10 0x0100 1) (benchMem 1 [true, true, false, false] [(0x0100, 0xDE)] [])) =
      ⟨true, true, .out, .ok, 0, 166, 106, []⟩ ∧
    bufEvents (after (.wreg8 0xA0 0x10 0x0100 1) (benchMem 1 [true, true, false, false] [(0x0100, 0xDE)] [])).trace =
      [.rd 0x0100 0xDE] := by decide +kernel

/-- V63: with no data the status is that of the register byte. -/
theorem test_wreg8_without_data :
    ending (after (.wreg8 0xA0 0x10 0x0100 0) (benchMem 1 [false, true, true] [] [])) =
      ⟨true, true, .out, .tmo, 0, 116, 74, []⟩ := by decide +kernel

/-- V61: high byte of the register address first. -/
theorem test_wreg16 :
    byteTrace (after (.wreg16 0xA0 0x1234 0x0100 1) (benchMem 1 [false, false, false, false] [(0x0100, 0x5A)] [])).trace =
      [.S, .W 0xA0 true, .W 0x12 true, .W 0x34 true, .W 0x5A true, .P] := by decide +kernel

/-- The bus answers of V75: three acknowledges, then the bytes 0xEE and 0x01. -/
def v75Bus : List Level :=
  [false, false, false] ++ [true, true, true, false, true, true, true, false] ++
    [false, false, false, false, false, false, false, true]

/-- V75: the read buffer wraps. -/
theorem test_rreg8_wraps :
    ending (after (.rreg8 0xA0 0x10 0xFFFF 2) (benchMem 1 v75Bus [] [])) = ⟨true, true, .out, .ok, 0, 263, 167, []⟩ ∧
    (after (.rreg8 0xA0 0x10 0xFFFF 2) (benchMem 1 v75Bus [] [])).buf = [(0x0000, 0x01), (0xFFFF, 0xEE)] := by decide +kernel

/-- V73: with no data no byte is read and no Nack pulse is made. -/
theorem test_rreg8_without_data :
    ending (after (.rreg8 0xA0 0x10 0x0200 0) (benchMem 1 [false, false, false] [] [])) =
      ⟨true, true, .out, .ok, 0, 165, 105, []⟩ := by decide +kernel

/-- V72. -/
theorem test_rreg16 :
    byteTrace (after (.rreg16 0xA0 0x1234 0x0200 1)
        (benchMem 1 [false, false, false, false, false, true, true, true, false, true, true, true] [] [])).trace =
      [.S, .W 0xA0 true, .W 0x12 true, .W 0x34 true, .S, .W 0xA1 true, .R 0x77 false, .P] := by decide +kernel

/-- V110. -/
theorem test_setcfg :
    (after (.setcfg 5) (bench 1 true true [])).trace = [] ∧
    (after (.setcfg 5) (bench 1 true true [])).halfPeriod = 5 ∧
    (after (.setcfg 5) (bench 1 true true [])).rspValid = true := by decide

/-- R263's table with `H = 2`, as section 3.6 gives it: V30 67 cycles and V31 74, at budget 1. -/
theorem test_cycles :
    traceCycles 2 1 (after (.writeByte 0x55) (bench 0 false false [false])).trace = 67 ∧
    traceCycles 2 1 (after (.writeByte 0x55) (bench 0 false false [true])).trace = 74 := by decide

/-! ## One step -/

/-- The state a step leaves, the one it began in if it does not give a next state. -/
def afterStep (s : State) : State :=
  match step s with
  | .next t => t
  | .fault _ => s
  | .refused _ => s

/-- R33: a presented word is accepted and run; here V110's. -/
theorem test_step_runs_the_presented_word :
    (afterStep ((bench 1 true true []).withFetchWord 64 0xA000000000000005)).halfPeriod = 5 ∧
    (afterStep ((bench 1 true true []).withFetchWord 64 0xA000000000000005)).cmd = 0xA000000000000005#64 ∧
    (afterStep ((bench 1 true true []).withFetchWord 64 0xA000000000000005)).host = [] := by decide

/-- V94, V96: a model refuses a reserved word. -/
theorem test_step_refuses_reserved_words :
    step ((bench 1 true true []).withFetchWord 64 0xB000000000000000) = .refused (.reservedOpcode 0xB) ∧
    step ((bench 1 true true []).withFetchWord 64 0x1100000000000000) = .refused (.reservedField 1) := ⟨rfl, rfl⟩

/-- R227 c, R20: in the cycle in which a command completes, `cmd_ready` is 0, and a word presented in it is still presented and
not latched when the cycle is over. -/
theorem test_completing_cycle :
    let t := afterStep { bench 1 true true [] with
      host := [.command 0xA000000000000005#64, .command 0x1000000000000000#64] }
    (t.rspValid = true ∧ t.busy = true ∧ cmdReady t = false ∧ t.cmd = 0xA000000000000005#64) ∧
    ((afterStep t).rspValid = false ∧ cmdReady (afterStep t) = true ∧ (afterStep t).cmd = 0xA000000000000005#64 ∧
      (afterStep t).host = [.command 0x1000000000000000#64]) := by decide

/-- R251: reset after the first four events of START (70_reset_and_hazards.md): no further event, no response, pins idle. -/
theorem test_reset_during_start :
    (afterStep { bench 1 true true [] with host := [.commandThenReset 0x1000000000000000#64 4] }).trace =
      [.sda true, .scl true, .dly, .sda false] ∧
    (afterStep { bench 1 true true [] with host := [.commandThenReset 0x1000000000000000#64 4] }).sdaOut = true ∧
    (afterStep { bench 1 true true [] with host := [.commandThenReset 0x1000000000000000#64 4] }).rspValid = false := by
  decide

/-- R102, R61, R63: the host's writes. -/
theorem test_host_writes :
    (afterStep { bench 1 true true [] with host := [.writeBuf 0xFFFF 0x12] }).buf = [(0xFFFF, 0x12)] ∧
    (afterStep { bench 1 true true [] with host := [.writeMsg 0x10 0x24000010000#42] }).msgt =
      [(0x10, 0x24000010000#42)] := by decide

/-- The decoder as the opcode table numbers its words. -/
theorem test_decode_table_word :
    decodeTableWord 64 0x5000000000FF0002 = some (.xfer 255 2) ∧ decodeTableWord 64 0xB000000000000000 = none := by decide

/-! ## Witnesses: for every obligation with hypotheses, values that meet them together -/

theorem witness_encode_of_decode :
    decode 0x60A0001001000002#64 = .ok (.wreg8 0xA0 0x10 0x0100 2) ∧ wordCanonical 0x60A0001001000002#64 = true := by
  decide

/-- The first row and the last. -/
theorem witness_opcode_table :
    (decode 0xA000000000000005#64 = .ok (.setcfg 5)) ∧
    (opcodeMatches[0]? = some 0x0000000000000000#64 ∧ 0x00FF000000000000#64 &&& opcodeMask = 0x0000000000000000#64) ∧
    (opcodeMatches[10]? = some 0xA000000000000000#64 ∧
      0xA000000000000005#64 &&& opcodeMask = 0xA000000000000000#64) := by decide

theorem witness_ignored_fields :
    wordWellFormed 0x1000000000000000#64 = true ∧
    0x1000000000000000#64 &&& ~~~ ignoredBits (fieldOp 0x1000000000000000#64) =
      0x10FFFFFFFFFFFFFF#64 &&& ~~~ ignoredBits (fieldOp 0x1000000000000000#64) := by decide

/-- A host that presents this word to an idle engine. -/
def presenting (w : CmdWord) : State := { bench 1 true true [] with host := [.command w] }

/-- Both clauses, at the first and the last reserved opcode. -/
theorem witness_reserved_words :
    ((presenting 0x1100000000000000#64).busy = false ∧
      (presenting 0x1100000000000000#64).host = .command 0x1100000000000000#64 :: [] ∧
      fieldZ 0x1100000000000000#64 ≠ 0#4) ∧
    ((presenting 0xB000000000000000#64).busy = false ∧
      (presenting 0xB000000000000000#64).host = .command 0xB000000000000000#64 :: [] ∧
      fieldZ 0xB000000000000000#64 = 0#4 ∧ 0xB ≤ (fieldOp 0xB000000000000000#64).toNat) ∧
    (fieldZ 0xF000000000000000#64 = 0#4 ∧ 0xB ≤ (fieldOp 0xF000000000000000#64).toNat) := by decide

theorem witness_step_runs_decoded :
    (presenting 0x30A5000000000000#64).busy = false ∧
    (presenting 0x30A5000000000000#64).host = .command 0x30A5000000000000#64 :: [] ∧
    decode 0x30A5000000000000#64 = .ok (.writeByte 0xA5) := by decide

/-- INIT, then START, presented one after the other to an idle engine; both decode. -/
theorem witness_second_word :
    (bench 1 true true []).busy = false ∧
    ({ bench 1 true true [] with host := [.command 0x0000000000000000#64, .command 0x1000000000000000#64] } : State).host =
      .command 0x0000000000000000#64 :: .command 0x1000000000000000#64 :: [] ∧
    decode 0x0000000000000000#64 = .ok .init ∧ decode 0x1000000000000000#64 = .ok .start := by decide

/-- The state a command leaves, with and without a word waiting. -/
theorem witness_completing_cycle :
    (afterStep (presenting 0xA000000000000005#64)).busy = true ∧
    (∀ rest, (afterStep (presenting 0xA000000000000005#64)).host ≠ .reset :: rest) ∧
    (∀ rest, ({ afterStep (presenting 0xA000000000000005#64) with host := [.command 0#64] } : State).host ≠
      .reset :: rest) :=
  ⟨by decide, fun rest h => (by cases h), fun rest h => (by cases h)⟩

theorem witness_idle_engine : State.reset.busy = false ∧ State.reset.host = [] := ⟨rfl, rfl⟩

/-- Both clauses, at the last address and the last index. -/
theorem witness_host_write :
    (∃ t, ({ bench 1 true true [] with host := [.writeBuf 0xFFFF 0x12] } : State).memoriesWf ∧
      (bench 1 true true []).busy = false ∧
      step { bench 1 true true [] with host := [.writeBuf 0xFFFF 0x12] } = .next t) ∧
    (∃ t, ({ bench 1 true true [] with host := [.writeMsg 255 0] } : State).memoriesWf ∧
      (bench 1 true true []).busy = false ∧
      step { bench 1 true true [] with host := [.writeMsg 255 0] } = .next t) :=
  ⟨⟨_, by decide, rfl, rfl⟩, ⟨_, by decide, rfl, rfl⟩⟩

theorem witness_reset_action :
    ({ bench 1 false false [] with host := [.reset] } : State).host = .reset :: [] := rfl

theorem witness_reset_during_command :
    ∃ u, ({ bench 1 true true [] with host := [.commandThenReset 0x1000000000000000#64 4] } : State).busy = false ∧
      decode 0x1000000000000000#64 = .ok .start ∧
      exec .start { bench 1 true true [] with host := [], cmd := 0x1000000000000000#64 } = .next u :=
  ⟨_, rfl, by decide, exec_eq _ _⟩

/-- At reset, and in the completing cycle of a command. -/
theorem witness_step_keeps_invariant :
    (∃ t, State.reset.Inv ∧ step State.reset = .next t) ∧
    (∃ t, (afterStep (presenting 0xA000000000000005#64)).Inv ∧
      step (afterStep (presenting 0xA000000000000005#64)) = .next t) :=
  ⟨⟨_, by decide, rfl⟩, ⟨_, by decide, rfl⟩⟩

theorem witness_direction_restored : ∃ t, (bench 1 true true []).sdaDir = .out ∧ exec (.readByte true) (bench 1 true true []) = .next t :=
  ⟨_, rfl, exec_eq _ _⟩

/-- Each of the six commands. -/
theorem witness_idle_after_stop :
    ∀ i ∈ [Instr.stop, .xfer 0 65535, .wreg8 0 0 0 0, .wreg16 0 0 0 0, .rreg8 0 0 0 0, .rreg16 0 0 0 0],
      i.opcode ∈ [0x2#4, 0x5#4, 0x6#4, 0x7#4, 0x8#4, 0x9#4] ∧ (bench 1 true true []).sdaDir = .out ∧
      ∃ t, exec i (bench 1 true true []) = .next t := by
  intro i hi
  refine ⟨?_, rfl, _, exec_eq _ _⟩
  revert hi i
  decide

theorem witness_step_keeps_build : ∃ t, step State.reset = .next t := ⟨_, rfl⟩

/-- SETCFG and a command that is not. -/
theorem witness_half_period :
    (∃ t, exec (.setcfg 65535) State.reset = .next t) ∧ (∃ t, exec .init State.reset = .next t) :=
  ⟨⟨_, exec_eq _ _⟩, ⟨_, exec_eq _ _⟩⟩

theorem witness_trace : ∃ t, exec (.rreg8 0xA0 0x10 0xFFFF 2) (benchMem 1 v75Bus [] []) = .next t := ⟨_, exec_eq _ _⟩

/-- V30: the one sample of an acknowledged byte is the event after 40 of the bits and 5 of the acknowledge clock. -/
theorem witness_samples :
    ∃ t, exec (.writeByte 0x55) (bench 0 false false [false]) = .next t ∧
      (eventsSince (bench 0 false false [false]) t)[45]? = some (.smp false) :=
  ⟨_, exec_eq _ _, by decide⟩

/-- Two states that differ in working registers and agree in what persists. -/
theorem witness_same_persistent :
    ∃ t t', (bench 1 true true []).samePersistent
        { bench 1 true true [] with shift := 0xFF, bitcnt := 3, pollcnt := 7, regI := 9, regJ := 9, regM := 1,
                                    rdata := 0x55, dlycnt := 4, status := .tmo } ∧
      exec (.writeByte 1) (bench 1 true true []) = .next t ∧
      exec (.writeByte 1)
        { bench 1 true true [] with shift := 0xFF, bitcnt := 3, pollcnt := 7, regI := 9, regJ := 9, regM := 1,
                                    rdata := 0x55, dlycnt := 4, status := .tmo } = .next t' :=
  ⟨_, _, by decide, exec_eq _ _, exec_eq _ _⟩

/-- Two states that differ in every working register but `RDATA`, at an idle engine and before a reset in the middle of a
command. -/
theorem witness_observable_agreement :
    (∃ t, (bench 1 true true []).sameObservable
        { bench 1 true true [] with cmd := 9, shift := 0xFF, bitcnt := 3, pollcnt := 7, regI := 9, regJ := 9, regM := 1,
                                    dlycnt := 4 } ∧
      step (bench 1 true true []) = .next t) ∧
    (∃ t, ({ bench 1 true true [] with host := [.commandThenReset 0x1000000000000000#64 4] } : State).sameObservable
        { bench 1 true true [] with host := [.commandThenReset 0x1000000000000000#64 4], shift := 0xFF } ∧
      step { bench 1 true true [] with host := [.commandThenReset 0x1000000000000000#64 4] } = .next t) :=
  ⟨⟨_, by decide, rfl⟩, ⟨_, by decide, rfl⟩⟩

theorem witness_timeout_reported :
    ∃ t, exec (.writeByte 0x3C) (bench 2 false false [true, true, true]) = .next t ∧ t.status = .tmo :=
  ⟨_, exec_eq _ _, by decide⟩

theorem witness_start_then_stop :
    ∃ t u, (bench 1 true true []).pinsIdle ∧ exec .start (bench 1 true true []) = .next t ∧ exec .stop t = .next u :=
  ⟨_, _, by decide, exec_eq _ _, exec_eq _ _⟩

/-- Both clauses, from the one prior state of the pins that shows a STOP pattern before the START, and from idle. -/
theorem witness_wire_patterns :
    (bench 1 true false []).sdaDir = .out ∧ (bench 1 true true []).sdaDir = .out ∧
    (∃ t, exec .start (bench 1 true false []) = .next t) ∧ (∃ t, exec .stop (bench 1 true true []) = .next t) :=
  ⟨rfl, rfl, ⟨_, exec_eq _ _⟩, ⟨_, exec_eq _ _⟩⟩

theorem witness_eight_data_bits : ∃ t, exec (.writeByte 0xFF) (bench 0 false false [false]) = .next t := ⟨_, exec_eq _ _⟩

/-- Both clauses: low on the last sample of the budget (V32), and never low (V33). -/
theorem witness_ack_poll :
    (2 < (bench 2 false false [true, true, false]).params.pb ∧
      sampleAt (bench 2 false false [true, true, false]) 2 = false ∧
      ∀ j < 2, sampleAt (bench 2 false false [true, true, false]) j = true) ∧
    (∀ j < (bench 2 false false [true, true, true]).params.pb,
      sampleAt (bench 2 false false [true, true, true]) j = true) := by decide

/-- At the last place of the budget, and at the first of a budget of one (V30). -/
theorem witness_acknowledged_wait :
    (2 < (bench 2 false false [true, true, false]).params.pb ∧
      sampleAt (bench 2 false false [true, true, false]) 2 = false) ∧
    (0 < (bench 0 false false [false]).params.pb ∧ sampleAt (bench 0 false false [false]) 0 = false) := by decide

/-- V31: a budget of one. -/
theorem witness_timed_out_byte :
    ∀ k < (bench 0 false false [true]).params.pb, sampleAt (bench 0 false false [true]) k = true := by decide

theorem witness_received_bits : ∃ t, exec (.readByte true) (bench 0 false true []) = .next t := ⟨_, exec_eq _ _⟩

theorem witness_register_read : (benchMem 1 v75Bus [(0, 1), (0xFFFF, 2)] []).memoriesWf := by decide

theorem witness_transfer : v50.memoriesWf ∧ v50.sdaDir = .out ∧ v50.bufWe = false := by decide

/-- V49's message writes address 0xFFFF; the next address, 0x0000, lies outside its leg. -/
theorem witness_transfer_frame :
    ∃ t, (benchMem 1 [] [] [(0, packMsg 0x41 .rd false 1 0xFFFF)]).memoriesWf ∧
      exec (.xfer 0 1) (benchMem 1 [] [] [(0, packMsg 0x41 .rd false 1 0xFFFF)]) = .next t ∧
      ∀ m ∈ messagesOf (benchMem 1 [] [] [(0, packMsg 0x41 .rd false 1 0xFFFF)]) 0 1, msgDir m = .rd →
        (0x0000#16) ∉ bufAddrs (msgPtr m) (msgLen m).toNat :=
  ⟨_, by decide, exec_eq _ _, by
    have h : ((messagesOf (benchMem 1 [] [] [(0, packMsg 0x41 .rd false 1 0xFFFF)]) 0 1).all fun m =>
        decide (msgDir m = .rd → (0x0000#16) ∉ bufAddrs (msgPtr m) (msgLen m).toNat)) = true := by decide +kernel
    simpa only [List.all_eq_true, decide_eq_true_eq] using h⟩

/-- V42: the address of the first of two messages is not acknowledged. -/
def v42 : State :=
  benchMem 1 [true, true] [] [(0, packMsg 0xA0 .wr false 2 0x0100), (1, packMsg 0xA0 .rd false 3 0x0200)]

theorem witness_address_timeout :
    (2#16) ≠ 0 ∧ msgNostart (msgEntry v42 0) = false ∧ ∀ k < v42.params.pb, sampleAt v42 k = true := by decide

/-- V45: a first message that continues. -/
theorem witness_write_leg :
    msgNostart (msgEntry (benchMem 1 [] [] [(0, packMsg 0x40 .wr true 2 0x0010)]) 0) = true ∧
    msgDir (msgEntry (benchMem 1 [] [] [(0, packMsg 0x40 .wr true 2 0x0010)]) 0) = .wr := by decide

/-- Three messages without data, all acknowledged: the third is the first to get no START. -/
def threeEmpty : State :=
  benchMem 1 [false, false, false] []
    [(0, packMsg 0x40 .wr false 0 0), (1, packMsg 0x42 .rd false 0 0), (2, packMsg 0x44 .wr false 0 0)]

theorem witness_only_first_two_starts :
    (∀ m ∈ messagesOf threeEmpty 0 3, msgNostart m = false ∧ msgLen m = 0) ∧
    ∀ k < (3#16).toNat, sampleAt threeEmpty k = false := by
  have h : ((messagesOf threeEmpty 0 3).all fun m => decide (msgNostart m = false ∧ msgLen m = 0)) = true := by
    decide +kernel
  exact ⟨by simpa only [List.all_eq_true, decide_eq_true_eq] using h, by decide +kernel⟩

theorem witness_timed_out_transfer : ∃ t, exec (.xfer 0 2) v42 = .next t ∧ t.status = .tmo :=
  ⟨_, exec_eq _ _, by decide⟩

/-- A wait acknowledged on the last sample of the budget, and one that is not. -/
theorem witness_cycles :
    highsOf (bench 1 true true [true, false]).params.pb (sampleAt (bench 1 true true [true, false])) <
      (bench 1 true true [true, false]).params.pb ∧
    ¬ highsOf (bench 1 true true [true, true]).params.pb (sampleAt (bench 1 true true [true, true])) <
      (bench 1 true true [true, true]).params.pb := by decide

end Sys2Proof.Tests
end

section
/-! The statements on the build parameters, on what a command's trace tells, and on the host's writes of the two
memories. -/

namespace Sys2Proof.Machine

/-! ## Build parameters -/

/-- A command abandoned by reset leaves the build as it found it. -/
theorem abandonAfter_params (n : Nat) (s t : State) : (abandonAfter n s t).params = s.params :=
  replay_keeps (P := fun u => u.params = s.params) (by constructor <;> simp) _ s rfl

/-- Settles O23, over the seven ways a step can go: a command keeps the build (`exec_params`), and every other step
writes it nowhere. -/
theorem noStepChangesABuildParameter : Obligations.NoStepChangesABuildParameter := by
  intro s t h
  obtain ⟨-, -, rfl⟩ | ⟨-, -, rfl⟩ | ⟨_, -, rfl⟩ | ⟨_, _, _, -, -, -, hi⟩ | ⟨_, _, _, -, -, rfl⟩ |
    ⟨_, _, _, -, -, rfl⟩ | ⟨_, n, _, _, u, -, -, -, -, rfl⟩ := step_cases h
  · rfl
  · rfl
  · rfl
  · simpa using exec_params hi
  · rfl
  · rfl
  · simpa using abandonAfter_params n (nextHostAct s) u

/-! ## What a trace tells -/

/-- Two states agree in all that micro-operations write and answer from: the pins, `BUF`, the trace, and the bus agent's
answers with the count of samples that selects its free draws. -/
structure State.sameWire (r t : State) : Prop where
  sclOut : r.sclOut = t.sclOut
  sdaOut : r.sdaOut = t.sdaOut
  sdaDir : r.sdaDir = t.sdaDir
  buf : r.buf = t.buf
  trace : r.trace = t.trace
  bus : r.bus = t.bus
  samples : r.samples = t.samples

theorem State.sameWire.trans {r s t : State} (h : r.sameWire s) (h' : s.sameWire t) : r.sameWire t :=
  ⟨h.sclOut.trans h'.sclOut, h.sdaOut.trans h'.sdaOut, h.sdaDir.trans h'.sdaDir, h.buf.trans h'.buf,
    h.trace.trans h'.trace, h.bus.trans h'.bus, h.samples.trans h'.samples⟩

/-- A micro-operation does the same to the wire and to `BUF` in two states that agree in both: the byte it reads and the
level it samples are the same. -/
theorem State.sameWire.replayEvent {r t : State} (h : r.sameWire t) (e : Event) :
    (replayEvent e r).sameWire (replayEvent e t) := by
  obtain ⟨hscl, hsda, hdir, hbuf, htrace, hbus, hsamples⟩ := h
  have happend : ∀ new : Event, r.trace ++ [new] = t.trace ++ [new] := fun new => by rw [htrace]
  cases e with
  | sda v => exact ⟨hscl, rfl, hdir, hbuf, happend _, hbus, hsamples⟩
  | scl v => exact ⟨rfl, hsda, hdir, hbuf, happend _, hbus, hsamples⟩
  | dir d => exact ⟨hscl, hsda, rfl, hbuf, happend _, hbus, hsamples⟩
  | dly => exact ⟨hscl, hsda, hdir, hbuf, happend _, hbus, hsamples⟩
  | smp b =>
    have hsmp : nextSample r = nextSample t := nextSample_congr hbus hsamples
    exact ⟨hscl, hsda, hdir, hbuf, by simp [Machine.replayEvent, htrace, hsmp], congrArg List.tail hbus,
      congrArg (· + 1) hsamples⟩
  | rd a v =>
    have hrd : bufByte r a = bufByte t a := bufByte_congr hbuf a
    exact ⟨hscl, hsda, hdir, hbuf, by simp [Machine.replayEvent, htrace, hrd], hbus, hsamples⟩
  | wr a v => exact ⟨hscl, hsda, hdir, congrArg (Memory.write a.toNat v) hbuf, happend _, hbus, hsamples⟩

/-- `t` is what replaying the events appended since `s` makes of `s`, as far as the pins, `BUF`, the trace and the bus
agent's answers go. -/
def ReplayReaches (s t : State) : Prop :=
  ∃ evs, t.trace = s.trace ++ evs ∧ (replay evs s).sameWire t

namespace ReplayReaches

variable {s t : State}

theorem refl (s : State) : ReplayReaches s s :=
  ⟨[], by simp, by constructor <;> rfl⟩

/-- An operation without an event changes nothing the trace tells. -/
theorem silent (h : ReplayReaches s t) {u : State} (hu : t.sameWire u := by constructor <;> rfl) :
    ReplayReaches s u := by
  obtain ⟨evs, htrace, hwire⟩ := h
  exact ⟨evs, hu.trace ▸ htrace, hwire.trans hu⟩

/-- A micro-operation is replayed by the event it appends. -/
theorem event (h : ReplayReaches s t) (e : Event) (he : (replayEvent e t).trace = t.trace ++ [e]) :
    ReplayReaches s (replayEvent e t) := by
  obtain ⟨evs, htrace, hwire⟩ := h
  refine ⟨evs ++ [e], by rw [he, htrace, List.append_assoc], ?_⟩
  rw [replay_append]
  exact hwire.replayEvent e

/-- The seven operations with an event append the one that replays them; the others are silent. -/
theorem microClosed (s : State) : MicroClosed (ReplayReaches s) where
  sda v _ h := h.event (.sda v) rfl
  scl v _ h := h.event (.scl v) rfl
  dir d _ h := h.event (.dir d) rfl
  dly _ h := h.event .dly rfl
  smp t h := h.event (.smp (nextSample t)) rfl
  memRead a t h := h.event (.rd a (bufByte t a)) rfl
  memWrite a v _ h := h.event (.wr a v) rfl
  setShift _ _ h := h.silent
  shiftOut _ h := h.silent
  shiftIn _ _ h := h.silent
  setBitcnt _ _ h := h.silent
  countBit _ h := h.silent
  setPollcnt _ _ h := h.silent
  countPoll _ h := h.silent
  setI _ _ h := h.silent
  setJ _ _ h := h.silent
  setM _ _ h := h.silent
  setStatus _ _ h := h.silent

theorem commandClosed (s : State) : CommandClosed (ReplayReaches s) :=
  (microClosed s).commandClosed (fun _ _ h => h.silent) (fun _ h => h.silent) (fun _ _ h => h.silent)
    (fun _ _ h => h.silent)

end ReplayReaches

/-- Every command is told by its trace. -/
theorem exec_replayReaches {i : Instr} {s t : State} (h : exec i s = .next t) : ReplayReaches s t :=
  (ReplayReaches.commandClosed s).exec (ReplayReaches.refl s) h

/-- Settles O25: `ReplayReaches` is kept by every micro-operation, so by every command. -/
theorem traceTellsPinsAndBuffer : Obligations.TraceTellsPinsAndBuffer := by
  intro i s t h
  obtain ⟨evs, htrace, hwire⟩ := exec_replayReaches h
  exact ⟨evs, htrace, hwire.sclOut, hwire.sdaOut, hwire.sdaDir, hwire.buf, hwire.bus, hwire.trace⟩

/-! ## Writes of a memory by the host -/

/-- `BUF[b]` after the host has set `BUF[a]`, in a state whose memory is canonical. -/
theorem bufByte_setBuf (s : State) (a b : Half) (v : Byte) (h : Memory.wf bufSize s.buf) :
    bufByte (setBuf a v s) b = if b = a then v else bufByte s b := by
  rw [← bufByte_memWrite s a b v h]
  exact bufByte_congr rfl b

/-- `MSGT[j]` after the host has set `MSGT[k]`, in a state whose table is canonical. -/
theorem msgEntry_setMsg (s : State) (k j : MsgIndex) (e : MsgWord) (h : Memory.wf msgtSize s.msgt) :
    msgEntry (setMsg k e s) j = if j = k then e else msgEntry s j := by
  simp only [msgEntry, setMsg_msgt, Memory.read_write _ _ _ _ h.1, BitVec.toNat_inj]
  split <;> rfl

/-- A step takes the host's action at the head of the queue. -/
theorem step_of_host {s : State} {act : HostAct} {rest : List HostAct} (hh : s.host = act :: rest) :
    step s = hostStep act s := by
  simp [step, hh]

/-- What waits for `BUSY = 0` answers at once at an idle engine. -/
theorem whenIdle_idle {s : State} (hb : s.busy = false) (r : Result) : whenIdle s r = r := by
  simp [whenIdle, hb]

/-- The head of a queue taken, its tail is left and nothing else changes. -/
theorem nextHostAct_of_host {s : State} {act : HostAct} {rest : List HostAct} (hh : s.host = act :: rest) :
    nextHostAct s = { s with host := rest } := by
  simp [nextHostAct, hh]

/-- Settles O15: the step is `setBuf` or `setMsg` after the action is taken from the queue, and a read after such a write
is `Memory.read_write`. -/
theorem hostWriteSetsOneCell : Obligations.HostWriteSetsOneCell := by
  intro s t rest hwf hb h
  obtain ⟨hbuf, hmsgt⟩ := hwf
  constructor
  · intro a v hh
    rw [step_of_host hh, hostStep, whenIdle_idle hb, nextHostAct_of_host hh] at h
    injection h with h
    subst h
    exact ⟨fun b => bufByte_setBuf _ a b v hbuf, rfl⟩
  · intro k e hh
    rw [step_of_host hh, hostStep, whenIdle_idle hb, nextHostAct_of_host hh] at h
    injection h with h
    subst h
    exact ⟨fun j => msgEntry_setMsg _ k j e hmsgt, rfl⟩

end Sys2Proof.Machine
end

section
/-! The statements on what a step does, and on what every step and every command keeps. -/

namespace Sys2Proof.Machine

/-! ## Decoding -/

/-- A command decodes from a word whose opcode is its own (R94, R95). -/
theorem opcode_of_decode {w : CmdWord} {i : Instr} (h : decode w = .ok i) : i.opcode = fieldOp w := by
  unfold decode at h
  split at h
  · cases h
  · split at h <;> cases h <;> apply BitVec.eq_of_toNat_eq <;> simp_all [Instr.opcode]

/-- The encoder's word decodes to the command it was made of (R91, R94, R95). -/
theorem decode_encode (i : Instr) : decode (encode i) = .ok i := by
  cases i with
  | readByte ack => cases ack <;> simp [decode, encode, operandAck]
  | _ => simp [decode, encode, operandMbase, operandReg8]

/-- All 64 bits of a table word are the word itself. -/
theorem tableWord_toNat (w : CmdWord) : tableWord 64 w.toNat = w := by
  simp [tableWord, Nat.mod_eq_of_lt w.isLt]

/-! ## What each step does -/

variable {s s' t t' : State} {w : CmdWord} {rest : List HostAct} {i : Instr}

/-- An idle engine with nothing to do holds everything (R31). -/
theorem step_idle (hb : s.busy = false) (hh : s.host = []) : step s = .next s := by
  simp [step, hh, engineCycle_idle hb]

/-- A completing cycle ends, whatever but a reset the host has waiting (R227 a, c). -/
theorem step_completing (hb : s.busy = true) (hh : ∀ rest, s.host ≠ .reset :: rest) :
    step s = .next (endCompletion s) := by
  have hwait : ∀ r : Result, whenIdle s r = .next (endCompletion s) := fun r => by
    simp [whenIdle, hb, engineCycle_busy hb]
  cases hq : s.host with
  | nil => simp [step, hq, engineCycle_busy hb]
  | cons act rest =>
    rw [step_of_host hq]
    cases act with
    | reset => exact absurd hq (hh rest)
    | _ => exact hwait _

/-- Reset is taken in any cycle (R227 a). -/
theorem step_reset (hh : s.host = .reset :: rest) : step s = .next (resetBlock (nextHostAct s)) :=
  step_of_host hh

/-- An idle engine runs the command a presented word decodes to (R33, R95). -/
theorem step_command (hb : s.busy = false) (hh : s.host = .command w :: rest) (hd : decode w = .ok i) :
    step s = exec i (latchCmd w (nextHostAct s)) := by
  simp [step_of_host hh, hostStep, whenIdle_idle hb, runWord, hd]

theorem step_writeMsg {k : MsgIndex} {e : MsgWord} (hb : s.busy = false) (hh : s.host = .writeMsg k e :: rest) :
    step s = .next (setMsg k e (nextHostAct s)) := by
  rw [step_of_host hh, hostStep, whenIdle_idle hb]

theorem step_writeBuf {a : Half} {v : Byte} (hb : s.busy = false) (hh : s.host = .writeBuf a v :: rest) :
    step s = .next (setBuf a v (nextHostAct s)) := by
  rw [step_of_host hh, hostStep, whenIdle_idle hb]

/-- A command abandoned by reset leaves what its first `n` events did (R251). -/
theorem step_commandThenReset {n : Nat} {u : State} (hb : s.busy = false) (hh : s.host = .commandThenReset w n :: rest)
    (hd : decode w = .ok i) (hu : exec i (latchCmd w (nextHostAct s)) = .next u) :
    step s = .next (abandonAfter n (nextHostAct s) u) := by
  simp [step_of_host hh, hostStep, whenIdle_idle hb, runWordThenReset, runWord, hd, hu]

/-- Settles O10: `step_command`, the latched word and the queue's tail written out. -/
theorem stepRunsTheDecodedCommand : Obligations.StepRunsTheDecodedCommand := by
  intro s w rest i hb hh hd
  rw [step_command hb hh hd, nextHostAct_of_host hh]
  rfl

/-- Settles O11: the presented word is at the head of the queue of an idle engine, and decodes to its command. -/
theorem presentedWordRunsNext : Obligations.PresentedWordRunsNext := by
  intro s i
  rw [State.withFetchWord, tableWord_toNat,
    step_command (presentWord_busy _ s) (presentWord_host _ s) (decode_encode i), nextHostAct_of_host (presentWord_host _ s)]
  rfl

/-- Settles O13: `step_completing`. -/
theorem completingCycleLastsOneStep : Obligations.CompletingCycleLastsOneStep := by
  intro s hb hh
  rw [step_completing hb hh, endCompletion]

/-- Settles O14: `step_idle`. -/
theorem idleEngineHoldsEverything : Obligations.IdleEngineHoldsEverything :=
  fun _ hb hh => step_idle hb hh

/-! ## Completion -/

/-- Every command ends in its own completing cycle (R227 c). -/
theorem exec_completing (h : exec i s = .next t) : t.completing i.opcode := by
  have hrun : ProcClosed fun u : State => u.busy = true ∧ u.seq = .running i.opcode :=
    MicroClosed.procClosed (by constructor <;> simp +contextual)
  rw [exec_eq] at h
  injection h with h
  subst h
  exact ⟨rfl, hrun.body (fun _ _ h => h) (fun _ _ h => h) i ⟨rfl, rfl⟩⟩

/-- Settles O30: `exec_eq` gives the next state, `exec_completing` its cycle; the rest is what every command keeps. -/
theorem everyCommandCompletes : Obligations.EveryCommandCompletes := by
  intro i s
  have h := exec_eq i s
  exact ⟨_, h, exec_completing h, exec_params h, exec_cmd h, exec_msgt h, exec_host h⟩

/-- Settles O12: the second word is still at the head of the queue in the completing cycle, which takes nothing from the
host (`step_completing`), and the first command does not depend on it (`exec_with_host`). -/
theorem secondWordWaitsForTheResponse : Obligations.SecondWordWaitsForTheResponse := by
  intro s w w' rest i hb hh hd
  obtain ⟨t, ht, hcompl, -, hcmd, -, hhost⟩ := everyCommandCompletes i { s with host := .command w' :: rest, cmd := w }
  have hstep := stepRunsTheDecodedCommand s w _ i hb hh hd
  have hstep_alone := stepRunsTheDecodedCommand { s with host := [.command w] } w [] i hb rfl hd
  obtain ⟨-, hbusy, -⟩ := id hcompl
  refine ⟨t, endCompletion t, hstep.trans ht, hcompl, by simp [cmdReady, hbusy], hcmd, hhost,
    hstep_alone.trans (exec_with_host [] ht), step_completing hbusy (by simp [hhost]), rfl, rfl, fun i' hd' => ?_⟩
  exact stepRunsTheDecodedCommand _ w' rest i' rfl hhost hd'

/-! ## The boundary invariant -/

/-- SDA is driven, and the pins are not at SCL high with SDA low (R50, R126, R265). -/
def PinsAtBoundary (s : State) : Prop := s.sdaDir = .out ∧ ¬ (s.sclOut = true ∧ s.sdaOut = false)

/-- Every procedure, begun with SDA driven and the pins allowed, ends so: an AckWait with SDA high, whatever its outcome,
and a byte received with SCL low. -/
theorem pinsAtBoundary_procClosed : ProcClosed PinsAtBoundary where
  start _ h := ⟨by rw [startProc_eq]; exact h.1, by simp [startProc_eq]⟩
  stop _ h := ⟨by rw [stopProc_eq]; exact h.1, by simp [stopProc_eq]⟩
  init _ _ := ⟨by simp [initProc_eq], by simp [initProc_eq]⟩
  send _ _ _ := ⟨by simp [sendByte_eq, sentState, ackEnd], by simp [sendByte_eq, sentState, ackEnd]⟩
  read _ _ _ := ⟨by simp [readByte_eq, readState], by simp [readByte_eq, readState]⟩
  memRead _ _ h := h
  memWrite _ _ _ h := h
  setI _ _ h := h
  setJ _ _ h := h
  setM _ _ h := h
  setStatus _ _ h := h

/-- Every command keeps `PinsAtBoundary`. -/
theorem exec_pinsAtBoundary (hs : PinsAtBoundary s) (h : exec i s = .next t) : PinsAtBoundary t :=
  CommandClosed.exec
    { pinsAtBoundary_procClosed with
      accept := fun _ _ h => h, finish := fun _ h => h, setRdata := fun _ _ h => h, setHalfPeriod := fun _ _ h => h } hs h

/-- Every command leaves the strobe down (R20). -/
theorem exec_bufWe (hs : s.bufWe = false) (h : exec i s = .next t) : t.bufWe = false :=
  (MicroClosed.commandClosed (P := fun t => t.bufWe = false) (by constructor <;> simp) (by simp) (by simp) (by simp)
    (by simp)).exec hs h

/-- A command run on a latched word leaves the engine in its completing cycle, and keeps the rest of the invariant. -/
theorem exec_inv (hs : s.Inv) (hop : i.opcode = fieldOp s.cmd) (h : exec i s = .next t) : t.Inv := by
  obtain ⟨⟨-, -, hwe⟩, hdir, hpins, hbuf, hmsgt⟩ := hs
  obtain ⟨hrsp, hbusy, hseq⟩ := exec_completing h
  obtain ⟨hdir', hpins'⟩ := exec_pinsAtBoundary ⟨hdir, hpins⟩ h
  have hseq' : t.seq = .running (fieldOp t.cmd) := by rw [hseq, hop, exec_cmd h]
  exact ⟨⟨by simp [hbusy, hseq'], by rw [hrsp, hbusy], exec_bufWe hwe h⟩, hdir', hpins', exec_buf_wf hbuf h,
    by rw [exec_msgt h]; exact hmsgt⟩

/-- A reset block meets the invariant if its memories are canonical. -/
theorem resetBlock_inv (h : s.memoriesWf) : (resetBlock s).Inv :=
  ⟨⟨rfl, rfl, rfl⟩, rfl, by simp, h⟩

/-- Replaying events keeps both memories canonical. -/
theorem replay_memoriesWf (evs : List Event) (h : s.memoriesWf) : (replay evs s).memoriesWf := by
  refine replay_keeps (P := State.memoriesWf) ?_ evs s h
  constructor
  case memWrite => exact fun a v s h => ⟨buf_wf_write _ a v h.1, h.2⟩
  all_goals intros; assumption

/-- Settles O20, over the seven ways a step can go. -/
theorem everyStepKeepsTheBoundaryInvariant : Obligations.EveryStepKeepsTheBoundaryInvariant := by
  intro s t hs h
  obtain ⟨⟨hseq, hrsp, hwe⟩, hdir, hpins, hbuf, hmsgt⟩ := id hs
  obtain ⟨-, -, rfl⟩ | ⟨-, -, rfl⟩ | ⟨_, -, rfl⟩ | ⟨w, _, i, -, hb, hd, hi⟩ | ⟨k, e, _, -, -, rfl⟩ |
    ⟨a, v, _, -, -, rfl⟩ | ⟨_, n, _, _, u, -, -, -, -, rfl⟩ := step_cases h
  · exact ⟨⟨rfl, rfl, hwe⟩, hdir, hpins, hbuf, hmsgt⟩
  · exact hs
  · exact resetBlock_inv ⟨hbuf, hmsgt⟩
  · have hidle : (latchCmd w (nextHostAct s)).engineAtBoundary := by simp [State.engineAtBoundary, hseq, hrsp, hwe, hb]
    exact exec_inv ⟨hidle, hdir, hpins, hbuf, hmsgt⟩ (opcode_of_decode hd) hi
  · exact ⟨⟨hseq, hrsp, hwe⟩, hdir, hpins, hbuf, msgt_wf_write _ k e hmsgt⟩
  · exact ⟨⟨hseq, hrsp, hwe⟩, hdir, hpins, buf_wf_write _ a v hbuf, hmsgt⟩
  · exact resetBlock_inv (replay_memoriesWf _ ⟨hbuf, hmsgt⟩)

/-! ## Two runs -/

/-- Acceptance writes the flags and the response (R33), so what persists decides all that is observable from there on. -/
theorem accept_sameObservable (op : BitVec 4) (h : s.samePersistent s') :
    (accept op s).sameObservable (accept op s') :=
  ⟨h, rfl, rfl, rfl, rfl, rfl⟩

/-- The same command, run from states that agree in what persists, ends in observably equal states. -/
theorem exec_sameObservable (h : s.samePersistent s') (i : Instr) :
    ∃ t t', exec i s = .next t ∧ exec i s' = .next t' ∧ t.sameObservable t' :=
  linked_observable.exec (fun _ {_ _} ⟨hp, hst, hb, hsq, hr, _⟩ => ⟨hp, hst, hb, hsq, hr, rfl⟩)
    (fun _ {_ _} ⟨⟨hpar, hscl, hsda, hdir, _, hrest⟩, hresp⟩ => ⟨⟨hpar, hscl, hsda, hdir, rfl, hrest⟩, hresp⟩)
    (fun {_ _} ⟨hp, hst, hb, hsq, _, hr⟩ => ⟨hp, hst, hb, hsq, rfl, hr⟩) (accept_sameObservable i.opcode h)

/-- Settles O27: `exec_sameObservable`. -/
theorem noCommandReadsWhatAnotherLeft : Obligations.NoCommandReadsWhatAnotherLeft := by
  intro i s s' t t' h ht ht'
  obtain ⟨u, u', hu, hu', hobs⟩ := exec_sameObservable h i
  obtain rfl : t = u := by simpa [ht] using hu
  obtain rfl : t' = u' := by simpa [ht'] using hu'
  exact hobs

/-- Agreement holds after reset of two states that agreed: reset gives every flag and pin a value of its own. -/
theorem resetBlock_sameObservable (h : s.sameObservable s') : (resetBlock s).sameObservable (resetBlock s') := by
  obtain ⟨⟨hpar, -, -, -, -, -, hmsgt, hbuf, htrace, hbus, hsamples, hhost⟩, -⟩ := h
  exact ⟨⟨hpar, rfl, rfl, rfl, congrArg Params.hpReset hpar, rfl, hmsgt, hbuf, htrace, hbus, hsamples, hhost⟩, rfl, rfl,
    rfl, rfl, rfl⟩

/-- Agreement holds after the same host action is taken from both queues. -/
theorem nextHostAct_sameObservable (h : s.sameObservable s') : (nextHostAct s).sameObservable (nextHostAct s') := by
  simp_all [State.sameObservable, State.samePersistent]

/-- Settles O28: whichever of its seven ways `s` steps, `s'` goes the same way, since both see the same `BUSY` and the same
queue, and the rules for that way relate the next states. -/
theorem everyStepKeepsObservableAgreement : Obligations.EveryStepKeepsObservableAgreement := by
  intro s s' t h hstep
  have hnext := nextHostAct_sameObservable h
  obtain ⟨⟨-, -, -, -, -, -, -, -, htrace, -, -, hhost⟩, hst, hbusy, -, -, hrd⟩ := id h
  obtain ⟨hb, hq, rfl⟩ | ⟨hb, hq, rfl⟩ | ⟨_, hq, rfl⟩ | ⟨w, _, i, hq, hb, hd, hi⟩ | ⟨k, e, _, hq, hb, rfl⟩ |
    ⟨a, v, _, hq, hb, rfl⟩ | ⟨w, n, _, i, u, hq, hb, hd, hi, rfl⟩ := step_cases hstep
  all_goals rw [hhost] at hq
  · exact ⟨_, step_completing (hbusy ▸ hb) hq, h.1, hst, rfl, rfl, rfl, hrd⟩
  · exact ⟨_, step_idle (hbusy ▸ hb) hq, h⟩
  · exact ⟨_, step_reset hq, resetBlock_sameObservable hnext⟩
  · obtain ⟨u, u', hu, hu', hobs⟩ :=
      exec_sameObservable (s := latchCmd w (nextHostAct s)) (s' := latchCmd w (nextHostAct s')) hnext.1 i
    obtain rfl : t = u := by simpa [hi] using hu
    exact ⟨u', (step_command (hbusy ▸ hb) hq hd).trans hu', hobs⟩
  · exact ⟨_, step_writeMsg (hbusy ▸ hb) hq, by simp_all [State.sameObservable, State.samePersistent]⟩
  · exact ⟨_, step_writeBuf (hbusy ▸ hb) hq, by simp_all [State.sameObservable, State.samePersistent]⟩
  · obtain ⟨v, v', hv, hv', hobs⟩ :=
      exec_sameObservable (s := latchCmd w (nextHostAct s)) (s' := latchCmd w (nextHostAct s')) hnext.1 i
    obtain rfl : u = v := by simpa [hi] using hv
    have hevents : eventsSince (nextHostAct s) u = eventsSince (nextHostAct s') v' := by
      obtain ⟨⟨-, -, -, -, -, -, -, -, htr, -⟩, -⟩ := hobs
      simp only [eventsSince, htr, nextHostAct_trace, htrace]
    refine ⟨_, step_commandThenReset (hbusy ▸ hb) hq hd hv', ?_⟩
    unfold abandonAfter
    rw [hevents]
    exact resetBlock_sameObservable (replay_observable _ hnext)

/-! ## What every command keeps or writes -/

/-- Settles O21: of the pins' invariant, the direction alone; no procedure needs the rest to keep it. -/
theorem directionIsRestored : Obligations.DirectionIsRestored := by
  intro i s t hs h
  have hdir : ProcClosed fun u : State => u.sdaDir = .out := by
    constructor <;> simp +contextual [startProc_eq, stopProc_eq, initProc_eq, sendByte_eq, readByte_eq, sentState, ackEnd,
      readState]
  exact CommandClosed.exec { hdir with
    accept := fun _ _ h => h, finish := fun _ h => h, setRdata := fun _ _ h => h, setHalfPeriod := fun _ _ h => h } hs h

/-- The pseudocode of STOP, XFER and the four register commands ends with a Stop. -/
theorem commandBody_ends_with_stop (hi : i.opcode ∈ [0x2#4, 0x5#4, 0x6#4, 0x7#4, 0x8#4, 0x9#4]) (s : State) :
    ∃ u, commandBody i s = stopProc u := by
  cases i with
  | stop => exact ⟨_, rfl⟩
  | xfer mbase count => exact ⟨_, rfl⟩
  | wreg8 dev reg ptr len => exact ⟨_, rfl⟩
  | wreg16 dev reg ptr len => exact ⟨_, rfl⟩
  | rreg8 dev reg ptr len => exact ⟨_, rfl⟩
  | rreg16 dev reg ptr len => exact ⟨_, rfl⟩
  | _ => simp [Instr.opcode] at hi

/-- Settles O22: a Stop leaves both lines high (`stopProc_eq`), and SDA is still driven by O21. -/
theorem busIsIdleAfterEveryStop : Obligations.BusIsIdleAfterEveryStop := by
  intro i s t hi hs h
  have hdir := directionIsRestored i s t hs h
  obtain ⟨u, hu⟩ := commandBody_ends_with_stop hi (accept i.opcode s)
  rw [exec_eq, hu, stopProc_eq] at h
  injection h with h
  subst h
  exact ⟨rfl, rfl, hdir⟩

/-- Settles O24: SETCFG writes it, and no procedure the other ten commands are made of does. -/
theorem onlySetcfgWritesHalfPeriod : Obligations.OnlySetcfgWritesHalfPeriod := by
  intro i s t h
  have hkeep : ProcClosed fun u : State => u.halfPeriod = s.halfPeriod := MicroClosed.procClosed (by constructor <;> simp)
  have ha : (accept i.opcode s).halfPeriod = s.halfPeriod := rfl
  rw [exec_eq] at h
  injection h with h
  subst h
  rw [finish_halfPeriod]
  cases i with
  | init => exact hkeep.init _ ha
  | start => exact hkeep.start _ ha
  | stop => exact hkeep.stop _ ha
  | writeByte b => exact hkeep.sendKeepStatus b _ ha
  | readByte ack => exact (setRdata_halfPeriod _ _).trans (hkeep.read ack _ ha)
  | xfer mbase count => exact hkeep.transfer mbase count _ ha
  | wreg8 dev reg ptr len => exact hkeep.regWrite false dev (regOfByte reg) ptr len _ ha
  | wreg16 dev reg ptr len => exact hkeep.regWrite true dev reg ptr len _ ha
  | rreg8 dev reg ptr len => exact hkeep.regRead false dev (regOfByte reg) ptr len _ ha
  | rreg16 dev reg ptr len => exact hkeep.regRead true dev reg ptr len _ ha
  | setcfg n => rfl

end Sys2Proof.Machine
end

section
/-! The statements that give a command as the whole state it leaves. -/

namespace Sys2Proof.Machine

/-! ## Reset -/

/-- Settles O16: each value is a field of `State.reset`. -/
theorem resetValuesOfTheSpec : Obligations.ResetValuesOfTheSpec :=
  ⟨rfl, rfl, rfl, rfl, rfl, rfl, rfl, rfl, rfl, rfl, rfl⟩

/-- Settles O19: both lines are high, and memories in which nothing is written are canonical. -/
theorem resetMeetsTheBoundaryInvariant : Obligations.ResetMeetsTheBoundaryInvariant :=
  ⟨⟨rfl, rfl, rfl⟩, rfl, fun h => Bool.noConfusion h.2, Memory.wf_nil _, Memory.wf_nil _⟩

/-! ## System operations and signal primitives -/

/-- Settles O31: `initProc_eq` between acceptance and completion. -/
theorem initIdlesTheBus : Obligations.InitIdlesTheBus := by
  intro s
  rw [exec_eq, commandBody, initProc_eq]
  rfl

/-- Settles O32: `startProc_eq` between acceptance and completion. -/
theorem startRunsTheSixMicroOperations : Obligations.StartRunsTheSixMicroOperations := by
  intro s
  rw [exec_eq, commandBody, startProc_eq]
  rfl

/-- Settles O33: `stopProc_eq` between acceptance and completion. -/
theorem stopRunsTheSixMicroOperations : Obligations.StopRunsTheSixMicroOperations := by
  intro s
  rw [exec_eq, commandBody, stopProc_eq]
  rfl

/-- Settles O34: nothing stands between acceptance and completion but the write of the register. -/
theorem setcfgWritesHalfPeriodOnly : Obligations.SetcfgWritesHalfPeriodOnly := by
  intro n s
  rw [exec_eq, commandBody]
  rfl

/-- Settles O48: the message loop of no message is empty, so `stopProc_eq` is all there is. -/
theorem emptyTransferIsOneStop : Obligations.EmptyTransferIsOneStop := by
  intro s mbase
  rw [exec_eq, commandBody, transfer, stopProc_eq]
  rfl

/-! ## One byte -/

/-- After a sent byte `SCL` is high exactly where the whole budget was: no more samples than the budget are taken. -/
theorem sentState_sclOut (v : Byte) (s : State) : (sentState v s).sclOut = decide (highs s = s.params.pb) := by
  have hle := highs_le s
  have hscl : (sentState v s).sclOut = !decide (highs s < s.params.pb) := rfl
  rw [hscl, ← decide_not, decide_eq_decide]
  omega

/-- Settles O37: `sendKeepStatus_eq` between acceptance and completion. -/
theorem writeByteSendsOneByte : Obligations.WriteByteSendsOneByte := by
  intro b s pb k
  rw [exec_eq, commandBody, sendKeepStatus_eq]
  congr 1
  apply State.ext
  case sclOut => exact sentState_sclOut b _
  all_goals rfl

/-- Settles O42: `readByte_eq` between acceptance and completion. -/
theorem readByteReceivesOneByte : Obligations.ReadByteReceivesOneByte := by
  intro ack s
  rw [exec_eq, commandBody, readByte_eq]
  simp only [← nextByte_eq_byteAt]
  rfl

/-! ## Register operations -/

/-! ### What acceptance and a START leave to come -/

@[simp] theorem sampleAt_accept (op : BitVec 4) (s : State) : sampleAt (accept op s) = sampleAt s := rfl
@[simp] theorem bufByte_accept (op : BitVec 4) (s : State) : bufByte (accept op s) = bufByte s := rfl
@[simp] theorem sampleAt_startProc (s : State) : sampleAt (startProc s) = sampleAt s := rfl
@[simp] theorem bufByte_startProc (s : State) : bufByte (startProc s) = bufByte s := rfl
@[simp] theorem startProc_params (s : State) : (startProc s).params = s.params := rfl
@[simp] theorem startProc_buf (s : State) : (startProc s).buf = s.buf := rfl

theorem startProc_trace (s : State) : (startProc s).trace = s.trace ++ startEvents := by rw [startProc_eq]

@[simp] theorem receivedCells_accept (op : BitVec 4) (s : State) (first : Nat) (ptr len : Half) :
    receivedCells (accept op s) first ptr len = receivedCells s first ptr len := rfl

/-- The address bytes of a register operation, high first where it is a wide one (R68). -/
def regBytes (wide : Bool) (reg : Half) : List Byte := if wide then [regHigh reg, regLow reg] else [regLow reg]

/-- RegWrite is a START, its head bytes, its buffer and a STOP (R195). -/
theorem regWrite_eq (wide : Bool) (dev : Byte) (reg ptr len : Half) (s : State) :
    regWrite wide dev reg ptr len s =
      stopProc (sendBuffer ptr len
        (sendAllKeep (addrByte s.params.addrAlign dev .wr :: regBytes wide reg) (startProc s))) := by
  cases wide <;> rfl

/-- RegRead is a START, its head bytes, a repeated START with the read-address byte, its buffer and a STOP (R196). -/
theorem regRead_eq (wide : Bool) (dev : Byte) (reg ptr len : Half) (s : State) :
    regRead wide dev reg ptr len s =
      stopProc (readBuffer ptr len
        (sendAllDrop [addrByte s.params.addrAlign dev .rd]
          (startProc (sendAllDrop (addrByte s.params.addrAlign dev .wr :: regBytes wide reg) (startProc s))))) := by
  cases wide <;> simp [regRead, regBytes, sendAllDrop, sendDropStatus_eq, addrByteOf]

/-! ### What several bytes and a buffer leave -/

/-- The last of two runs of counts: the second's, or, where that is empty, the first's. -/
theorem getLast?_append_getD {β : Type} (f : Nat → β) (a b : List Nat) :
    (b.getLast?.map f).getD (f (a.getLast?.getD 0)) = f ((a ++ b).getLast?.getD 0) := by
  rw [List.getLast?_append]
  cases b.getLast? with
  | some k => rfl
  | none => simp

/-- The last of a run of counts that is not empty. -/
theorem getLast?_map_getD {β : Type} (f : Nat → β) {a : List Nat} (ha : a ≠ []) (x : β) :
    (a.getLast?.map f).getD x = f (a.getLast?.getD 0) := by
  simp [List.getLast?_eq_some_getLast ha]

/-- Where a byte is sent there is a count. -/
theorem ackCounts_ne_nil (pb : Nat) (answers : Nat → Level) {n : Nat} (h : n ≠ 0) : ackCounts pb answers n ≠ [] := by
  rw [← List.length_pos_iff, ackCounts_length]
  exact Nat.pos_of_ne_zero h

/-- No byte sent touches the response pulse. -/
theorem rspValid_procClosed (b : Bool) : ProcClosed fun s : State => s.rspValid = b :=
  MicroClosed.procClosed (by constructor <;> simp)

theorem sendAllKeep_rspValid (bytes : List Byte) (s : State) : (sendAllKeep bytes s).rspValid = s.rspValid := by
  induction bytes generalizing s with
  | nil => rfl
  | cons b bytes ih => exact (ih _).trans ((rspValid_procClosed _).sendKeepStatus b s rfl)

theorem sendAllDrop_rspValid (bytes : List Byte) (s : State) : (sendAllDrop bytes s).rspValid = s.rspValid := by
  induction bytes generalizing s with
  | nil => rfl
  | cons b bytes ih => exact (ih _).trans ((rspValid_procClosed _).sendDropStatus b s rfl)

/-- One byte or more sent, each status kept: the whole state but for the levels of the pins. -/
theorem sendAllKeep_eq {bytes : List Byte} (hne : bytes ≠ []) (s : State) :
    let counts := ackCounts s.params.pb (sampleAt s) bytes.length
    ∃ sclL sdaL, sendAllKeep bytes s =
      { s with
        sclOut := sclL, sdaOut := sdaL, sdaDir := .out
        trace := s.trace ++ sendsEvents s.params.pb bytes counts
        status := ackStatus s.params.pb (counts.getLast?.getD 0)
        bus := s.bus.drop (samplesForCounts s.params.pb counts)
        samples := s.samples + samplesForCounts s.params.pb counts
        shift := 0, bitcnt := 8, pollcnt := BitVec.ofNat 16 (counts.getLast?.getD 0), dlycnt := 0 } := by
  intro counts
  have hcounts : counts ≠ [] := ackCounts_ne_nil _ _ (by simpa using hne)
  refine ⟨(sendAllKeep bytes s).sclOut, (sendAllKeep bytes s).sdaOut, ?_⟩
  apply State.ext <;>
    simp [sendAllKeep_spec, sendAllKeep_last, sendAllKeep_keeps, sendAllKeep_rspValid, hne, counts,
      getLast?_map_getD _ hcounts]

/-- One byte or more sent, each status discarded: the whole state but for the levels of the pins. -/
theorem sendAllDrop_eq {bytes : List Byte} (hne : bytes ≠ []) (s : State) :
    let counts := ackCounts s.params.pb (sampleAt s) bytes.length
    ∃ sclL sdaL, sendAllDrop bytes s =
      { s with
        sclOut := sclL, sdaOut := sdaL, sdaDir := .out
        trace := s.trace ++ sendsEvents s.params.pb bytes counts
        bus := s.bus.drop (samplesForCounts s.params.pb counts)
        samples := s.samples + samplesForCounts s.params.pb counts
        shift := 0, bitcnt := 8, pollcnt := BitVec.ofNat 16 (counts.getLast?.getD 0), dlycnt := 0 } := by
  intro counts
  have hcounts : counts ≠ [] := ackCounts_ne_nil _ _ (by simpa using hne)
  refine ⟨(sendAllDrop bytes s).sclOut, (sendAllDrop bytes s).sdaOut, ?_⟩
  apply State.ext <;>
    simp [sendAllDrop_spec, sendAllDrop_last, sendAllDrop_keeps, sendAllDrop_rspValid, hne, counts,
      getLast?_map_getD _ hcounts]

/-- The cells of a buffer, as the statements list them. -/
theorem cellsFrom_zero (s : State) (ptr : Half) (n : Nat) :
    cellsFrom s ptr 0#16 n = (bufAddrs ptr n).map fun a => (a, bufByte s a) := by
  simp [cellsFrom, bufAddrs]

/-- A buffer sent: the whole state but for the levels of the pins. -/
theorem sendBuffer_eq (ptr len : Half) (s : State) :
    let counts := ackCounts s.params.pb (sampleAt s) len.toNat
    ∃ sclL sdaL, sendBuffer ptr len s =
      { s with
        sclOut := sclL, sdaOut := sdaL
        sdaDir := if len.toNat = 0 then s.sdaDir else .out
        trace := s.trace ++
          sendBufferEvents s.params.pb ((bufAddrs ptr len.toNat).map fun a => (a, bufByte s a)) counts
        status := (counts.getLast?.map (ackStatus s.params.pb)).getD s.status
        bus := s.bus.drop (samplesForCounts s.params.pb counts)
        samples := s.samples + samplesForCounts s.params.pb counts
        shift := if len.toNat = 0 then s.shift else 0
        bitcnt := if len.toNat = 0 then s.bitcnt else 8
        pollcnt := (counts.getLast?.map (BitVec.ofNat 16)).getD s.pollcnt
        regJ := len
        dlycnt := if len.toNat = 0 then s.dlycnt else 0 } := by
  intro counts
  have hcells : ∀ j : Half, cellsFrom (setJ j s) ptr 0#16 len.toNat = cellsFrom s ptr 0#16 len.toNat :=
    fun _ => cellsFrom_congr rfl ..
  have hanswers : ∀ j : Half, sampleAt (setJ j s) = sampleAt s := fun _ => rfl
  refine ⟨(sendBuffer ptr len s).sclOut, (sendBuffer ptr len s).sdaOut, ?_⟩
  apply State.ext <;>
    simp [sendBuffer, sendLoop_spec, sendLoop_last, sendLoop_keeps, hcells, cellsFrom_zero, hanswers, counts]

/-! ### WREG -/

/-- One byte or more and then a buffer sent: the whole state but for the levels of the pins. The counts of high samples are
those of all the bytes together. -/
theorem sendBuffer_sendAllKeep_eq {head : List Byte} (hne : head ≠ []) (ptr len : Half) (s : State) :
    let pb := s.params.pb
    let counts := ackCounts pb (sampleAt s) (head.length + len.toNat)
    ∃ sclL sdaL, sendBuffer ptr len (sendAllKeep head s) =
      { s with
        sclOut := sclL, sdaOut := sdaL, sdaDir := .out
        trace := s.trace ++ sendsEvents pb head (counts.take head.length) ++
          sendBufferEvents pb ((bufAddrs ptr len.toNat).map fun a => (a, bufByte s a)) (counts.drop head.length)
        status := ackStatus pb (counts.getLast?.getD 0)
        bus := s.bus.drop (samplesForCounts pb counts), samples := s.samples + samplesForCounts pb counts
        shift := 0, bitcnt := 8, pollcnt := BitVec.ofNat 16 (counts.getLast?.getD 0), regJ := len, dlycnt := 0 } := by
  intro pb counts
  have hlen : (ackCounts pb (sampleAt s) head.length).length = head.length := ackCounts_length ..
  have hcounts : counts = _ := ackCounts_add ..
  obtain ⟨_, _, hhead⟩ := sendAllKeep_eq hne s
  obtain ⟨sclL, sdaL, hbuffer⟩ := sendBuffer_eq ptr len (sendAllKeep head s)
  have hanswers := sampleAt_of_drop (s := s) (t := sendAllKeep head s) (by rw [hhead]) (by rw [hhead])
  have hbytes : ∀ a, bufByte (sendAllKeep head s) a = bufByte s a := bufByte_congr (by rw [hhead])
  refine ⟨sclL, sdaL, hbuffer.trans ?_⟩
  rw [hcounts, List.take_left' hlen, List.drop_left' hlen, samplesForCounts_append, ← getLast?_append_getD (ackStatus pb),
    ← getLast?_append_getD (BitVec.ofNat 16)]
  simp only [hanswers, hbytes]
  simp only [hhead, ite_self, List.drop_drop, Nat.add_assoc]
  rfl

/-- RegWrite, whole. -/
theorem regWrite_state (wide : Bool) (dev : Byte) (reg ptr len : Half) (s : State) :
    let pb := s.params.pb
    let head := addrByte s.params.addrAlign dev .wr :: regBytes wide reg
    let counts := ackCounts pb (sampleAt s) (head.length + len.toNat)
    regWrite wide dev reg ptr len s =
      { s with
        sclOut := true, sdaOut := true, sdaDir := .out
        trace := s.trace ++ startEvents ++ sendsEvents pb head (counts.take head.length) ++
          sendBufferEvents pb ((bufAddrs ptr len.toNat).map fun a => (a, bufByte s a)) (counts.drop head.length) ++
          stopEvents
        status := ackStatus pb (counts.getLast?.getD 0)
        bus := s.bus.drop (samplesForCounts pb counts), samples := s.samples + samplesForCounts pb counts
        shift := 0, bitcnt := 8, pollcnt := BitVec.ofNat 16 (counts.getLast?.getD 0), regJ := len, dlycnt := 0 } := by
  intro pb head counts
  obtain ⟨_, _, h⟩ := sendBuffer_sendAllKeep_eq (List.cons_ne_nil _ (regBytes wide reg)) ptr len (startProc s)
  rw [regWrite_eq, h, stopProc_eq]
  simp only [sampleAt_startProc, bufByte_startProc, startProc_params, startProc_trace]
  rfl

/-- A command that is RegWrite between acceptance and completion writes a register as the statement says. -/
theorem writesRegister {i : Instr} {wide : Bool} {dev : Byte} {reg ptr len : Half} {s : State}
    (h : exec i s = .next (finish (regWrite wide dev reg ptr len (accept i.opcode s)))) :
    WritesRegister i (addrByte s.params.addrAlign dev .wr :: regBytes wide reg) ptr len s := by
  rw [WritesRegister, h, regWrite_state]
  simp only [sampleAt_accept, bufByte_accept, accept_params]
  rfl

/-- The one byte of an 8-bit register address (R68). -/
theorem regBytes_regOfByte (reg : Byte) : regBytes false (regOfByte reg) = [reg] := by
  simp [regBytes, regLow, regOfByte]

/-- Settles O44: WREG8 and WREG16 are RegWrite, with one register byte or two. -/
theorem registerWriteSendsEveryByte : Obligations.RegisterWriteSendsEveryByte := by
  intro s dev ptr len
  constructor
  · intro reg
    rw [← regBytes_regOfByte reg]
    exact writesRegister (i := .wreg8 dev reg ptr len) rfl
  · intro reg
    exact writesRegister (i := .wreg16 dev reg ptr len) (wide := true) (reg := reg) rfl

/-! ### RREG -/

/-- One byte or more, a repeated START and one byte more sent, each status discarded: the whole state but for the levels of
the pins. The counts of high samples are those of all the bytes together. -/
theorem sendAllDrop_restart_eq {head : List Byte} (hne : head ≠ []) (v : Byte) (s : State) :
    let pb := s.params.pb
    let counts := ackCounts pb (sampleAt s) (head.length + 1)
    ∃ sclL sdaL, sendAllDrop [v] (startProc (sendAllDrop head s)) =
      { s with
        sclOut := sclL, sdaOut := sdaL, sdaDir := .out
        trace := s.trace ++ sendsEvents pb head (counts.take head.length) ++ startEvents ++
          sendsEvents pb [v] (counts.drop head.length)
        bus := s.bus.drop (samplesForCounts pb counts), samples := s.samples + samplesForCounts pb counts
        shift := 0, bitcnt := 8, pollcnt := BitVec.ofNat 16 (counts.getLast?.getD 0), dlycnt := 0 } := by
  intro pb counts
  have hlen : (ackCounts pb (sampleAt s) head.length).length = head.length := ackCounts_length ..
  have hcounts : counts = _ := ackCounts_add ..
  obtain ⟨_, _, hhead⟩ := sendAllDrop_eq hne s
  obtain ⟨sclL, sdaL, haddr⟩ := sendAllDrop_eq (List.cons_ne_nil v []) (startProc (sendAllDrop head s))
  have hanswers : sampleAt (startProc (sendAllDrop head s)) = _ :=
    sampleAt_of_drop (s := s) (t := sendAllDrop head s) (by rw [hhead]) (by rw [hhead])
  have hlast := getLast?_map_getD (BitVec.ofNat 16)
    (ackCounts_ne_nil pb (fun k => sampleAt s (k + samplesForCounts pb (ackCounts pb (sampleAt s) head.length))) one_ne_zero)
  refine ⟨sclL, sdaL, haddr.trans ?_⟩
  rw [hcounts, List.take_left' hlen, List.drop_left' hlen, samplesForCounts_append,
    ← getLast?_append_getD (BitVec.ofNat 16), hlast]
  simp only [hanswers]
  simp only [startProc_eq, hhead, List.drop_drop, Nat.add_assoc]
  rfl

/-- A buffer received: the whole state but for the levels of the pins. -/
theorem readBuffer_eq (ptr len : Half) (s : State) :
    let cells := filledFrom (sampleAt s) ptr 0#16 len.toNat
    ∃ sclL sdaL, readBuffer ptr len s =
      { s with
        sclOut := sclL, sdaOut := sdaL
        sdaDir := if len.toNat = 0 then s.sdaDir else .out
        trace := s.trace ++ readBufferEvents cells
        buf := writeCells cells s.buf
        bufWe := s.bufWe && decide (len.toNat = 0)
        bus := s.bus.drop (8 * len.toNat), samples := s.samples + 8 * len.toNat
        shift := (cells.getLast?.map Prod.snd).getD s.shift
        bitcnt := if len.toNat = 0 then s.bitcnt else 8
        regJ := len
        dlycnt := if len.toNat = 0 then s.dlycnt else 0 } := by
  intro cells
  have hanswers : ∀ j : Half, sampleAt (setJ j s) = sampleAt s := fun _ => rfl
  refine ⟨(readBuffer ptr len s).sclOut, (readBuffer ptr len s).sdaOut, ?_⟩
  apply State.ext <;> simp [readBuffer, readLoop_spec, readLoop_last, readLoop_keeps, hanswers, cells]

/-- The cells of a buffer filled after `first` answers, as the statement lists them. -/
theorem filledFrom_zero (s : State) (first : Nat) (ptr len : Half) :
    filledFrom (fun k => sampleAt s (k + first)) ptr 0#16 len.toNat = receivedCells s first ptr len := by
  simp [filledFrom, receivedCells, byteAt_shift]

/-- RegRead, whole. -/
theorem regRead_state (wide : Bool) (dev : Byte) (reg ptr len : Half) (s : State) :
    let pb := s.params.pb
    let head := addrByte s.params.addrAlign dev .wr :: regBytes wide reg
    let counts := ackCounts pb (sampleAt s) (head.length + 1)
    let cells := receivedCells s (samplesForCounts pb counts) ptr len
    regRead wide dev reg ptr len s =
      { s with
        sclOut := true, sdaOut := true, sdaDir := .out
        trace := s.trace ++ startEvents ++ sendsEvents pb head (counts.take head.length) ++ startEvents ++
          sendsEvents pb [addrByte s.params.addrAlign dev .rd] (counts.drop head.length) ++
          readBufferEvents cells ++ stopEvents
        buf := writeCells cells s.buf, bufWe := s.bufWe && decide (len = 0)
        bus := s.bus.drop (samplesForCounts pb counts + 8 * len.toNat)
        samples := s.samples + samplesForCounts pb counts + 8 * len.toNat
        shift := (cells.getLast?.map Prod.snd).getD 0, bitcnt := 8
        pollcnt := BitVec.ofNat 16 (counts.getLast?.getD 0), regJ := len, dlycnt := 0 } := by
  intro pb head counts cells
  have hlen : decide (len = 0) = decide (len.toNat = 0) := by simp [← BitVec.toNat_inj]
  have hne : head ≠ [] := List.cons_ne_nil _ _
  set sent := sendAllDrop [addrByte s.params.addrAlign dev .rd] (startProc (sendAllDrop head (startProc s)))
  have hbody : regRead wide dev reg ptr len s = stopProc (readBuffer ptr len sent) := regRead_eq ..
  obtain ⟨_, _, hsent⟩ : ∃ _ _, sent = _ := sendAllDrop_restart_eq hne _ (startProc s)
  obtain ⟨_, _, hread⟩ := readBuffer_eq ptr len sent
  have hanswers : sampleAt sent = _ := sampleAt_of_drop (s := s) (by rw [hsent]; rfl) (by rw [hsent]; rfl)
  rw [hbody, hread, stopProc_eq, hlen, hanswers, filledFrom_zero]
  simp only [hsent, sampleAt_startProc, startProc_params, startProc_trace, startProc_buf, ite_self, List.drop_drop]
  rfl

/-- What a filled buffer reads as: the received bytes at its addresses, and elsewhere what stood there. -/
theorem bufByte_receivedCells {s t : State} (first : Nat) (ptr len : Half) (hwf : Memory.wf bufSize s.buf)
    (ht : t.buf = writeCells (receivedCells s first ptr len) s.buf) :
    (∀ c ∈ receivedCells s first ptr len, bufByte t c.1 = c.2) ∧
    (∀ a, (∀ c ∈ receivedCells s first ptr len, c.1 ≠ a) → bufByte t a = bufByte s a) := by
  have hnodup : ((receivedCells s first ptr len).map Prod.fst).Nodup := by
    rw [← filledFrom_zero]
    exact filledFrom_nodup _ _ _ _ (by have := len.isLt; omega)
  have hread := read_writeCells _ s.buf hwf hnodup
  constructor
  · intro c hc
    rw [bufByte, ht, (hread c.1).1 c.2 hc]
    rfl
  · intro a ha
    rw [bufByte, ht, (hread a).2 ha]
    rfl

/-- A command that is RegRead between acceptance and completion reads a register as the statement says. -/
theorem readsRegister {i : Instr} {wide : Bool} {dev : Byte} {reg ptr len : Half} {s : State} (hwf : s.memoriesWf)
    (h : exec i s = .next (finish (regRead wide dev reg ptr len (accept i.opcode s)))) :
    ReadsRegister i (addrByte s.params.addrAlign dev .wr :: regBytes wide reg) dev ptr len s := by
  have hstate := regRead_state wide dev reg ptr len (accept i.opcode s)
  simp only [sampleAt_accept, receivedCells_accept, accept_params, accept_buf] at hstate
  obtain ⟨hin, hout⟩ := bufByte_receivedCells (t := finish (regRead wide dev reg ptr len (accept i.opcode s)))
    _ ptr len hwf.1 (by rw [hstate, finish_buf])
  refine ⟨_, h, hin, hout, ?_⟩
  rw [hstate]
  rfl

/-- Settles O45: RREG8 and RREG16 are RegRead, with one register byte or two. -/
theorem registerReadFillsTheBuffer : Obligations.RegisterReadFillsTheBuffer := by
  intro s dev ptr len hwf
  constructor
  · intro reg
    rw [← regBytes_regOfByte reg]
    exact readsRegister (i := .rreg8 dev reg ptr len) hwf rfl
  · intro reg
    exact readsRegister (i := .rreg16 dev reg ptr len) (wide := true) (reg := reg) hwf rfl

/-! ## Timeouts -/

/-- A register read leaves the status alone (R199). -/
theorem regRead_status (wide : Bool) (dev : Byte) (reg ptr len : Half) (s : State) :
    (regRead wide dev reg ptr len s).status = s.status := by
  rw [regRead_state]

/-- A build with a budget of one sample, a bus that never acknowledges, and one message without data. -/
def neverAcknowledged : State :=
  { State.reset with
    params := ⟨0, .left, 0⟩, bus := [true, true, true], msgt := [(0, packMsg 0x40 .wr false 0 0)] }

/-- Settles O29: acceptance sets `OK`, and a command outside the four has no part that writes the status; each of the four,
run where nothing is acknowledged, reports `TMO`. -/
theorem onlyFourCommandsReportTimeout : Obligations.OnlyFourCommandsReportTimeout := by
  constructor
  · intro i s t h hst
    cases i with
    | writeByte b => simp [Instr.opcode]
    | xfer mbase count => simp [Instr.opcode]
    | wreg8 dev reg ptr len => simp [Instr.opcode]
    | wreg16 dev reg ptr len => simp [Instr.opcode]
    | init => rw [initIdlesTheBus] at h; cases h; cases hst
    | start => rw [startRunsTheSixMicroOperations] at h; cases h; cases hst
    | stop => rw [stopRunsTheSixMicroOperations] at h; cases h; cases hst
    | readByte ack => rw [readByteReceivesOneByte] at h; cases h; cases hst
    | setcfg n => rw [setcfgWritesHalfPeriodOnly] at h; cases h; cases hst
    | rreg8 dev reg ptr len =>
      rw [exec_eq, commandBody] at h
      injection h with h
      rw [← h, finish_status, regRead_status] at hst
      cases hst
    | rreg16 dev reg ptr len =>
      rw [exec_eq, commandBody] at h
      injection h with h
      rw [← h, finish_status, regRead_status] at hst
      cases hst
  · intro op hop
    simp only [List.mem_cons, List.not_mem_nil, or_false] at hop
    obtain rfl | rfl | rfl | rfl := hop
    · exact ⟨.writeByte 0, neverAcknowledged, _, rfl, exec_eq _ _, by decide⟩
    · exact ⟨.xfer 0 1, neverAcknowledged, _, rfl, exec_eq _ _, by decide⟩
    · exact ⟨.wreg8 0 0 0 0, neverAcknowledged, _, rfl, exec_eq _ _, by decide⟩
    · exact ⟨.wreg16 0 0 0 0, neverAcknowledged, _, rfl, exec_eq _ _, by decide⟩

end Sys2Proof.Machine
end

section
/-! The statement that XFER is its message level: a simulation of the message level by the machine, one lemma per operation of
a message, then the loops. -/

namespace Sys2Proof.Machine

/-! ## The relation -/

/-- From `s` on, the machine in `t` has come as far as `x` says: its events, its status, its buffer and its use of the bus
agent's answers, with the build and the message table those of `s` and the buffer in canonical form. -/
structure Tells (s : State) (x : TransferView) (t : State) : Prop where
  trace : t.trace = s.trace ++ x.events
  status : t.status = x.status
  mem : ∀ a, bufByte t a = x.mem a
  bus : t.bus = s.bus.drop x.used
  samples : t.samples = s.samples + x.used
  params : t.params = s.params
  msgt : t.msgt = s.msgt
  wf : Memory.wf bufSize t.buf

namespace Tells

variable {s t : State} {x : TransferView}

/-- The answers left after those the message level has used. -/
theorem answers (h : Tells s x t) : sampleAt t = fun k => sampleAt s (x.used + k) := by
  rw [sampleAt_of_drop h.bus h.samples]
  funext k
  rw [Nat.add_comm]

theorem setI (h : Tells s x t) (n : Half) : Tells s x (setI n t) := { h with }
theorem setJ (h : Tells s x t) (n : Half) : Tells s x (setJ n t) := { h with }
theorem setM (h : Tells s x t) (e : MsgWord) : Tells s x (setM e t) := { h with }

theorem start (h : Tells s x t) : Tells s { x with events := x.events ++ startEvents } (startProc t) where
  __ := h
  trace := by rw [startProc_trace, h.trace, List.append_assoc]

/-- A byte sent, its status kept (R175, R177). -/
theorem send (h : Tells s x t) (v : Byte) :
    Tells s (x.send s.params.pb (sampleAt s) v) (sendKeepStatus v t) := by
  have hk : highs t = highsOf s.params.pb fun i => sampleAt s (x.used + i) := by
    rw [highs_eq_highsOf, h.answers, h.params]
  rw [sendKeepStatus_eq, TransferView.send, ← hk]
  exact
    { h with
      trace := by simp [h.trace, h.params]
      status := by simp [h.params]
      bus := by simp [h.bus, h.params]
      samples := by simp [h.samples, h.params, Nat.add_assoc] }

/-- A byte of the buffer read before it is sent (R177). -/
theorem memRead (h : Tells s x t) (a : Half) :
    Tells s { x with events := x.events ++ [.rd a (x.mem a)] } (memRead a t).2 where
  __ := h
  trace := by simp [h.trace, h.mem]

/-- A byte received and then written to the buffer (R178). -/
theorem readWrite (h : Tells s x t) (ack : Bool) (a : Half) :
    Tells s
      { x with
        events := x.events ++ readEvents ack (byteAt (sampleAt s) x.used) ++ [.wr a (byteAt (sampleAt s) x.used)]
        mem := fun b => if b = a then byteAt (sampleAt s) x.used else x.mem b
        used := x.used + 8 }
      (memWrite a (readByte ack t).1 (readByte ack t).2) := by
  have hv : nextByte t = byteAt (sampleAt s) x.used := by
    rw [nextByte_eq_byteAt, h.answers]
    simp only [byteAt, Nat.zero_add]
  rw [readByte_eq, hv]
  exact
    { h with
      trace := by simp [h.trace, hv]
      mem := fun b => by
        simp only [bufByte_memWrite (readState ack t) _ _ _ h.wf, ← h.mem b]
        rfl
      bus := by simp [h.bus]
      samples := by simp [h.samples, Nat.add_assoc]
      wf := buf_wf_write _ _ _ h.wf }

end Tells

/-! ## The byte loops -/

/-- The addresses of a loop of `n` bytes, from byte `j` of the buffer at `ptr` on. -/
def addrsFrom (ptr j : Half) (n : Nat) : List Half := (List.range n).map fun i => ptr + (j + BitVec.ofNat 16 i)

theorem addrsFrom_zero (ptr : Half) (n : Nat) : addrsFrom ptr 0 n = bufAddrs ptr n := by
  simp [addrsFrom, bufAddrs]

theorem addrsFrom_succ (ptr j : Half) (n : Nat) : addrsFrom ptr j (n + 1) = (ptr + j) :: addrsFrom ptr (j + 1) n := by
  have h (i : Nat) : j + BitVec.ofNat 16 (i + 1) = j + 1 + BitVec.ofNat 16 i := by
    rw [BitVec.add_assoc, Nat.add_comm i 1, BitVec.ofNat_add]
    rfl
  have hzero : j + BitVec.ofNat 16 0 = j := BitVec.add_zero j
  simp only [addrsFrom, List.range_succ_eq_map, List.map_cons, List.map_map, Function.comp_def, Nat.succ_eq_add_one, h,
    hzero]

theorem addrsFrom_ne_nil (ptr j : Half) (n : Nat) : addrsFrom ptr j n ≠ [] ↔ n ≠ 0 := by
  simp [addrsFrom]

namespace Tells

variable {s t : State} {x : TransferView}

theorem sendLoop (h : Tells s x t) (n : Nat) (ptr : Half) :
    Tells s (x.write s.params.pb (sampleAt s) (addrsFrom ptr t.regJ n)) (sendLoop n ptr t) := by
  induction n generalizing t x with
  | zero => exact h
  | succ n ih =>
    have hsent := (h.memRead (ptr + t.regJ)).send (x.mem (ptr + t.regJ))
    have hj : ∀ v u, (sendKeepStatus v u).regJ = u.regJ := fun v u => by simp [sendKeepStatus_eq]
    have hrest := ih (hsent.setJ (t.regJ + 1))
    rw [addrsFrom_succ, TransferView.write]
    simp only [Machine.sendLoop, bufAddr, hj, memRead_regJ]
    rw [← h.mem] at hrest ⊢
    exact hrest

theorem readLoop (h : Tells s x t) (n : Nat) (ptr : Half) :
    Tells s (x.read (sampleAt s) (addrsFrom ptr t.regJ n)) (readLoop n ptr t) := by
  induction n generalizing t x with
  | zero => exact h
  | succ n ih =>
    have hj : ∀ ack u, (readByte ack u).2.regJ = u.regJ := fun ack u => by simp [readByte_eq]
    have hrest := ih ((h.readWrite (decide (n ≠ 0)) (ptr + t.regJ)).setJ (t.regJ + 1))
    rw [addrsFrom_succ, TransferView.read]
    simp only [Machine.readLoop, bufAddr, hj, memWrite_regJ, addrsFrom_ne_nil]
    exact hrest

/-- The data of a message (R177, R178). -/
theorem legBody (h : Tells s x t) :
    Tells s (x.body s.params.pb (sampleAt s) t.regM) (legBody t) := by
  unfold Machine.legBody TransferView.body
  rw [← addrsFrom_zero]
  cases msgDir t.regM with
  | wr => exact (h.setJ 0).sendLoop _ _
  | rd => exact (h.setJ 0).readLoop _ _

end Tells

/-! ## The messages -/

/-- The Start rule over the index as a number (R173, R176). -/
theorem legStart_eq {t : State} {i : Nat} (hi : i < 65536) (hI : t.regI = BitVec.ofNat 16 i) :
    legStart t = if i ≤ 1 then startProc t else t := by
  have hzero : t.regI = 0 ↔ i = 0 := by rw [hI, ← BitVec.toNat_inj]; simp; omega
  have hone : t.regI = 1 ↔ i = 1 := by rw [hI, ← BitVec.toNat_inj]; simp; omega
  simp only [legStart, hzero, hone]
  obtain rfl | rfl | h : i = 0 ∨ i = 1 ∨ 2 ≤ i := by omega
  · rfl
  · rfl
  · rw [if_neg (by omega), if_neg (by omega), if_neg (by omega)]

/-- A message that continues is its data alone (R172). -/
theorem leg_nostart {mbase : MsgIndex} {t : State} (hns : msgNostart (loadMsg mbase t).regM = true) :
    leg mbase t = (decide ((legBody (loadMsg mbase t)).status = .tmo), legBody (loadMsg mbase t)) := by
  simp only [leg, hns, if_true]

/-- An address byte that times out is the end of the loop (R175). -/
theorem leg_addressTimeout {mbase : MsgIndex} {t : State} (hns : msgNostart (loadMsg mbase t).regM = false)
    (htmo : (legHead (loadMsg mbase t)).status = .tmo) : leg mbase t = (true, legHead (loadMsg mbase t)) := by
  simp only [leg, hns, htmo, if_true, if_false, Bool.false_eq_true]

/-- An address byte that is acknowledged is followed by the data (R174, R180). -/
theorem leg_addressed {mbase : MsgIndex} {t : State} (hns : msgNostart (loadMsg mbase t).regM = false)
    (htmo : (legHead (loadMsg mbase t)).status ≠ .tmo) :
    leg mbase t =
      (decide ((legBody (legHead (loadMsg mbase t))).status = .tmo), legBody (legHead (loadMsg mbase t))) := by
  simp only [leg, hns, htmo, if_false, Bool.false_eq_true]

namespace Tells

variable {s t : State} {x : TransferView}

/-- The Start and the address phase of a message (R173, R174). -/
theorem legHead (h : Tells s x t) {i : Nat} (hi : i < 65536) (hI : t.regI = BitVec.ofNat 16 i) :
    Tells s
      (TransferView.send s.params.pb (sampleAt s) (addrByte s.params.addrAlign (msgAddr t.regM) (msgDir t.regM))
        { x with events := x.events ++ (if i ≤ 1 then startEvents else []) })
      (legHead t) := by
  have hstart : Tells s { x with events := x.events ++ (if i ≤ 1 then startEvents else []) } (legStart t) := by
    rw [legStart_eq hi hI]
    split_ifs
    · exact h.start
    · rw [List.append_nil]
      exact h
  have hM : (legStart t).regM = t.regM := by
    rw [legStart_eq hi hI]
    split_ifs <;> rfl
  unfold Machine.legHead
  simp only [addrByteOf, hM, hstart.params]
  exact hstart.send _

/-- One message: the machine leaves the loop exactly where the message level does, and tells it either way. -/
theorem leg (h : Tells s x t) (mbase : MsgIndex) {i : Nat} (hi : i < 65536) (hI : t.regI = BitVec.ofNat 16 i) :
    ∃ y, Tells s y (leg mbase t).2 ∧ ∀ rest,
      TransferView.legs s.params.pb s.params.addrAlign (sampleAt s) i
          (msgEntry s (msgIndex mbase (BitVec.ofNat 16 i)) :: rest) x =
        if (Machine.leg mbase t).1 then y
        else TransferView.legs s.params.pb s.params.addrAlign (sampleAt s) (i + 1) rest y := by
  have hm : (loadMsg mbase t).regM = msgEntry s (msgIndex mbase (BitVec.ofNat 16 i)) := by
    rw [← hI]
    exact msgEntry_congr h.msgt _
  have hload : Tells s x (loadMsg mbase t) := h.setM _
  have hhead := hload.legHead hi hI
  have hheadM := (legHead_regs (loadMsg mbase t)).2
  by_cases hns : msgNostart (loadMsg mbase t).regM = true
  · have hbody := hload.legBody
    rw [leg_nostart hns]
    exact ⟨_, hbody, fun rest => by simp only [TransferView.legs, ← hm, hns, if_true, hbody.status, decide_eq_true_eq]⟩
  · rw [Bool.not_eq_true] at hns
    by_cases htmo : (Machine.legHead (loadMsg mbase t)).status = .tmo
    · rw [leg_addressTimeout hns htmo]
      refine ⟨_, hhead, fun rest => ?_⟩
      rw [hhead.status] at htmo
      simp only [TransferView.legs, ← hm, hns, htmo, if_true, if_false, Bool.false_eq_true]
    · have hbody := hhead.legBody
      rw [leg_addressed hns htmo]
      refine ⟨_, hbody, fun rest => ?_⟩
      rw [hhead.status] at htmo
      simp only [TransferView.legs, ← hm, hns, htmo, if_false, Bool.false_eq_true, hheadM, hbody.status,
        decide_eq_true_eq]

/-- The messages from index `i` on (R171, R172). -/
theorem messageLoop (h : Tells s x t) (mbase : MsgIndex) (n i : Nat) (hi : i + n ≤ 65536)
    (hI : t.regI = BitVec.ofNat 16 i) :
    Tells s
      (TransferView.legs s.params.pb s.params.addrAlign (sampleAt s) i
        ((List.range' i n).map fun k => msgEntry s (msgIndex mbase (BitVec.ofNat 16 k))) x)
      (messageLoop n mbase t) := by
  induction n generalizing i t x with
  | zero => exact h
  | succ n ih =>
    obtain ⟨y, hy, hlegs⟩ := h.leg mbase (show i < 65536 by omega) hI
    have hregI := leg_regI mbase t
    rw [List.range'_succ, List.map_cons, hlegs]
    unfold Machine.messageLoop
    rcases hleg : Machine.leg mbase t with ⟨out, u⟩
    rw [hleg] at hy hregI
    cases out with
    | true => exact hy
    | false =>
      refine ih (hy.setI _) (i + 1) (by omega) ?_
      simp only at hregI ⊢
      rw [setI_regI, hregI, hI, BitVec.ofNat_add]
      rfl

end Tells

/-! ## XFER -/

/-- What XFER keeps between acceptance and completion, besides the pins and the memories. -/
def SameFrame (s t : State) : Prop :=
  t.params = s.params ∧ t.halfPeriod = s.halfPeriod ∧ t.busy = s.busy ∧ t.seq = s.seq ∧
  t.cmd = s.cmd ∧ t.rdata = s.rdata ∧ t.msgt = s.msgt ∧ t.host = s.host

theorem sameFrame_procClosed (s : State) : ProcClosed (SameFrame s) :=
  MicroClosed.procClosed (by constructor <;> simp +contextual [SameFrame])

/-- Settles O46: the message loop tells the message level's legs from the start of the transfer (`Tells.messageLoop`); a Stop
follows, and the rest of the state is what no procedure writes. -/
theorem transferIsItsMessageLevel : Obligations.TransferIsItsMessageLevel := by
  intro s mbase count hwf hdir hwe x
  have hinit : Tells s { events := [], status := .ok, mem := bufByte s, used := 0 } (setI 0 (accept 0x5#4 s)) :=
    ⟨by simp, rfl, fun _ => rfl, rfl, rfl, rfl, rfl, hwf.1⟩
  have hloop := hinit.messageLoop mbase count.toNat 0 (by have := count.isLt; omega) rfl
  rw [← List.range_eq_range'] at hloop
  obtain ⟨hpar, hhalf, hbusy, hseq, hcmd, hrd, hmsgt, hhost⟩ :=
    (sameFrame_procClosed (accept 0x5#4 s)).messageLoop count.toNat mbase (setI 0 (accept 0x5#4 s)) (by simp [SameFrame])
  have hexec := exec_eq (.xfer mbase count) s
  have hdir' := directionIsRestored _ s _ hdir hexec
  have hwe' := exec_bufWe hwe hexec
  rw [commandBody, transfer, Instr.opcode, stopProc_eq] at hexec hdir' hwe'
  refine ⟨_, hexec, hloop.mem, ?_⟩
  apply State.ext
  case params => exact hpar
  case halfPeriod => exact hhalf
  case busy => exact hbusy
  case seq => exact hseq
  case cmd => exact hcmd
  case rdata => exact hrd
  case msgt => exact hmsgt
  case host => exact hhost
  case trace => exact congrArg (· ++ stopEvents) hloop.trace
  case status => exact hloop.status
  case bus => exact hloop.bus
  case samples => exact hloop.samples
  case sdaDir => exact hdir'.trans hdir.symm
  case bufWe => exact hwe'.trans hwe.symm
  all_goals rfl

end Sys2Proof.Machine
end

section
/-! The statements on the layout of a message entry and on operands. -/

namespace Sys2Proof

/-! ## A message table entry (R61) -/

/-- Two fields whose places adjoin are one field, the two side by side, at the lower place. -/
theorem placed_or_placed {n m w : Nat} (x : BitVec n) (y : BitVec m) {q p : Nat} (hq : q = m + p) :
    (x.setWidth w <<< q) ||| (y.setWidth w <<< p) = (x ++ y).setWidth w <<< p := by
  subst hq
  apply BitVec.eq_of_getLsbD_eq
  intro k hk
  simp only [BitVec.getLsbD_or, getLsbD_placed, BitVec.getLsbD_append, hk, decide_true, Bool.true_and]
  by_cases hp : k < p
  · have hmp : k < m + p := by omega
    simp [hp, hmp]
  by_cases hm : k - p < m
  · have hmp : k < m + p := by omega
    simp [hp, hm, hmp]
  · have hmp : ¬ k < m + p := by omega
    have hsub : k - (m + p) = k - p - m := by omega
    simp [hp, hm, hmp, hsub, getLsbD_beyond y (Nat.le_of_not_lt hm)]

/-- The places of an entry's five fields adjoin, from `ptr` at bit 0 up to `addr` (R61). -/
theorem packMsg_eq_append (addr : Byte) (d : MsgDir) (ns : Bool) (len ptr : Half) :
    packMsg addr d ns len ptr = addr ++ (if d = .rd then 1#1 else 0#1) ++ BitVec.ofBool ns ++ len ++ ptr := by
  have hd : BitVec.ofBool (decide (d = .rd)) = if d = .rd then 1#1 else 0#1 := by cases d <;> rfl
  have hptr : (ptr.setWidth 42 : MsgWord) = ptr.setWidth 42 <<< 0 := (BitVec.shiftLeft_zero _).symm
  rw [packMsg, hd, hptr, placed_or_placed _ _ (show 34 = 1 + 33 from rfl), placed_or_placed _ _ (show 33 = 1 + 32 from rfl),
    placed_or_placed _ _ (show 32 = 16 + 16 from rfl), placed_or_placed _ _ (show 16 = 16 + 0 from rfl),
    BitVec.shiftLeft_zero]
  exact BitVec.setWidth_eq _

/-- A bit is the field of width one at its place. -/
theorem ofBool_getLsbD {w : Nat} (x : BitVec w) (k : Nat) : BitVec.ofBool (x.getLsbD k) = x.extractLsb' k 1 := by
  apply BitVec.eq_of_getLsbD_eq
  intro i hi
  obtain rfl : i = 0 := by omega
  simp

/-- Every 42-bit value is the entry of its fields: they stand side by side and leave no bit out (R61). -/
theorem packMsg_fields (m : MsgWord) : packMsg (msgAddr m) (msgDir m) (msgNostart m) (msgLen m) (msgPtr m) = m := by
  have hd : (if msgDir m = .rd then 1#1 else 0#1) = m.extractLsb' 33 1 := by
    rw [← ofBool_getLsbD, msgDir]
    cases m.getLsbD 33 <;> rfl
  rw [packMsg_eq_append, hd, msgNostart, ofBool_getLsbD, msgAddr, msgLen, msgPtr,
    BitVec.extractLsb'_append_extractLsb'_eq_extractLsb' (show 34 = 33 + 1 from rfl),
    BitVec.extractLsb'_append_extractLsb'_eq_extractLsb' (show 33 = 32 + 1 from rfl),
    BitVec.extractLsb'_append_extractLsb'_eq_extractLsb' (show 32 = 16 + 16 from rfl),
    BitVec.extractLsb'_append_extractLsb'_eq_extractLsb' (show 16 = 0 + 16 from rfl)]
  exact BitVec.extractLsb'_eq_self

/-- Settles O7: a packed entry is its fields side by side (`packMsg_eq_append`), each read from it is the one packed, and
the fields of a value leave none of its bits out (`packMsg_fields`). -/
theorem messageEntryIsItsFiveFields : Obligations.MessageEntryIsItsFiveFields :=
  ⟨fun addr d ns len ptr => ⟨packMsg_eq_append addr d ns len ptr, msgAddr_packMsg .., msgDir_packMsg ..,
    msgNostart_packMsg .., msgLen_packMsg .., msgPtr_packMsg ..⟩, packMsg_fields⟩

end Sys2Proof

namespace Sys2Proof.Machine

/-! ## The address byte (R66) -/

/-- The low bit cleared and a bit put in its place: the seven high bits, then that bit. -/
theorem clearLowBit_or (a : Byte) (b : BitVec 1) : (a &&& 0xFE#8) ||| b.setWidth 8 = a.extractLsb' 1 7 ++ b := by
  revert a b; decide

/-- Under `RIGHT` the shift brings operand bits 6:0 to where `LEFT` has its address. -/
theorem extractLsb'_shiftLeft_one (a : Byte) : (a <<< 1).extractLsb' 1 7 = a.extractLsb' 0 7 := by
  revert a; decide

/-- Settles O8: `clearLowBit_or`, of the operand itself or of the operand shifted. -/
theorem addressByteOfOperandAndDirection : Obligations.AddressByteOfOperandAndDirection := by
  intro a
  have h := extractLsb'_shiftLeft_one a
  exact ⟨clearLowBit_or a 0#1, clearLowBit_or a 1#1, h ▸ clearLowBit_or (a <<< 1) 0#1,
    h ▸ clearLowBit_or (a <<< 1) 1#1⟩

/-! ## Indexes and addresses (R62, R63) -/

/-- Settles O9: both sums are taken in their own width, and narrowing the index to 8 bits changes no sum modulo 256. -/
theorem indexesAndAddressesWrap : Obligations.IndexesAndAddressesWrap := by
  constructor
  · intro mbase i
    rw [msgIndex, BitVec.toNat_add, BitVec.toNat_setWidth, Nat.add_mod_mod]
  · intro ptr j
    exact BitVec.toNat_add ptr j

end Sys2Proof.Machine
end

section
/-! The statements on the bits of a received byte and on what XFER leaves alone in `BUF`. -/

namespace Sys2Proof.Machine

/-! ## A received byte -/

/-- Bit `7 - k` of the byte that eight answers make is the `k`-th of them (R67, R145). -/
theorem byteAt_getLsbD (answers : Nat → Level) (n : Nat) {k : Nat} (hk : k < 8) :
    (byteAt answers n).getLsbD (7 - k) = answers (n + k) := by
  have hbits : (List.range 8).map (fun k => (byteAt answers n).getLsbD (7 - k)) =
      (List.range 8).map fun k => answers (n + k) := bitsOf_byteOf _ _ _ _ _ _ _ _
  exact List.map_inj_left.1 hbits k (List.mem_range.2 hk)

/-- Settles O43: READ_BYTE leaves the byte of its eight samples in the response (`readByteReceivesOneByte`). -/
theorem receivedByteHasTheSampledBits : Obligations.ReceivedByteHasTheSampledBits := by
  intro ack s t h k hk
  rw [readByteReceivesOneByte ack s] at h
  injection h with h
  subst h
  rw [byteAt_getLsbD _ _ hk, Nat.zero_add]

/-! ## What the message level leaves alone -/

namespace TransferView

variable (pb : Nat) (align : AddrAlign) (answers : Nat → Level)

theorem mem_send (v : Byte) (x : TransferView) : (x.send pb answers v).mem = x.mem := rfl

theorem mem_write (addrs : List Half) (x : TransferView) : (x.write pb answers addrs).mem = x.mem := by
  induction addrs generalizing x with
  | nil => rfl
  | cons b rest ih => rw [write, ih, mem_send]

/-- A read leg writes at its own addresses only (R178). -/
theorem mem_read {a : Half} {addrs : List Half} (ha : a ∉ addrs) (x : TransferView) :
    (x.read answers addrs).mem a = x.mem a := by
  induction addrs generalizing x with
  | nil => rfl
  | cons b rest ih =>
    obtain ⟨hne, hrest⟩ := not_or.1 (mt List.mem_cons.2 ha)
    rw [read, ih hrest]
    exact if_neg hne

/-- The data of a message change nothing outside a read buffer (R177, R178). -/
theorem mem_body {a : Half} {m : MsgWord} (ha : msgDir m = .rd → a ∉ bufAddrs (msgPtr m) (msgLen m).toNat)
    (x : TransferView) : (x.body pb answers m).mem a = x.mem a := by
  unfold body
  split
  · rw [mem_write]
  · next hd => exact mem_read answers (ha hd) x

/-- Messages change nothing outside the read buffers among them, wherever the loop is left. -/
theorem mem_legs {a : Half} {ms : List MsgWord} (i : Nat)
    (ha : ∀ m ∈ ms, msgDir m = .rd → a ∉ bufAddrs (msgPtr m) (msgLen m).toNat) (x : TransferView) :
    (legs pb align answers i ms x).mem a = x.mem a := by
  induction ms generalizing i x with
  | nil => rfl
  | cons m rest ih =>
    obtain ⟨hm, hrest⟩ := List.forall_mem_cons.1 ha
    have hdata (y : TransferView) (hy : y.mem a = x.mem a) :
        (if (y.body pb answers m).status = .tmo then y.body pb answers m
          else legs pb align answers (i + 1) rest (y.body pb answers m)).mem a = x.mem a := by
      have hbody : (y.body pb answers m).mem a = x.mem a := (mem_body pb answers hm y).trans hy
      split
      · exact hbody
      · exact (ih _ hrest _).trans hbody
    rw [legs]
    split
    · exact hdata x rfl
    · extract_lets s h
      split
      · rfl
      · exact hdata h rfl

end TransferView

/-! ## XFER -/

/-- The message loop of an accepted XFER tells the transfer's whole message level (R171). -/
theorem messageLoop_tells_transferView {s : State} (mbase : MsgIndex) (count : Half) (hwf : s.memoriesWf) :
    Tells s (transferView s mbase count) (messageLoop count.toNat mbase (setI 0 (accept 0x5#4 s))) := by
  have hinit : Tells s { events := [], status := .ok, mem := bufByte s, used := 0 } (setI 0 (accept 0x5#4 s)) :=
    ⟨by simp, rfl, fun _ => rfl, rfl, rfl, rfl, rfl, hwf.1⟩
  have hloop := hinit.messageLoop mbase count.toNat 0 (by have := count.isLt; omega) rfl
  rwa [← List.range_eq_range'] at hloop

/-- `BUF` after an XFER, whatever the pins and the strobe were before it: what the message level says. -/
theorem bufByte_exec_xfer {s t : State} {mbase : MsgIndex} {count : Half} (hwf : s.memoriesWf)
    (h : exec (.xfer mbase count) s = .next t) (a : Half) : bufByte t a = (transferView s mbase count).mem a := by
  rw [exec_eq] at h
  injection h with h
  subst h
  exact (messageLoop_tells_transferView mbase count hwf).mem a

/-- Settles O47: `BUF` after XFER is the message level's (`bufByte_exec_xfer`), whose legs write in their read buffers only
(`TransferView.mem_legs`). -/
theorem transferWritesOnlyItsReadLegs : Obligations.TransferWritesOnlyItsReadLegs := by
  intro s t mbase count a hwf h ha
  rw [bufByte_exec_xfer hwf h, transferView, TransferView.mem_legs _ _ _ _ ha]

end Sys2Proof.Machine
end

section
/-! The statements on the encoding. What they turn on: a word with a clear `z` field is its five other fields side by
side (R91), and the encoder's word for the command a word decodes to is that word with the ignored bits cleared (R98). -/

namespace Sys2Proof

/-! ## A word is its fields (R91) -/

variable {w w' : CmdWord} {i : Instr}

/-- Two words with an equal field have equal bits in it. -/
theorem getLsbD_eq_of_field_eq {start len k : Nat} (h : w.extractLsb' start len = w'.extractLsb' start len)
    (hlow : start ≤ k) (hhigh : k < start + len) : w.getLsbD k = w'.getLsbD k := by
  have hbit := congrArg (·.getLsbD (k - start)) h
  have hk : k - start < len := by omega
  simpa [hk, hlow] using hbit

/-- The six fields cover the word. -/
theorem word_eq_of_fields_eq (hop : fieldOp w = fieldOp w') (hz : fieldZ w = fieldZ w') (hb : fieldB w = fieldB w')
    (hreg : fieldReg w = fieldReg w') (hptr : fieldPtr w = fieldPtr w') (hlen : fieldLen w = fieldLen w') : w = w' := by
  apply BitVec.eq_of_getLsbD_eq
  intro k hk
  by_cases h16 : k < 16
  · exact getLsbD_eq_of_field_eq hlen (by omega) (by omega)
  by_cases h32 : k < 32
  · exact getLsbD_eq_of_field_eq hptr (by omega) (by omega)
  by_cases h48 : k < 48
  · exact getLsbD_eq_of_field_eq hreg (by omega) (by omega)
  by_cases h56 : k < 56
  · exact getLsbD_eq_of_field_eq hb (by omega) (by omega)
  by_cases h60 : k < 60
  · exact getLsbD_eq_of_field_eq hz (by omega) (by omega)
  · exact getLsbD_eq_of_field_eq hop (by omega) (by omega)

@[simp] theorem fieldOp_and (w m : CmdWord) : fieldOp (w &&& m) = fieldOp w &&& fieldOp m := BitVec.extractLsb'_and
@[simp] theorem fieldZ_and (w m : CmdWord) : fieldZ (w &&& m) = fieldZ w &&& fieldZ m := BitVec.extractLsb'_and
@[simp] theorem fieldB_and (w m : CmdWord) : fieldB (w &&& m) = fieldB w &&& fieldB m := BitVec.extractLsb'_and
@[simp] theorem fieldReg_and (w m : CmdWord) : fieldReg (w &&& m) = fieldReg w &&& fieldReg m := BitVec.extractLsb'_and
@[simp] theorem fieldPtr_and (w m : CmdWord) : fieldPtr (w &&& m) = fieldPtr w &&& fieldPtr m := BitVec.extractLsb'_and
@[simp] theorem fieldLen_and (w m : CmdWord) : fieldLen (w &&& m) = fieldLen w &&& fieldLen m := BitVec.extractLsb'_and

/-- A word with a clear `z` field under a mask is its fields under the fields of the mask. -/
theorem and_eq_assemble (hz : fieldZ w = 0#4) (m : CmdWord) :
    w &&& m = assemble (fieldOp w &&& fieldOp m) (fieldB w &&& fieldB m) (fieldReg w &&& fieldReg m)
      (fieldPtr w &&& fieldPtr m) (fieldLen w &&& fieldLen m) := by
  apply word_eq_of_fields_eq <;> simp [hz]

/-! A field of a mask written as a number is left to the simplifier's arithmetic on bit vectors. -/

@[simp] theorem fieldOp_ofNat (n : Nat) : fieldOp (.ofNat 64 n) = (BitVec.ofNat 64 n).extractLsb' 60 4 := rfl
@[simp] theorem fieldZ_ofNat (n : Nat) : fieldZ (.ofNat 64 n) = (BitVec.ofNat 64 n).extractLsb' 56 4 := rfl
@[simp] theorem fieldB_ofNat (n : Nat) : fieldB (.ofNat 64 n) = (BitVec.ofNat 64 n).extractLsb' 48 8 := rfl
@[simp] theorem fieldReg_ofNat (n : Nat) : fieldReg (.ofNat 64 n) = (BitVec.ofNat 64 n).extractLsb' 32 16 := rfl
@[simp] theorem fieldPtr_ofNat (n : Nat) : fieldPtr (.ofNat 64 n) = (BitVec.ofNat 64 n).extractLsb' 16 16 := rfl
@[simp] theorem fieldLen_ofNat (n : Nat) : fieldLen (.ofNat 64 n) = (BitVec.ofNat 64 n).extractLsb' 0 16 := rfl

/-! `BitVec.and_allOnes` for the masks of a whole field, as the simplifier writes them. -/

@[simp] theorem and_allOnes_4 (x : BitVec 4) : x &&& 15#4 = x := BitVec.and_allOnes
@[simp] theorem and_allOnes_8 (x : Byte) : x &&& 255#8 = x := BitVec.and_allOnes
@[simp] theorem and_allOnes_16 (x : Half) : x &&& 65535#16 = x := BitVec.and_allOnes

/-! ## Which words decode (R94 to R97) -/

/-- Neither R96 nor R97 reserves the word. -/
theorem wordWellFormed_iff : wordWellFormed w = true ↔ fieldZ w = 0#4 ∧ (fieldOp w).toNat < 0xB := by
  simp only [wordWellFormed, zFieldClear, opcodeDefined, Bool.and_eq_true, decide_eq_true_eq, BitVec.le_def]
  exact and_congr_right fun _ => Nat.lt_succ_iff.symm

/-- A word with `z ≠ 0` is refused by its `z` field, whatever its opcode (R97). -/
theorem decode_of_fieldZ_ne_zero (hz : fieldZ w ≠ 0#4) : decode w = .error (.reservedField (fieldZ w)) := by
  simp [decode, hz]

/-- A word with `z = 0` and a reserved opcode is refused by its opcode (R96). -/
theorem decode_of_reserved_opcode (hz : fieldZ w = 0#4) (hop : 0xB ≤ (fieldOp w).toNat) :
    decode w = .error (.reservedOpcode (fieldOp w)) := by
  unfold decode
  rw [if_neg (not_not.2 hz)]
  split
  case h_12 => rfl
  all_goals omega

/-- A word with `z = 0` and one of the eleven opcodes decodes (R94). -/
theorem exists_decode_of_fields (hz : fieldZ w = 0#4) (hop : (fieldOp w).toNat < 0xB) : ∃ i, decode w = .ok i := by
  unfold decode
  rw [if_neg (not_not.2 hz)]
  generalize (fieldOp w).toNat = row at hop
  interval_cases row <;> exact ⟨_, rfl⟩

/-- A word that decodes has a clear `z` field (R97). -/
theorem fieldZ_of_decode (h : decode w = .ok i) : fieldZ w = 0#4 := by
  by_contra hz
  simp [decode_of_fieldZ_ne_zero hz] at h

/-! ## The encoder's word for a decoded command (R93, R98) -/

/-- `b[0]` as a byte is the byte with its other bits cleared. -/
theorem byte_of_operandAck (w : CmdWord) : (if operandAck w then 1#8 else 0#8) = fieldB w &&& 1#8 := by
  rw [BitVec.and_one_eq_setWidth_ofBool_getLsbD]
  unfold operandAck
  cases (fieldB w).getLsbD 0 <;> rfl

/-- The low byte of a half word, widened, is the half word with its high byte cleared. -/
theorem setWidth_lowByte (x : Half) : (x.extractLsb' 0 8).setWidth 16 = x &&& 255#16 := by
  apply BitVec.eq_of_toNat_eq
  have hmask : x.toNat &&& 255 = x.toNat % 256 := Nat.and_two_pow_sub_one_eq_mod x.toNat 8
  have hwide : x.toNat % 256 % 65536 = x.toNat % 256 := Nat.mod_eq_of_lt (by omega)
  simp [hmask, hwide]

/-- Encoding the command a word decodes to clears the word's ignored bits (R98). Field by field: the operand a command
reads is the field or, where it reads less (R93), the field under a mask. -/
theorem encode_of_decode (h : decode w = .ok i) : encode i = w &&& ~~~ ignoredBits (fieldOp w) := by
  have hz : fieldZ w = 0#4 := fieldZ_of_decode h
  have hop : fieldOp w = i.opcode := (Machine.opcode_of_decode h).symm
  rw [and_eq_assemble hz, hop]
  cases i with
  | init | start | stop => simp [encode, Instr.opcode, ignoredBits]
  | _ =>
    simp [decode, hz, hop, Instr.opcode] at h
    simp [← h, encode, Instr.opcode, ignoredBits, byte_of_operandAck, operandMbase, operandReg8, setWidth_lowByte]

/-- Commands with one word are one command. -/
theorem encode_injective : Function.Injective encode := by
  intro i i' h
  have hdec : decode (encode i) = decode (encode i') := congrArg decode h
  simpa only [Machine.decode_encode, Except.ok.injEq] using hdec

/-- A canonical word has no ignored bit to clear (R98). -/
theorem and_not_ignoredBits (h : wordCanonical w = true) : w &&& ~~~ ignoredBits (fieldOp w) = w := by
  have hzero : w &&& ignoredBits (fieldOp w) = 0#64 := by
    rw [wordCanonical, Bool.and_eq_true, decide_eq_true_eq] at h
    exact h.2
  apply BitVec.eq_of_getLsbD_eq
  intro k hk
  have hbit := congrArg (·.getLsbD k) hzero
  simpa [hk] using hbit

/-! ## The statements -/

/-- Settles O1: `decode_encode`, by the fields of an assembled word. -/
theorem decodeOfEncodeIsTheCommand : Obligations.DecodeOfEncodeIsTheCommand :=
  Machine.decode_encode

/-- Settles O2: the encoder's word is the word with its ignored bits cleared (`encode_of_decode`), and a canonical word
has none set. -/
theorem encodeOfDecodeIsTheCanonicalWord : Obligations.EncodeOfDecodeIsTheCanonicalWord := by
  intro w i h hcanonical
  rw [encode_of_decode h, and_not_ignoredBits hcanonical]

/-- The rows of the opcode table: row `r` matches the word of opcode `r` whose other fields are zero (R94). -/
theorem getElem?_opcodeMatches {r : Nat} (hr : r < 0xB) :
    opcodeMatches[r]? = some (assemble (BitVec.ofNat 4 r) 0 0 0 0) := by
  interval_cases r <;> decide

/-- The table's mask clears all but the opcode of a word whose `z` field is clear (R94). -/
theorem and_opcodeMask (hz : fieldZ w = 0#4) : w &&& opcodeMask = assemble (fieldOp w) 0 0 0 0 := by
  simp [and_eq_assemble hz, opcodeMask]

/-- A command's opcode is one of the eleven of R94. -/
theorem opcode_lt (i : Instr) : i.opcode.toNat < 0xB := by
  cases i <;> simp [Instr.opcode]

/-- Settles O3: both directions by the opcode and `z` fields, which are what the mask keeps. -/
theorem decodeFollowsTheOpcodeTable : Obligations.DecodeFollowsTheOpcodeTable := by
  intro w
  constructor
  · intro i h
    rw [and_opcodeMask (fieldZ_of_decode h), ← Machine.opcode_of_decode h, getElem?_opcodeMatches (opcode_lt i),
      BitVec.ofNat_toNat, BitVec.setWidth_eq]
  · intro r m hrow hm
    have hr : r < 0xB := (List.getElem?_eq_some_iff.1 hrow).1
    rw [getElem?_opcodeMatches hr, ← hm, Option.some_inj] at hrow
    have hz : fieldZ w = 0#4 := by simpa [opcodeMask] using (congrArg fieldZ hrow).symm
    have hop : fieldOp w = BitVec.ofNat 4 r := by simpa [opcodeMask] using (congrArg fieldOp hrow).symm
    have hrow' : (fieldOp w).toNat = r := by rw [hop, BitVec.toNat_ofNat, Nat.mod_eq_of_lt (by omega)]
    obtain ⟨i, hi⟩ := exists_decode_of_fields hz (by omega)
    exact ⟨i, hi, by rw [Machine.opcode_of_decode hi, hrow']⟩

/-- No command ignores bits of the opcode or of the `z` field (R92, R98). -/
theorem fields_not_ignoredBits (op : BitVec 4) :
    fieldOp (~~~ ignoredBits op) = 15#4 ∧ fieldZ (~~~ ignoredBits op) = 15#4 := by
  revert op
  decide

/-- Settles O4: words equal outside the ignored bits of `w` decode to commands with one and the same encoding
(`encode_of_decode`), so to one command (`decode_encode`). -/
theorem ignoredFieldsHaveNoEffect : Obligations.IgnoredFieldsHaveNoEffect := by
  constructor
  · intro w w' hwf heq
    obtain ⟨hmop, hmz⟩ := fields_not_ignoredBits (fieldOp w)
    have hop : fieldOp w = fieldOp w' := by simpa [hmop] using congrArg fieldOp heq
    have hz' : fieldZ w = fieldZ w' := by simpa [hmz] using congrArg fieldZ heq
    obtain ⟨hz, hdef⟩ := wordWellFormed_iff.1 hwf
    obtain ⟨i, hi⟩ := exists_decode_of_fields hz hdef
    obtain ⟨i', hi'⟩ := exists_decode_of_fields (hz' ▸ hz) (hop ▸ hdef)
    have hword : encode i' = encode i := by rw [encode_of_decode hi, encode_of_decode hi', heq, hop]
    rw [hi, hi', encode_injective hword]
  · intro i
    have h := encode_of_decode (Machine.decode_encode i)
    rw [← Machine.opcode_of_decode (Machine.decode_encode i)] at h
    rw [h, BitVec.and_assoc, BitVec.not_and_self]
    exact BitVec.and_zero

/-- An idle engine answers a presented word with what running it answers (R33, R95). -/
theorem step_command_of_idle {s : Machine.State} {rest : List Machine.HostAct} (hb : s.busy = false)
    (hh : s.host = .command w :: rest) : Machine.step s = Machine.runWord w (Machine.nextHostAct s) := by
  rw [Machine.step_of_host hh, Machine.hostStep, Machine.whenIdle_idle hb]

/-- Settles O5: the step at an idle engine answers what the decoder does (`decode_of_fieldZ_ne_zero`,
`decode_of_reserved_opcode`); the fallback is latching, acceptance and
completion with nothing between, so it computes to the state written out. -/
theorem reservedWordsAreRefused : Obligations.ReservedWordsAreRefused := by
  refine ⟨fun s w rest hb hh => ⟨fun hz => ?_, fun hz hop => ?_⟩, fun s w => rfl⟩
  · rw [step_command_of_idle hb hh, Machine.runWord, Machine.latchCmd_cmd, decode_of_fieldZ_ne_zero hz]
  · rw [step_command_of_idle hb hh, Machine.runWord, Machine.latchCmd_cmd, decode_of_reserved_opcode hz hop]

/-- Settles O6: the decoder run on each word. -/
theorem wordsOfTheSpecDecode : Obligations.WordsOfTheSpecDecode := by
  refine ⟨?_, ?_, ?_, ?_, ?_, ?_, ?_, ?_⟩ <;> decide

end Sys2Proof
end

section
/-! The statements on the pins and the wire patterns of START and STOP. -/

namespace Sys2Proof.Machine

variable {i : Instr} {s t u : State} {evs : List Event}

/-! ## What START and STOP append -/

theorem eventsSince_of_trace (h : t.trace = s.trace ++ evs) : eventsSince s t = evs := by
  rw [eventsSince, h, List.drop_left]

/-- `exec_eq`, read backwards: a command answers no other state. -/
theorem eq_of_exec (h : exec i s = .next t) : t = finish (commandBody i (accept i.opcode s)) := by
  rw [exec_eq] at h
  injection h with h
  exact h.symm

/-- START appends its six events and leaves the direction of SDA alone (R120, R122). -/
theorem exec_start_wire (h : exec .start s = .next t) : t.trace = s.trace ++ startEvents ∧ t.sdaDir = s.sdaDir := by
  rw [eq_of_exec h, commandBody, startProc_eq]
  exact ⟨rfl, rfl⟩

/-- STOP appends its six events, raises both lines and leaves the direction of SDA alone (R123, R124). -/
theorem exec_stop_wire (h : exec .stop s = .next t) :
    t.trace = s.trace ++ stopEvents ∧ t.sclOut = true ∧ t.sdaOut = true ∧ t.sdaDir = s.sdaDir := by
  rw [eq_of_exec h, commandBody, stopProc_eq]
  exact ⟨rfl, rfl, rfl, rfl⟩

/-! ## Patterns on the wire (R126) -/

/-- With SDA driven, a START shows a STOP pattern where SDA rises under a high SCL, then its own pattern, and leaves both
lines low. -/
theorem patterns_startEvents_append (sclL sdaL : Level) (evs : List Event) :
    patterns sclL sdaL .out (startEvents ++ evs) =
      (if sclL = true ∧ sdaL = false then [.stop, .start] else [.start]) ++ patterns false false .out evs := by
  cases sclL <;> cases sdaL <;> rfl

/-- With SDA driven, a STOP shows one STOP pattern from any level of the lines: SCL falls before SDA does. -/
theorem patterns_stopEvents (sclL sdaL : Level) : patterns sclL sdaL .out stopEvents = [.stop] := by
  cases sclL <;> cases sdaL <;> rfl

/-! ## The statements -/

/-- Settles O36: the patterns of the events each command appends. -/
theorem wirePatternsOfStartAndStop : Obligations.WirePatternsOfStartAndStop := by
  intro s t hdir
  rw [hdir]
  constructor
  · intro hstart
    rw [eventsSince_of_trace (exec_start_wire hstart).1]
    simpa [patterns] using patterns_startEvents_append s.sclOut s.sdaOut []
  · intro hstop
    rw [eventsSince_of_trace (exec_stop_wire hstop).1, patterns_stopEvents]

/-- Settles O35: the two commands append the events of a START and of a STOP; idle lines show no STOP pattern before the
START, and STOP raises both lines. -/
theorem startThenStopIsAMinimalTransaction : Obligations.StartThenStopIsAMinimalTransaction := by
  intro s t u ⟨hscl, hsda, hdir⟩ hstart hstop
  obtain ⟨hstartTrace, hstartDir⟩ := exec_start_wire hstart
  obtain ⟨hstopTrace, hstopScl, hstopSda, hstopDir⟩ := exec_stop_wire hstop
  have hevents : eventsSince s u = startEvents ++ stopEvents :=
    eventsSince_of_trace (by rw [hstopTrace, hstartTrace, List.append_assoc])
  refine ⟨?_, ?_, hstopScl, hstopSda, by rw [hstopDir, hstartDir, hdir]⟩
  · rw [hevents]
    decide
  · rw [hevents, hscl, hsda, hdir, patterns_startEvents_append, patterns_stopEvents]
    rfl

end Sys2Proof.Machine
end

section
/-! The statements on the samples of every command and on the data bits of a sent byte. -/

namespace Sys2Proof.Machine

variable {r s t u : State} {evs evs' : List Event}

/-! ## Samples are taken listening -/

/-- The block listens: SDA is released and SCL is high. -/
def Listening (s : State) : Prop := s.sdaDir = .inp ∧ s.sclOut = true

/-- Replayed from `r`, the events before each `smp` event of the list leave the block listening. -/
def SamplesListening (r : State) (evs : List Event) : Prop :=
  ∀ (n : Nat) (b : Level), evs[n]? = some (.smp b) → Listening (replay (evs.take n) r)

namespace SamplesListening

@[simp] theorem nil (r : State) : SamplesListening r [] := by simp [SamplesListening]

/-- The first event is checked where the list begins, the others after its effect. -/
@[simp] theorem cons (r : State) (e : Event) (evs : List Event) :
    SamplesListening r (e :: evs) ↔ ((∃ b, e = .smp b) → Listening r) ∧ SamplesListening (replayEvent e r) evs := by
  constructor
  · intro h
    exact ⟨fun ⟨b, he⟩ => h 0 b (congrArg some he), fun n b hn => h (n + 1) b hn⟩
  · rintro ⟨hfirst, hrest⟩ (_ | n) b hn
    · exact hfirst ⟨b, Option.some.inj hn⟩
    · exact hrest n b hn

theorem append :
    SamplesListening r (evs ++ evs') ↔ SamplesListening r evs ∧ SamplesListening (replay evs r) evs' := by
  induction evs generalizing r with
  | nil => simp [replay_nil]
  | cons e evs ih => simp [replay_cons, ih, and_assoc]

/-! ### The procedures, from any pins -/

theorem startEvents (r : State) : SamplesListening r startEvents := by simp [Machine.startEvents]

theorem stopEvents (r : State) : SamplesListening r stopEvents := by simp [Machine.stopEvents]

theorem initEvents (r : State) : SamplesListening r initEvents := by simp [Machine.initEvents]

/-- Sent bits hold no sample. -/
theorem sentBits (bits : List Level) (r : State) : SamplesListening r (bits.flatMap bitEvents) := by
  induction bits generalizing r with
  | nil => simp
  | cons b bits ih => simp [bitEvents, ih]

/-- Polling keeps the block listening (R161), so every sample of the poll is taken so. -/
theorem poll (h : Listening r) (n : Nat) :
    SamplesListening r (List.replicate n (.smp true)) ∧ Listening (replay (List.replicate n (.smp true)) r) := by
  induction n generalizing r with
  | zero => exact ⟨nil r, h⟩
  | succ n ih =>
    obtain ⟨hsamples, hend⟩ := ih (r := replayEvent (.smp true) r) h
    exact ⟨(cons ..).2 ⟨fun _ => h, hsamples⟩, hend⟩

/-- AckWait releases SDA and raises SCL before its first sample (R161). -/
theorem ackEvents (pb n : Nat) (r : State) : SamplesListening r (ackEvents pb n) := by
  have hhead : SamplesListening r ackHeadEvents := by simp [ackHeadEvents]
  have hstart : Listening (replay ackHeadEvents r) := ⟨rfl, rfl⟩
  obtain ⟨hpoll, hend⟩ := poll hstart n
  rw [Machine.ackEvents, append, append, replay_append]
  refine ⟨⟨hhead, hpoll⟩, ?_⟩
  split
  · simp [hend]
  · simp [stopEvents]

theorem sendEvents (pb : Nat) (v : Byte) (n : Nat) (r : State) : SamplesListening r (sendEvents pb v n) :=
  append.2 ⟨sentBits _ _, ackEvents _ _ _⟩

/-- While SDA is released, each bit is sampled after SCL has been raised (R145). -/
theorem receivedBits (bits : List Level) (h : r.sdaDir = .inp) : SamplesListening r (bits.flatMap sampleEvents) := by
  induction bits generalizing r with
  | nil => simp
  | cons b bits ih => simp [sampleEvents, replayEvent, Listening, h, ih]

theorem readEvents (ack : Bool) (v : Byte) (r : State) : SamplesListening r (readEvents ack v) := by
  rw [Machine.readEvents, append, append]
  refine ⟨⟨by simp, receivedBits _ rfl⟩, ?_⟩
  simp [masterAckEvents]

end SamplesListening

/-- What the run from `s` to `t` appends to the trace takes its samples listening, whatever the pins were before. -/
def AppendsListening (s t : State) : Prop :=
  ∃ evs, t.trace = s.trace ++ evs ∧ ∀ r, SamplesListening r evs

namespace AppendsListening

theorem refl (s : State) : AppendsListening s s := ⟨[], by simp, SamplesListening.nil⟩

theorem append (h : AppendsListening s t) (hu : u.trace = t.trace ++ evs) (hevs : ∀ r, SamplesListening r evs) :
    AppendsListening s u := by
  obtain ⟨before, htrace, hbefore⟩ := h
  exact ⟨before ++ evs, by rw [hu, htrace, List.append_assoc],
    fun r => SamplesListening.append.2 ⟨hbefore r, hevs _⟩⟩

/-- Every procedure takes its samples listening. -/
theorem procClosed (s : State) : ProcClosed (AppendsListening s) where
  start t h := h.append (startProc_trace t) SamplesListening.startEvents
  stop t h := h.append (by rw [stopProc_eq]) SamplesListening.stopEvents
  init t h := h.append (by rw [initProc_eq]) SamplesListening.initEvents
  send v t h := h.append (by rw [sendByte_eq, sentState]) (SamplesListening.sendEvents _ v (highs t))
  read ack t h := h.append (by rw [readByte_eq, readState]) (SamplesListening.readEvents ack (nextByte t))
  memRead a t h := h.append (memRead_trace a t) (by simp)
  memWrite a v t h := h.append (memWrite_trace a v t) (by simp)
  setI _ _ h := h
  setJ _ _ h := h
  setM _ _ h := h
  setStatus _ _ h := h

theorem commandClosed (s : State) : CommandClosed (AppendsListening s) :=
  { procClosed s with
    accept := fun _ _ h => h, finish := fun _ h => h, setRdata := fun _ _ h => h, setHalfPeriod := fun _ _ h => h }

end AppendsListening

/-- Settles O26: every procedure takes its samples listening, so every command does. -/
theorem samplesAreTakenWithSdaReleasedAndSclHigh : Obligations.SamplesAreTakenWithSdaReleasedAndSclHigh := by
  intro i s t h
  obtain ⟨evs, htrace, hevs⟩ := (AppendsListening.commandClosed s).exec (AppendsListening.refl s) h
  rw [eventsSince_of_trace htrace]
  exact hevs s

/-! ## The data bits of a sent byte -/

/-- Each sent bit is five events: the third drives it, the fourth raises SCL (R141). -/
theorem getElem?_sentBits (bits : List Level) (evs : List Event) {k : Nat} (hk : k < bits.length) :
    (bits.flatMap bitEvents ++ evs)[5 * k + 2]? = some (.sda bits[k]) ∧
      (bits.flatMap bitEvents ++ evs)[5 * k + 3]? = some (.scl true) := by
  induction bits generalizing k with
  | nil => simp at hk
  | cons b bits ih =>
    cases k with
    | zero => simp [bitEvents]
    | succ k => simpa [bitEvents, Nat.mul_succ] using ih (Nat.lt_of_succ_lt_succ hk)

theorem length_sentBits (bits : List Level) : (bits.flatMap bitEvents).length = bits.length * 5 := by
  simp [bitEvents]

/-- Each sent bit raises SCL once (R141). -/
theorem count_scl_true_sentBits (bits : List Level) : (bits.flatMap bitEvents).count (.scl true) = bits.length := by
  induction bits with
  | nil => rfl
  | cons b bits ih => simp [bitEvents, ih]

/-- The bits of a byte stand most significant first (R67). -/
theorem bitsOf_getElem (v : Byte) {k : Nat} (hk : k < (bitsOf v).length) : (bitsOf v)[k] = v.getLsbD (7 - k) := by
  have hk8 : k < 8 := hk
  interval_cases k <;> rfl

/-- WRITE_BYTE appends the events of one SendByte (R141, R143). -/
theorem eventsSince_writeByte {v : Byte} (h : exec (.writeByte v) s = .next t) :
    eventsSince s t = sendEvents s.params.pb v (highs s) := by
  rw [eq_of_exec h, commandBody, sendKeepStatus_eq]
  exact eventsSince_of_trace rfl

/-- Settles O38: the events of WRITE_BYTE are five for each of its eight bits, then those of an AckWait. -/
theorem eightDataBitsMostSignificantFirst : Obligations.EightDataBitsMostSignificantFirst := by
  intro v s t h
  rw [eventsSince_writeByte h, sendEvents]
  have hlength : ((bitsOf v).flatMap bitEvents).length = 40 := length_sentBits (bitsOf v)
  refine ⟨fun k hk => ?_, ?_, ?_⟩
  · have hbits := getElem?_sentBits (bitsOf v) (ackEvents s.params.pb (highs s)) (k := k) hk
    rwa [bitsOf_getElem v hk] at hbits
  · rw [List.take_left' hlength]
    exact count_scl_true_sentBits (bitsOf v)
  · rw [List.drop_left' hlength, ackEvents, List.append_assoc]
    exact ⟨_, rfl⟩

end Sys2Proof.Machine
end

section
/-! The statements on the poll of an acknowledge wait and on its two ends (R162 to R164). -/

namespace Sys2Proof.Machine

variable {s : State} {k : Nat}

/-! ## How many high samples the poll takes -/

/-- The first low answer is the count (R162). -/
theorem highs_eq_of_first_low (hk : k < s.params.pb) (hlow : sampleAt s k = false)
    (hhigh : ∀ j < k, sampleAt s j = true) : highs s = k :=
  highsWithin_eq_of_low _ k s hk hlow hhigh

/-- Any low answer within the budget, the first or a later one, keeps the count below the budget. -/
theorem highs_lt_of_low (hk : k < s.params.pb) (hlow : sampleAt s k = false) : highs s < s.params.pb := by
  have hex : ∃ n, sampleAt s n = false := ⟨k, hlow⟩
  have hfirst : Nat.find hex < s.params.pb := (Nat.find_min' hex hlow).trans_lt hk
  have hhighs : highs s = Nat.find hex :=
    highs_eq_of_first_low hfirst (Nat.find_spec hex) fun j hj => by simpa using Nat.find_min hex hj
  rwa [hhighs]

/-- A budget of high answers is the count. -/
theorem highs_eq_of_all_high (hhigh : ∀ j < s.params.pb, sampleAt s j = true) : highs s = s.params.pb :=
  highsWithin_eq_of_high _ s hhigh

/-! ## The two ends of the wait -/

/-- The events of a wait that a low sample ends (R163). -/
theorem ackEvents_of_lt {pb n : Nat} (h : n < pb) :
    ackEvents pb n = ackHeadEvents ++ List.replicate n (.smp true) ++ [.smp false, .scl false, .sda true, .dir .out] := by
  rw [ackEvents, if_pos h]

/-- The events of a wait that exhausts its budget (R164). -/
theorem ackEvents_self (pb : Nat) :
    ackEvents pb pb = ackHeadEvents ++ List.replicate pb (.smp true) ++ ([.sda true, .dir .out] ++ stopEvents) := by
  rw [ackEvents, if_neg (Nat.lt_irrefl pb)]

theorem ackStatus_of_lt {pb n : Nat} (h : n < pb) : ackStatus pb n = .ok := if_pos h

theorem ackStatus_self (pb : Nat) : ackStatus pb pb = .tmo := if_neg (Nat.lt_irrefl pb)

/-- An exhausted budget is known by its last sample, since it has one (R7). -/
theorem ackEvents_self_last (p : Params) :
    ∃ evs, ackEvents p.pb p.pb = evs ++ ([.smp true, .sda true, .dir .out] ++ stopEvents) := by
  obtain ⟨n, hn⟩ := Nat.exists_eq_add_of_le' (one_le_pb p)
  refine ⟨ackHeadEvents ++ List.replicate n (.smp true), ?_⟩
  rw [ackEvents_self, hn, List.replicate_succ']
  simp

/-! ## What the wait leaves -/

theorem ackWait_status (s : State) : (ackWait s).1 = ackStatus s.params.pb (highs s) := by rw [ackWait_eq]

theorem ackWait_trace (s : State) : (ackWait s).2.trace = s.trace ++ ackEvents s.params.pb (highs s) := by
  rw [ackWait_eq]

theorem ackWait_samples (s : State) :
    (ackWait s).2.samples = s.samples + samplesTaken s.params.pb (highs s) := by
  rw [ackWait_eq]; rfl

/-- `POLLCNT` holds the count unwrapped: the budget is at most 65535 (R7). -/
theorem ackWait_pollcnt_toNat (s : State) : (ackWait s).2.pollcnt.toNat = highs s := by
  have hpoll : (ackWait s).2.pollcnt = BitVec.ofNat 16 (highs s) := by rw [ackWait_eq]; rfl
  have hfits : highs s < 2 ^ 16 := by have := highs_le s; have := pb_le s.params; omega
  rw [hpoll, BitVec.toNat_ofNat, Nat.mod_eq_of_lt hfits]

/-- SCL is left low exactly where a low sample came within the budget; SDA is driven high at either end. -/
theorem ackWait_pins (s : State) :
    (ackWait s).2.sclOut = !decide (highs s < s.params.pb) ∧ (ackWait s).2.sdaOut = true ∧
      (ackWait s).2.sdaDir = .out := by
  rw [ackWait_eq]; exact ⟨rfl, rfl, rfl⟩

/-! ## The statements -/

/-- Settles O39: the first low answer, or else the budget, is the count of high samples, and the count fixes the rest. -/
theorem ackPollIsExact : Obligations.AckPollIsExact := by
  intro s
  refine ⟨fun k hk hlow hhigh => ?_, fun hhigh => ?_, ?_⟩
  · have hcount := highs_eq_of_first_low hk hlow hhigh
    rw [ackWait_status, ackWait_samples, ackWait_pollcnt_toNat, ackWait_trace, hcount, ackEvents_of_lt hk]
    refine ⟨ackStatus_of_lt hk, ?_, rfl, by simp only [List.append_assoc]⟩
    rw [samplesTaken, Nat.min_eq_left hk]
  · have hcount := highs_eq_of_all_high hhigh
    rw [ackWait_status, ackWait_samples, ackWait_pollcnt_toNat, ackWait_trace, hcount, ackEvents_self]
    refine ⟨ackStatus_self _, ?_, rfl, by simp only [List.append_assoc]⟩
    rw [samplesTaken, Nat.min_eq_right (Nat.le_succ _)]
  · rw [ackWait_samples]
    exact Nat.add_le_add_left (Nat.min_le_right ..) _

/-- Settles O40: a low answer keeps the count below the budget, so a low sample is the deciding one. -/
theorem acknowledgedWaitEndsWithSclLow : Obligations.AcknowledgedWaitEndsWithSclLow := by
  intro s k hk hlow
  have hlt := highs_lt_of_low hk hlow
  obtain ⟨hscl, hsda, hdir⟩ := ackWait_pins s
  refine ⟨(ackWait_status s).trans (ackStatus_of_lt hlt), by simp [hscl, hlt], hsda, hdir, ?_⟩
  rw [ackWait_trace, ackEvents_of_lt hlt, ← List.append_assoc]
  exact ⟨_, rfl⟩

/-- Settles O41: WRITE_BYTE is one SendByte, whose AckWait exhausts its budget and keeps the status it returns. -/
theorem timedOutByteEndsWithStop : Obligations.TimedOutByteEndsWithStop := by
  intro b s hhigh
  have hcount := highs_eq_of_all_high hhigh
  obtain ⟨evs, hevs⟩ := ackEvents_self_last s.params
  refine ⟨_, writeByteSendsOneByte b s, ?_⟩
  rw [← highs_eq_highsOf, hcount]
  refine ⟨ackStatus_self _, ⟨decide_eq_true rfl, rfl, rfl⟩, (bitsOf b).flatMap bitEvents ++ evs, ?_⟩
  simp only [sendEvents, hevs, List.append_assoc]
  rfl

end Sys2Proof.Machine
end

section
/-! The statements on how the message loop of XFER goes on and ends: timeouts, a continuing write leg, and messages without
data (R171 to R183). -/

namespace Sys2Proof.Machine

variable {s t u : State} {mbase : MsgIndex} {i n : Nat}

/-! ## XFER is its message loop and a Stop -/

/-- The state in which the message loop of an accepted XFER begins. -/
def loopStart (s : State) : State := setI 0 (accept 0x5#4 s)

@[simp] theorem loopStart_trace (s : State) : (loopStart s).trace = s.trace := rfl
@[simp] theorem loopStart_status (s : State) : (loopStart s).status = .ok := rfl
@[simp] theorem loopStart_buf (s : State) : (loopStart s).buf = s.buf := rfl
@[simp] theorem loopStart_params (s : State) : (loopStart s).params = s.params := rfl
@[simp] theorem loopStart_regI (s : State) : (loopStart s).regI = 0 := rfl

@[simp] theorem loadMsg_trace (mbase : MsgIndex) (s : State) : (loadMsg mbase s).trace = s.trace := rfl
@[simp] theorem loadMsg_status (mbase : MsgIndex) (s : State) : (loadMsg mbase s).status = s.status := rfl
@[simp] theorem loadMsg_buf (mbase : MsgIndex) (s : State) : (loadMsg mbase s).buf = s.buf := rfl
@[simp] theorem loadMsg_params (mbase : MsgIndex) (s : State) : (loadMsg mbase s).params = s.params := rfl
@[simp] theorem loadMsg_bus (mbase : MsgIndex) (s : State) : (loadMsg mbase s).bus = s.bus := rfl
@[simp] theorem loadMsg_samples (mbase : MsgIndex) (s : State) : (loadMsg mbase s).samples = s.samples := rfl
@[simp] theorem loadMsg_regI (mbase : MsgIndex) (s : State) : (loadMsg mbase s).regI = s.regI := rfl

/-- The state in which the message loop of an accepted XFER ends. -/
def loopEnd (s : State) (mbase : MsgIndex) (count : Half) : State := messageLoop count.toNat mbase (loopStart s)

/-- An XFER adds one Stop to what its message loop leaves (R181). -/
theorem exec_xfer (s : State) (mbase : MsgIndex) (count : Half) :
    ∃ t, exec (.xfer mbase count) s = .next t ∧ t.status = (loopEnd s mbase count).status ∧
      t.buf = (loopEnd s mbase count).buf ∧ t.trace = (loopEnd s mbase count).trace ++ stopEvents :=
  ⟨_, exec_eq .., rfl, rfl, congrArg State.trace (stopProc_eq (loopEnd s mbase count))⟩

/-- A message leaves the loop exactly where it ends with status `TMO` (R175, R180). -/
theorem leg_left_iff (mbase : MsgIndex) (t : State) : (leg mbase t).1 = true ↔ (leg mbase t).2.status = .tmo := by
  by_cases hns : msgNostart (loadMsg mbase t).regM = true
  · rw [leg_nostart hns, decide_eq_true_eq]
  · rw [Bool.not_eq_true] at hns
    by_cases htmo : (legHead (loadMsg mbase t)).status = .tmo
    · rw [leg_addressTimeout hns htmo]
      exact iff_of_true rfl htmo
    · rw [leg_addressed hns htmo, decide_eq_true_eq]

theorem messageLoop_of_left (h : leg mbase t = (true, u)) : messageLoop (n + 1) mbase t = u := by
  simp only [messageLoop, h]

theorem messageLoop_of_stayed (h : leg mbase t = (false, u)) :
    messageLoop (n + 1) mbase t = messageLoop n mbase (setI (u.regI + 1) u) := by
  simp only [messageLoop, h]

/-- The first message's entry (R62). -/
theorem loadMsg_loopStart_regM (s : State) (mbase : MsgIndex) :
    (loadMsg mbase (loopStart s)).regM = msgEntry s mbase :=
  congrArg (msgEntry s) (BitVec.add_zero mbase)

/-! ## The Start and the address phase -/

/-- The address byte of a message (R66). -/
def addressOf (align : AddrAlign) (m : MsgWord) : Byte := addrByte align (msgAddr m) (msgDir m)

/-- The Start and the address phase of message `i`, whole (R173, R174): a SendByte, with the START's events before its own
where there is one. -/
theorem legHead_eq (hi : i < 65536) (hI : t.regI = BitVec.ofNat 16 i) :
    legHead t =
      { sentState (addressOf t.params.addrAlign t.regM) t with
        status := ackStatus t.params.pb (highs t)
        trace := t.trace ++ (if i ≤ 1 then startEvents else []) ++
          sendEvents t.params.pb (addressOf t.params.addrAlign t.regM) (highs t) } := by
  rw [legHead, legStart_eq hi hI]
  split
  · rw [sendKeepStatus_eq, startProc_eq]
    rfl
  · rw [sendKeepStatus_eq, List.append_nil]
    rfl

/-- Settles O49: the address byte's wait exhausts its budget, and the leg ends there (`leg_addressTimeout`). -/
theorem addressTimeoutEndsTheTransfer : Obligations.AddressTimeoutEndsTheTransfer := by
  intro s mbase count hcount hns hhigh
  have hM := loadMsg_loopStart_regM s mbase
  have hhighs : highs (loadMsg mbase (loopStart s)) = s.params.pb := highs_eq_of_all_high hhigh
  have hhead := legHead_eq (t := loadMsg mbase (loopStart s)) (i := 0) (by decide) (loopStart_regI s)
  rw [hM, hhighs] at hhead
  have htmo : (legHead (loadMsg mbase (loopStart s))).status = .tmo := by
    rw [hhead]
    exact ackStatus_self _
  have hend : loopEnd s mbase count = legHead (loadMsg mbase (loopStart s)) := by
    obtain ⟨n, hn⟩ : ∃ n, count.toNat = n + 1 :=
      Nat.exists_eq_succ_of_ne_zero fun h => hcount (BitVec.eq_of_toNat_eq h)
    rw [loopEnd, hn]
    exact messageLoop_of_left (leg_addressTimeout (by rwa [hM]) htmo)
  obtain ⟨t, hexec, hstatus, hbuf, htrace⟩ := exec_xfer s mbase count
  rw [hend] at hstatus hbuf htrace
  refine ⟨t, hexec, hstatus.trans htmo, ?_, ?_⟩
  · simp only [hbuf, hhead, sentState_buf, loadMsg_buf, loopStart_buf]
  · simp [htrace, hhead, addressOf]

/-! ## One message -/

/-- After a loop of one message only `I` depends on whether the message left the loop. -/
theorem messageLoop_one (mbase : MsgIndex) (t : State) : ∃ k, messageLoop 1 mbase t = setI k (leg mbase t).2 := by
  rcases hleg : leg mbase t with ⟨_ | _, u⟩
  · exact ⟨_, messageLoop_of_stayed hleg⟩
  · exact ⟨u.regI, messageLoop_of_left hleg⟩

theorem legBody_of_wr (hd : msgDir t.regM = .wr) : legBody t = sendBuffer (msgPtr t.regM) (msgLen t.regM) t := by
  rw [legBody, hd]

/-- Settles O50: the one leg is its data alone (`leg_nostart`), a buffer sent (`sendBuffer_eq`). -/
theorem writeLegKeepsTheLastStatus : Obligations.WriteLegKeepsTheLastStatus := by
  intro s mbase hns hd m pb counts
  have hM := loadMsg_loopStart_regM s mbase
  obtain ⟨k, hloop⟩ := messageLoop_one mbase (loopStart s)
  obtain ⟨_, _, hbody⟩ := sendBuffer_eq (msgPtr m) (msgLen m) (loadMsg mbase (loopStart s))
  have hend : loopEnd s mbase 1 = setI k (sendBuffer (msgPtr m) (msgLen m) (loadMsg mbase (loopStart s))) := by
    rw [loopEnd]
    refine hloop.trans ?_
    rw [leg_nostart (by rwa [hM]), legBody_of_wr (by rwa [hM]), hM]
  have hanswers : sampleAt (loadMsg mbase (loopStart s)) = sampleAt s := rfl
  have hbytes : bufByte (loadMsg mbase (loopStart s)) = bufByte s := rfl
  have hnone : ackStatus pb 0 = .ok := ackStatus_of_lt (one_le_pb s.params)
  obtain ⟨t, hexec, hstatus, hbuf, htrace⟩ := exec_xfer s mbase 1
  rw [hend] at hstatus hbuf htrace
  simp only [setI_status, setI_buf, setI_trace, hbody, hanswers, hbytes, loadMsg_trace, loadMsg_status, loadMsg_buf,
    loadMsg_params, loopStart_trace, loopStart_status, loopStart_buf, loopStart_params] at hstatus hbuf htrace
  refine ⟨t, hexec, htrace, hstatus.trans ?_, hbuf⟩
  rw [← hnone]
  exact getLast?_append_getD (ackStatus pb) [] counts

/-! ## Acknowledged messages without data -/

theorem legBody_of_len_zero (hlen : msgLen t.regM = 0) : legBody t = setJ 0 t := by
  rw [legBody, hlen]
  split <;> rfl

/-- Where the first answer is low no high sample is taken. -/
theorem highs_eq_zero_of_low (hlow : sampleAt t 0 = false) : highs t = 0 :=
  highs_eq_of_first_low (one_le_pb t.params) hlow fun _ hj => absurd hj (Nat.not_lt_zero _)

/-- An acknowledged message without data ends after its address byte, and the loop goes on. -/
theorem leg_emptyAcknowledged (hns : msgNostart (loadMsg mbase t).regM = false) (hlen : msgLen (loadMsg mbase t).regM = 0)
    (hok : (legHead (loadMsg mbase t)).status = .ok) :
    leg mbase t = (false, setJ 0 (legHead (loadMsg mbase t))) := by
  rw [leg_addressed hns (by rw [hok]; decide), legBody_of_len_zero (by rwa [(legHead_regs _).2]), setJ_status, hok]
  rfl

/-- The events of message `i`, without data and acknowledged at its first sample (R173, R174, R176). -/
def emptyEvents (s : State) (mbase : MsgIndex) (i : Nat) : List Event :=
  (if i ≤ 1 then startEvents else []) ++
    sendEvents s.params.pb (addressOf s.params.addrAlign (msgEntry s (msgIndex mbase (BitVec.ofNat 16 i)))) 0

/-- The message loop of an XFER from `s` is in `t` about to begin message `i`, the `i` before it having been without data and
acknowledged. -/
structure AfterEmpty (s : State) (mbase : MsgIndex) (i : Nat) (t : State) : Prop where
  trace : t.trace = s.trace ++ (List.range i).flatMap (emptyEvents s mbase)
  status : t.status = .ok
  bus : t.bus = s.bus.drop i
  samples : t.samples = s.samples + i
  params : t.params = s.params
  msgt : t.msgt = s.msgt
  regI : t.regI = BitVec.ofNat 16 i

namespace AfterEmpty

theorem loopStart (s : State) (mbase : MsgIndex) : AfterEmpty s mbase 0 (loopStart s) :=
  ⟨(List.append_nil _).symm, rfl, rfl, rfl, rfl, rfl, rfl⟩

/-- One message more: its leg appends its events, uses one answer and stays in the loop. -/
theorem leg (h : AfterEmpty s mbase i t) (hi : i < 65536)
    (hns : msgNostart (msgEntry s (msgIndex mbase (BitVec.ofNat 16 i))) = false)
    (hlen : msgLen (msgEntry s (msgIndex mbase (BitVec.ofNat 16 i))) = 0) (hack : sampleAt s i = false) :
    ∃ u, leg mbase t = (false, u) ∧ AfterEmpty s mbase (i + 1) (setI (u.regI + 1) u) := by
  have hM : (loadMsg mbase t).regM = msgEntry s (msgIndex mbase (BitVec.ofNat 16 i)) := by
    rw [← h.regI]
    exact msgEntry_congr h.msgt _
  have hparams : (loadMsg mbase t).params = s.params := h.params
  have hpb : 0 < s.params.pb := one_le_pb s.params
  have hanswers : sampleAt (loadMsg mbase t) = fun k => sampleAt s (k + i) := sampleAt_of_drop h.bus h.samples
  have hlow : sampleAt (loadMsg mbase t) 0 = false := by
    rw [hanswers]
    simpa only [Nat.zero_add] using hack
  have hhighs : highs (loadMsg mbase t) = 0 := highs_eq_zero_of_low hlow
  have htaken : samplesTaken s.params.pb 0 = 1 := Nat.min_eq_left hpb
  have hhead := legHead_eq (t := loadMsg mbase t) hi h.regI
  rw [hM, hparams, hhighs] at hhead
  refine ⟨_, leg_emptyAcknowledged (by rwa [hM]) (by rwa [hM]) (by rw [hhead]; exact ackStatus_of_lt hpb), ?_⟩
  rw [hhead]
  exact
    { trace := by simp [h.trace, emptyEvents, List.range_succ]
      status := ackStatus_of_lt hpb
      bus := by simp [hhighs, h.params, htaken, h.bus]
      samples := by simp [hhighs, h.params, htaken, h.samples, Nat.add_assoc]
      params := h.params
      msgt := h.msgt
      regI := by simp [h.regI, BitVec.ofNat_add] }

/-- Messages `i` to `i + n - 1`, all without data and acknowledged. -/
theorem messageLoop (h : AfterEmpty s mbase i t) (hi : i + n ≤ 65536)
    (hempty : ∀ k < i + n, msgNostart (msgEntry s (msgIndex mbase (BitVec.ofNat 16 k))) = false ∧
      msgLen (msgEntry s (msgIndex mbase (BitVec.ofNat 16 k))) = 0)
    (hack : ∀ k < i + n, sampleAt s k = false) : AfterEmpty s mbase (i + n) (messageLoop n mbase t) := by
  induction n generalizing i t with
  | zero => exact h
  | succ n ih =>
    obtain ⟨hns, hlen⟩ := hempty i (by omega)
    obtain ⟨u, hleg, hu⟩ := h.leg (by omega) hns hlen (hack i (by omega))
    have hsum : i + (n + 1) = i + 1 + n := by omega
    rw [messageLoop_of_stayed hleg, hsum]
    rw [hsum] at hi hempty hack
    exact ih hu hi hempty hack

end AfterEmpty

/-- Settles O51: `AfterEmpty` from the first message on. -/
theorem onlyTheFirstTwoMessagesGetAStart : Obligations.OnlyTheFirstTwoMessagesGetAStart := by
  intro s mbase count hempty hack
  have hloop := (AfterEmpty.loopStart s mbase).messageLoop (n := count.toNat) (by have := count.isLt; omega)
    (fun k hk => hempty _ (List.mem_map_of_mem (List.mem_range.2 (by simpa using hk)))) (by simpa using hack)
  rw [Nat.zero_add] at hloop
  obtain ⟨t, hexec, hstatus, -, htrace⟩ := exec_xfer s mbase count
  refine ⟨t, hexec, hstatus.trans hloop.status, ?_⟩
  rw [htrace, loopEnd, hloop.trace]
  rfl

/-! ## A transfer that reports `TMO` -/

/-- How an acknowledge wait that exhausts its budget ends (R164). -/
def timeoutTail : List Event := [.smp true, .sda true, .dir .out] ++ stopEvents

/-- A wait that ends with `TMO` has exhausted its budget (R162). -/
theorem highs_eq_pb_of_tmo (h : ackStatus t.params.pb (highs t) = .tmo) : highs t = t.params.pb := by
  by_contra hne
  have hlt : highs t < t.params.pb := lt_of_le_of_ne (highs_le t) hne
  rw [ackStatus_of_lt hlt] at h
  cases h

/-- What the run from `s` to `t` appends to the trace ends with a timeout, where the status is `TMO`. -/
def EndsAsReported (s t : State) : Prop :=
  ∃ evs, t.trace = s.trace ++ evs ∧ (t.status = .tmo → timeoutTail <:+ evs)

namespace EndsAsReported

theorem of_ok {evs : List Event} (ht : t.trace = s.trace ++ evs) (hok : t.status = .ok) : EndsAsReported s t :=
  ⟨evs, ht, fun htmo => by rw [hok] at htmo; cases htmo⟩

/-- A byte sent, whatever was reported before it: a status `TMO` is that of its own wait. -/
theorem send {evs : List Event} (ht : t.trace = s.trace ++ evs) (v : Byte) : EndsAsReported s (sendKeepStatus v t) := by
  rw [sendKeepStatus_eq]
  refine ⟨evs ++ sendEvents t.params.pb v (highs t), ?_, fun htmo => ?_⟩
  · rw [← List.append_assoc, ← ht]
    rfl
  · obtain ⟨before, hbefore⟩ := ackEvents_self_last t.params
    rw [highs_eq_pb_of_tmo htmo, sendEvents, hbefore]
    exact ⟨evs ++ ((bitsOf v).flatMap bitEvents ++ before), by simp only [timeoutTail, List.append_assoc]⟩

/-- A write loop: its last byte ends as reported, or, where it sends none, all is as before (R179). -/
theorem sendLoop (h : EndsAsReported s t) (n : Nat) (ptr : Half) : EndsAsReported s (sendLoop n ptr t) := by
  induction n generalizing t with
  | zero => exact h
  | succ n ih =>
    obtain ⟨evs, ht, -⟩ := h
    refine ih (send (evs := evs ++ [.rd (bufAddr ptr t.regJ) (bufByte t (bufAddr ptr t.regJ))]) ?_ _)
    rw [memRead_trace, ht, List.append_assoc]

/-- The data of a message, begun with status `OK`: a read leg keeps it (R178). -/
theorem legBody (h : EndsAsReported s t) (hok : t.status = .ok) : EndsAsReported s (legBody t) := by
  unfold Machine.legBody
  split
  · exact EndsAsReported.sendLoop (t := setJ 0 t) h _ _
  · obtain ⟨evs, ht, -⟩ := h
    obtain ⟨htrace, hstatus, -⟩ := readLoop_spec (msgLen t.regM).toNat (msgPtr t.regM) (setJ 0 t)
    rw [setJ_trace, ht, List.append_assoc] at htrace
    exact of_ok htrace (hstatus.trans hok)

theorem legHead (h : EndsAsReported s t) : EndsAsReported s (legHead t) := by
  obtain ⟨evs, ht, -⟩ := h
  have hI : t.regI = BitVec.ofNat 16 t.regI.toNat := by simp
  simp only [Machine.legHead, legStart_eq t.regI.isLt hI]
  split
  · refine send (evs := evs ++ startEvents) ?_ _
    rw [startProc_trace, ht, List.append_assoc]
  · exact send ht _

/-- One message, begun with status `OK`. -/
theorem leg (h : EndsAsReported s t) (hok : t.status = .ok) : EndsAsReported s (leg mbase t).2 := by
  have hload : EndsAsReported s (loadMsg mbase t) := h
  by_cases hns : msgNostart (loadMsg mbase t).regM = true
  · rw [leg_nostart hns]
    exact hload.legBody hok
  · rw [Bool.not_eq_true] at hns
    cases hst : (Machine.legHead (loadMsg mbase t)).status with
    | tmo =>
      rw [leg_addressTimeout hns hst]
      exact hload.legHead
    | ok =>
      rw [leg_addressed hns (by rw [hst]; decide)]
      exact hload.legHead.legBody hst

/-- The message loop, begun with status `OK`: it goes on from a message only where the status is still `OK`. -/
theorem messageLoop (h : EndsAsReported s t) (hok : t.status = .ok) (n : Nat) :
    EndsAsReported s (messageLoop n mbase t) := by
  induction n generalizing t with
  | zero => exact h
  | succ n ih =>
    have hu := h.leg (mbase := mbase) hok
    have hleft := leg_left_iff mbase t
    rcases hleg : Machine.leg mbase t with ⟨_ | _, u⟩
    · rw [hleg] at hu hleft
      rw [messageLoop_of_stayed hleg]
      cases hst : u.status with
      | ok => exact ih (t := setI (u.regI + 1) u) hu hst
      | tmo => exact absurd (hleft.2 hst) Bool.false_ne_true
    · rw [hleg] at hu
      rwa [messageLoop_of_left hleg]

end EndsAsReported

/-- Settles O52: the message loop ends as reported (`EndsAsReported.messageLoop`), and one Stop follows. -/
theorem timedOutTransferEndsWithTwoStops : Obligations.TimedOutTransferEndsWithTwoStops := by
  intro s t mbase count h htmo
  obtain ⟨t', hexec, hstatus, -, hstop⟩ := exec_xfer s mbase count
  obtain rfl : t = t' := by simpa [h] using hexec
  have hbegin : EndsAsReported s (loopStart s) := .of_ok (List.append_nil _).symm rfl
  obtain ⟨evs, htrace, htail⟩ := hbegin.messageLoop (mbase := mbase) rfl count.toNat
  obtain ⟨before, rfl⟩ := htail (hstatus.symm.trans htmo)
  refine ⟨before, ?_⟩
  rw [hstop, loopEnd, htrace]
  simp only [timeoutTail, List.append_assoc]

end Sys2Proof.Machine
end

section
/-! The statements on reset (R250, R251). -/

namespace Sys2Proof.Machine

variable {s t : State} {n : Nat}

/-! ## What a command abandoned by reset leaves -/

/-- Replaying touches neither the message table nor what the host has still to do. -/
theorem replay_msgt_host (evs : List Event) (s : State) :
    (replay evs s).msgt = s.msgt ∧ (replay evs s).host = s.host :=
  replay_keeps (P := fun t => t.msgt = s.msgt ∧ t.host = s.host) (by constructor <;> simp) evs s ⟨rfl, rfl⟩

/-- A command told by its trace, abandoned after `n` events, has emitted just those (R251). -/
theorem abandonAfter_trace (h : ReplayReaches s t) :
    (abandonAfter n s t).trace = s.trace ++ (eventsSince s t).take n := by
  obtain ⟨evs, htrace, hwire⟩ := h
  rw [abandonAfter, resetBlock_trace, eventsSince_of_trace htrace]
  exact replay_take n (hwire.trace.trans htrace)

theorem abandonAfter_halfPeriod (n : Nat) (s t : State) : (abandonAfter n s t).halfPeriod = s.params.hpReset :=
  congrArg Params.hpReset (abandonAfter_params n s t)

/-! ## The statements -/

/-- Settles O17: a reset is taken in any cycle (`step_reset`), and `resetBlock` leaves the values of R250. -/
theorem resetActionResetsTheBlock : Obligations.ResetActionResetsTheBlock := by
  intro s rest hq
  refine ⟨_, step_reset hq, ?_⟩
  simp [hq]

/-- Settles O18: `step_commandThenReset` names the state, in which the trace is that of the replayed events
(`abandonAfter_trace`), `BUF` what they wrote (`replay_buf`), and the rest at its reset value or untouched. The command runs
on the latched word and is replayed on the state before, which differs from it in no wire. -/
theorem resetDuringACommandAbandonsIt : Obligations.ResetDuringACommandAbandonsIt := by
  intro s u w n rest i hb hq hd hu
  have hu : exec i (latchCmd w (nextHostAct s)) = .next u := by rw [nextHostAct_of_host hq]; exact hu
  have hreach : ReplayReaches (nextHostAct s) u :=
    (ReplayReaches.commandClosed _).exec (ReplayReaches.refl _).silent hu
  obtain ⟨hmsgt, hhost⟩ := replay_msgt_host ((eventsSince s u).take n) (nextHostAct s)
  exact ⟨_, step_commandThenReset hb hq hd hu, abandonAfter_trace hreach, ⟨rfl, rfl, rfl⟩, rfl, rfl, rfl, rfl,
    abandonAfter_halfPeriod .., hmsgt, hhost.trans (by simp [hq]), replay_buf _ (nextHostAct s)⟩

end Sys2Proof.Machine
end

section
/-! The statement on the cycles of the procedures (R262, R263). -/

namespace Sys2Proof.Machine

variable (half : Half) (tick : Nat) {s t : State} {evs : List Event}

/-! ## Cycles of a trace, event by event (R262) -/

@[simp] theorem traceCycles_nil : traceCycles half tick [] = 0 := rfl

@[simp] theorem traceCycles_cons (e : Event) (evs : List Event) :
    traceCycles half tick (e :: evs) = eventCycles half tick e + traceCycles half tick evs := rfl

@[simp] theorem traceCycles_append (evs evs' : List Event) :
    traceCycles half tick (evs ++ evs') = traceCycles half tick evs + traceCycles half tick evs' := by
  simp [traceCycles]

@[simp] theorem eventCycles_dly : eventCycles half tick .dly = half.toNat * tick := rfl
@[simp] theorem eventCycles_sda (v : Level) : eventCycles half tick (.sda v) = 1 := rfl
@[simp] theorem eventCycles_scl (v : Level) : eventCycles half tick (.scl v) = 1 := rfl
@[simp] theorem eventCycles_dir (d : PadDir) : eventCycles half tick (.dir d) = 1 := rfl
@[simp] theorem eventCycles_smp (b : Level) : eventCycles half tick (.smp b) = 1 := rfl

/-- Samples in a row take one cycle each. -/
@[simp] theorem traceCycles_replicate_smp (n : Nat) (b : Level) :
    traceCycles half tick (List.replicate n (.smp b)) = n := by
  simp [traceCycles]

/-- Where every bit takes `c` cycles, a row of bits takes `c` for each. -/
theorem traceCycles_flatMap {c : Nat} {f : Level → List Event} (hf : ∀ b, traceCycles half tick (f b) = c)
    (bits : List Level) : traceCycles half tick (bits.flatMap f) = bits.length * c := by
  induction bits with
  | nil => simp
  | cons b bits ih => simp [hf, ih, Nat.succ_mul, Nat.add_comm]

theorem traceCycles_eventsSince (h : t.trace = s.trace ++ evs) :
    traceCycles half tick (eventsSince s t) = traceCycles half tick evs := by
  rw [eventsSince_of_trace h]

/-! ## The rows of the table of R263 -/

theorem traceCycles_startEvents : traceCycles half tick startEvents = 4 + 2 * (half.toNat * tick) := by
  simp +arith [startEvents]

theorem traceCycles_stopEvents : traceCycles half tick stopEvents = 4 + 2 * (half.toNat * tick) := by
  simp +arith [stopEvents]

theorem traceCycles_bitEvents (b : Level) : traceCycles half tick (bitEvents b) = 3 + 2 * (half.toNat * tick) := by
  simp +arith [bitEvents]

theorem traceCycles_sampleEvents (b : Level) :
    traceCycles half tick (sampleEvents b) = 3 + 2 * (half.toNat * tick) := by
  simp +arith [sampleEvents]

theorem traceCycles_masterAckEvents (level : Level) :
    traceCycles half tick (masterAckEvents level) = 5 + 2 * (half.toNat * tick) := by
  simp +arith [masterAckEvents]

theorem traceCycles_ackHeadEvents : traceCycles half tick ackHeadEvents = 3 + 2 * (half.toNat * tick) := by
  simp +arith [ackHeadEvents]

/-- An acknowledged wait: its head, the high samples, the low one and three events to end (R163). -/
theorem traceCycles_ackEvents_of_lt {pb k : Nat} (hk : k < pb) :
    traceCycles half tick (ackEvents pb k) = 6 + (k + 1) + 2 * (half.toNat * tick) := by
  simp +arith [ackEvents_of_lt hk, traceCycles_ackHeadEvents]

/-- An exhausted wait: its head, the budget of high samples, two events and a Stop (R164). -/
theorem traceCycles_ackEvents_self (pb : Nat) :
    traceCycles half tick (ackEvents pb pb) = 9 + pb + 4 * (half.toNat * tick) := by
  simp +arith [ackEvents_self, traceCycles_ackHeadEvents, traceCycles_stopEvents]

/-- Eight sent bits and the wait for their acknowledge (R141). -/
theorem traceCycles_sendEvents_of_lt {pb k : Nat} (v : Byte) (hk : k < pb) :
    traceCycles half tick (sendEvents pb v k) = 30 + (k + 1) + 18 * (half.toNat * tick) := by
  have hbits : traceCycles half tick ((bitsOf v).flatMap bitEvents) = 8 * (3 + 2 * (half.toNat * tick)) :=
    traceCycles_flatMap half tick (traceCycles_bitEvents half tick) (bitsOf v)
  rw [sendEvents, traceCycles_append, hbits, traceCycles_ackEvents_of_lt half tick hk]
  omega

/-- SDA released, eight received bits and MasterAck (R145). -/
theorem traceCycles_readEvents (ack : Bool) (v : Byte) :
    traceCycles half tick (readEvents ack v) = 30 + 18 * (half.toNat * tick) := by
  have hbits : traceCycles half tick ((bitsOf v).flatMap sampleEvents) = 8 * (3 + 2 * (half.toNat * tick)) :=
    traceCycles_flatMap half tick (traceCycles_sampleEvents half tick) (bitsOf v)
  simp +arith [readEvents, hbits, traceCycles_masterAckEvents]

theorem traceCycles_initEvents : traceCycles half tick initEvents = 3 := rfl

/-! ## The statement -/

/-- Settles O53: each procedure appends the events its closed form names, and their cycles are the rows above at one cycle a
tick; the wait ends by the first low sample or, since the count is at most the budget, with the count at the budget. -/
theorem cyclesOfTheProcedures : Obligations.CyclesOfTheProcedures := by
  intro s
  dsimp only
  refine ⟨?_, ?_, ?_, ?_, fun level => ?_, ?_, fun v hk => ?_, fun ack => ?_, ?_⟩
  · rw [traceCycles_eventsSince _ _ (startProc_trace s), traceCycles_startEvents, Nat.mul_one]
  · rw [traceCycles_eventsSince _ _ (by rw [stopProc_eq]), traceCycles_stopEvents, Nat.mul_one]
  · rw [traceCycles_eventsSince _ _ (by rw [sendBit_eq]), traceCycles_bitEvents, Nat.mul_one]
  · rw [traceCycles_eventsSince _ _ (by rw [readBit_eq]), traceCycles_sampleEvents, Nat.mul_one]
  · rw [traceCycles_eventsSince _ _ (by rw [masterAck_eq]), traceCycles_masterAckEvents, Nat.mul_one]
  · rw [traceCycles_eventsSince _ _ (ackWait_trace s), highs_eq_highsOf]
    have hle : highsOf s.params.pb (sampleAt s) ≤ s.params.pb := highs_le s
    obtain hk | hk := hle.lt_or_eq
    · rw [traceCycles_ackEvents_of_lt _ _ hk, if_pos hk, Nat.mul_one]
    · rw [hk, traceCycles_ackEvents_self, if_neg (Nat.lt_irrefl _), Nat.mul_one]
  · rw [sendByte_eq, traceCycles_eventsSince _ _ (sentState_trace v s), highs_eq_highsOf,
      traceCycles_sendEvents_of_lt _ _ v hk, Nat.mul_one]
  · rw [readByte_eq, traceCycles_eventsSince _ _ (readState_trace ack s), traceCycles_readEvents, Nat.mul_one]
  · rw [traceCycles_eventsSince _ _ (by rw [initProc_eq]), traceCycles_initEvents]

end Sys2Proof.Machine
end
